-- ==== Sys2Proof/Word.lean ====
section
/-! DEFINITION. The word types of the core: the 64-bit bus word, the binary64 pattern, the byte, the 32-bit command
word, and the complex element of a sample bank (00_scope.md rule R9, 20_memory.md rules R63 and R64,
30_encoding.md rule R90). -/

namespace Sys2Proof

/-- One byte lane of the bus (R63). -/
abbrev Byte := BitVec 8

/-- One 64-bit bus word, the only access width (R64). -/
abbrev Word := BitVec 64

/-- A command word (R90). -/
abbrev CmdWord := BitVec 32

/-- The 64-bit pattern of a binary64 value (R9). -/
abbrev F64 := BitVec 64

/-- A complex value, the pair `(z.re, z.im)` of binary64 words (R9); one element of a sample bank (R43). -/
structure Cplx where
  re : F64
  im : F64
  deriving DecidableEq, Repr, Inhabited

end Sys2Proof
end

