-- ==== Sys2Proof/Syntax.lean ====
section
/-! DEFINITION. The commands of the core, one constructor per row of the opcode map (30_encoding.md rule R95). A
constructor carries exactly the fields its command reads; the length is not a field of the word (R90) and is read
from the latch. -/

namespace Sys2Proof

/-- The direction bit `DIR` (R92): `fwd` is 0, `inv` is 1. -/
inductive Dir where
  | fwd
  | inv
  deriving DecidableEq, Repr

/-- A command of R95. Bank numbers and `K` are unsigned integers (R93, R94). -/
inductive Instr where
  /-- `nop` (R192). -/
  | nop
  /-- `fft.{fwd,inv} bD, bA` (R160). -/
  | fft (dir : Dir) (dst srca : Nat)
  /-- `czt.{fwd,inv} bD, bA` (R170). -/
  | czt (dir : Dir) (dst srca : Nat)
  /-- `dft.{fwd,inv} bD, bA` (R190). -/
  | dft (dir : Dir) (dst srca : Nat)
  /-- `bitrev bD, bA` (R130). -/
  | bitrev (dst srca : Nat)
  /-- `bfly4.{fwd,inv} bD, bA` (R140). -/
  | bfly4 (dir : Dir) (dst srca : Nat)
  /-- `combine.{fwd,inv} bD, bA, #K` (R142). -/
  | combine (dir : Dir) (dst srca k : Nat)
  /-- `post.{fwd,inv} bD, bA` (R146). -/
  | post (dir : Dir) (dst srca : Nat)
  /-- `cmul bD, bA, bB` (R120). -/
  | cmul (dst srca srcb : Nat)
  /-- `twid.{fwd,inv} #K` (R114). -/
  | twid (dir : Dir) (k : Nat)
  deriving DecidableEq, Repr

end Sys2Proof
end

