-- ==== Sys2Proof/WellFormed.lean ====
section
/-! DEFINITION. Which commands the command word can hold: a bank number fits its 4-bit field (30_encoding.md rule R94)
and `K` fits its 6-bit field (R93). Whether a bank exists (`NBANKS`) and whether `K` is legal for the command are not
checks of the word; the command itself makes them (60_exceptions.md rule R201). -/

namespace Sys2Proof

/-- A bank number fits the 4-bit field of R94. -/
abbrev bankFits (b : Nat) : Prop := b < 16

/-- `K` fits the 6-bit field of R93. -/
abbrev kFits (k : Nat) : Prop := k < 64

/-- The command can be written as a command word. -/
abbrev Instr.WellFormed : Instr → Prop
  | .nop => True
  | .fft _ dst srca => bankFits dst ∧ bankFits srca
  | .czt _ dst srca => bankFits dst ∧ bankFits srca
  | .dft _ dst srca => bankFits dst ∧ bankFits srca
  | .bitrev dst srca => bankFits dst ∧ bankFits srca
  | .bfly4 _ dst srca => bankFits dst ∧ bankFits srca
  | .combine _ dst srca k => bankFits dst ∧ bankFits srca ∧ kFits k
  | .post _ dst srca => bankFits dst ∧ bankFits srca
  | .cmul dst srca srcb => bankFits dst ∧ bankFits srca ∧ bankFits srcb
  | .twid _ k => kFits k

end Sys2Proof
end

