-- ==== Sys2Proof/Decode.lean ====
section
/-! DEFINITION. The command word (30_encoding.md): its fields (rule R91), the decoder (rules R95 to R99), total on every
32-bit value, and the encoder with the assembler's form of a command (rule R100). -/

namespace Sys2Proof

/-- Why a command word is not one of the ten commands (R97, R98, R99). -/
inductive DecodeError where
  /-- `OPC` is in `0x0A..0xFF` (R98). -/
  | illegalOpcode
  /-- A listed opcode with bit 9 or a bit of 31:28 set (R97). -/
  | reservedBits
  deriving DecidableEq, Repr

/-- The field of `len` bits of `w` from bit `lo` up, read as an unsigned integer (R8). -/
def CmdWord.field (w : CmdWord) (lo len : Nat) : Nat := w.toNat / 2 ^ lo % 2 ^ len

/-- `OPC` (R91). -/
def CmdWord.opc (w : CmdWord) : Nat := w.field 0 8
/-- `DIR` (R92). -/
def CmdWord.dir (w : CmdWord) : Dir := if w.field 8 1 = 1 then .inv else .fwd
/-- `K` (R93). -/
def CmdWord.k (w : CmdWord) : Nat := w.field 10 6
/-- `DST` (R94). -/
def CmdWord.dst (w : CmdWord) : Nat := w.field 16 4
/-- `SRCA` (R94). -/
def CmdWord.srca (w : CmdWord) : Nat := w.field 20 4
/-- `SRCB` (R94). -/
def CmdWord.srcb (w : CmdWord) : Nat := w.field 24 4
/-- `RSV0` and `RSV1` are both 0 (R97). -/
def CmdWord.reservedClear (w : CmdWord) : Bool := w.field 9 1 == 0 && w.field 28 4 == 0

/-- The opcode map of R95: the command an opcode selects, with the fields that command reads. -/
def CmdWord.command? (w : CmdWord) : Option Instr :=
  match w.opc with
  | 0x00 => some .nop
  | 0x01 => some (.fft w.dir w.dst w.srca)
  | 0x02 => some (.czt w.dir w.dst w.srca)
  | 0x03 => some (.dft w.dir w.dst w.srca)
  | 0x04 => some (.bitrev w.dst w.srca)
  | 0x05 => some (.bfly4 w.dir w.dst w.srca)
  | 0x06 => some (.combine w.dir w.dst w.srca w.k)
  | 0x07 => some (.post w.dir w.dst w.srca)
  | 0x08 => some (.cmul w.dst w.srca w.srcb)
  | 0x09 => some (.twid w.dir w.k)
  | _ => none

/-- The decoder of R99. An unlisted opcode is `illegalOpcode` whatever the other bits are (R98); a listed one with a
reserved bit set is `reservedBits` (R97). -/
def decode (w : CmdWord) : Except DecodeError Instr :=
  match w.command? with
  | none => .error .illegalOpcode
  | some i => if w.reservedClear then .ok i else .error .reservedBits

/-- The bit of a direction (R92). -/
def Dir.bit : Dir → Nat
  | .fwd => 0
  | .inv => 1

/-- The word `(SRCB << 24) | (SRCA << 20) | (DST << 16) | (K << 10) | (DIR << 8) | OPC` of R100, for fields that fit. -/
def assemble (opc dir k dst srca srcb : Nat) : CmdWord :=
  BitVec.ofNat 32 (srcb * 2 ^ 24 + srca * 2 ^ 20 + dst * 2 ^ 16 + k * 2 ^ 10 + dir * 2 ^ 8 + opc)

/-- The word of a command, with 0 in every field the command does not read (R100). -/
def encode : Instr → CmdWord
  | .nop => assemble 0x00 0 0 0 0 0
  | .fft d dst srca => assemble 0x01 d.bit 0 dst srca 0
  | .czt d dst srca => assemble 0x02 d.bit 0 dst srca 0
  | .dft d dst srca => assemble 0x03 d.bit 0 dst srca 0
  | .bitrev dst srca => assemble 0x04 0 0 dst srca 0
  | .bfly4 d dst srca => assemble 0x05 d.bit 0 dst srca 0
  | .combine d dst srca k => assemble 0x06 d.bit k dst srca 0
  | .post d dst srca => assemble 0x07 d.bit 0 dst srca 0
  | .cmul dst srca srcb => assemble 0x08 0 0 dst srca srcb
  | .twid d k => assemble 0x09 d.bit k 0 0 0

/-- `.fwd` or `.inv`, as R100 writes a direction. -/
def Dir.suffix : Dir → String
  | .fwd => ".fwd"
  | .inv => ".inv"

/-- A bank as R100 writes it, `b<number>`. -/
def bankText (b : Nat) : String := "b" ++ toString b

/-- The assembler's text of a command (R100): mnemonic, direction if the command reads it, the banks in the order DST,
SRCA, SRCB, then `#K`. -/
def Instr.asm : Instr → String
  | .nop => "nop"
  | .fft d dst srca => "fft" ++ d.suffix ++ " " ++ bankText dst ++ ", " ++ bankText srca
  | .czt d dst srca => "czt" ++ d.suffix ++ " " ++ bankText dst ++ ", " ++ bankText srca
  | .dft d dst srca => "dft" ++ d.suffix ++ " " ++ bankText dst ++ ", " ++ bankText srca
  | .bitrev dst srca => "bitrev " ++ bankText dst ++ ", " ++ bankText srca
  | .bfly4 d dst srca => "bfly4" ++ d.suffix ++ " " ++ bankText dst ++ ", " ++ bankText srca
  | .combine d dst srca k =>
    "combine" ++ d.suffix ++ " " ++ bankText dst ++ ", " ++ bankText srca ++ ", #" ++ toString k
  | .post d dst srca => "post" ++ d.suffix ++ " " ++ bankText dst ++ ", " ++ bankText srca
  | .cmul dst srca srcb => "cmul " ++ bankText dst ++ ", " ++ bankText srca ++ ", " ++ bankText srcb
  | .twid d k => "twid" ++ d.suffix ++ " #" ++ toString k

/-- The command the decoder reads from an opcode-table row's word: every row is one 32-bit command word (R90), bit 0 its
least significant bit (R8), and the bits above `nbits` are 0. -/
def decodeTableWord (nbits w : Nat) : Option Instr :=
  match decode (BitVec.ofNat 32 (w % 2 ^ nbits)) with
  | .ok i => some i
  | .error _ => none

end Sys2Proof
end

