-- ==== Sys2Proof/Config.lean ====
section
/-! DEFINITION. What an implementation fixes (00_scope.md rule R6) and the values the spec leaves free. The
parameters are plain data, held in State, so that a statement about every state is a statement about every legal
parameter value. The free values are constants without a body. -/

namespace Sys2Proof

/-- Which rounding of the twiddle values the ROM holds (R6, R111, R112); CAPS bit 24 reports it (R33). -/
inductive RomVariant where
  | exact
  | piD
  deriving DecidableEq, Repr

/-- The implementation parameters of R6 that a rule of the core reads (log entry 8). `DEPTH`, `SCRATCH_DEPTH` and the `TRIG` pair
are derived from them. -/
structure Params where
  log2Depth  : Nat
  nbanks     : Nat
  tol        : F64
  romVariant : RomVariant
  trigId     : BitVec 4
  deriving DecidableEq, Repr

/-- The default parameters of R6. -/
def Params.default : Params where
  log2Depth := 16
  nbanks := 4
  tol := 0x3CC4000000000000#64
  romVariant := .exact
  trigId := 0

/-- The legal values of R6: `LOG2_DEPTH` in 2..30, `NBANKS` in 2..16, `TOL` any positive binary64 (a cleared sign bit,
not zero, not above the infinity pattern, so not a NaN). See log entry 23. -/
abbrev Params.legal (p : Params) : Prop :=
  2 ≤ p.log2Depth ∧ p.log2Depth ≤ 30 ∧ 2 ≤ p.nbanks ∧ p.nbanks ≤ 16 ∧
    0 < p.tol.toNat ∧ p.tol.toNat ≤ 0x7FF0000000000000

/-- `DEPTH = 2^LOG2_DEPTH` (R6). -/
def Params.depth (p : Params) : Nat := 2 ^ p.log2Depth

/-- `SCRATCH_DEPTH = 4*DEPTH` (R6, R45). -/
def Params.scratchDepth (p : Params) : Nat := 4 * p.depth

/-- The place of one arithmetic operation in a run: the number of the command (`State.draws`) last, and before it the
path to the operation inside the command's computation, the innermost part first. Two operations of one run never
have the same place. -/
abbrev DrawKey := List Nat

/-- FREE VALUE. The sign bit (bit 51) and the payload (bits 50..0) of the NaN that the operation at a place produces
(R14, `NAN_DRAW`; 93_implementation_defined.md I4). See log entry 4. -/
opaque Config.nanDraw : DrawKey → BitVec 52

/-- FREE VALUE. `COS` of the `TRIG` parameter named by CAPS.TRIG_ID, wherever the spec does not state its value (R182,
I5, I23). It is a function of the operand alone, as R182 assumes. See log entries 5 and 6. -/
opaque Config.trigCos : BitVec 4 → F64 → F64

/-- FREE VALUE. `SIN` of the `TRIG` parameter, as `Config.trigCos`. -/
opaque Config.trigSin : BitVec 4 → F64 → F64

/-- FREE VALUE. What a word of the chirp-z scratch holds (R45, R181, I11): the generation (`State.scratchGen`), the buffer
(0 `SA`.re, 1 `SA`.im, 2 `SB`.re, 3 `SB`.im, 4 `CT`, 5 `ST`), the index. See log entry 11. -/
opaque Config.scratchWord : Nat → Nat → Nat → F64

/-- OPEN platform parameter `CORE_BASE` (R6, R60, I20): where the device space sits in the host's address map. See log
entry 14. -/
opaque Config.coreBase : BitVec 64

/-- OPEN platform parameter `IRQ_ROUTE` (R6, R208, I21): the number of the host interrupt input the IRQ line drives. See log
entry 14. -/
opaque Config.irqRoute : Nat

end Sys2Proof
end

