-- ==== Sys2Proof/Machine/State.lean ====
section
/-! DEFINITION. The state of the core (10_state.md), as plain data: the registers and flags, the command latch, the
sample banks, the free-value counters, and the pending turns of the two agents. -/

namespace Sys2Proof.Machine

/-- The width of a bus access. Only `w64` is carried; the others are refused (20_memory.md rules R64 and R65). -/
inductive Width where
  | w8
  | w16
  | w32
  | w64
  deriving DecidableEq, Repr

/-- One host bus access, at a byte offset from the core's base (R10, R60). -/
inductive BusAccess where
  /-- A read. Its value goes to `State.rdata`. -/
  | read (width : Width) (offset : BitVec 64)
  /-- A write of `value`. A narrow write is refused, whatever it carries (log entry 15). -/
  | write (width : Width) (offset : BitVec 64) (value : Word)
  deriving DecidableEq, Repr

/-- One turn of an agent. The host chooses its accesses, the platform chooses when reset is asserted and released
(70_reset_and_hazards.md rule R230), and the delay of the Engine's step is not fixed (R240): a list of turns is one
choice of all three. -/
inductive Turn where
  /-- The Host makes one bus access (R30(a), R73). -/
  | host (a : BusAccess)
  /-- The Engine takes its step, if it is enabled (R30(b), R207). -/
  | engine
  /-- The platform asserts the reset input (R230). -/
  | resetAssert
  /-- The platform releases the reset input (R230). -/
  | resetRelease
  deriving DecidableEq, Repr

/-- The written bytes of the sample banks, by device-space offset (R60, R62, R63), addresses strictly rising. A byte
that is not listed has not been written since reset (R44): it reads as no value (log entry 9). -/
abbrev Memory := List Host.Cell

/-- The canonical form of `Memory`: addresses strictly rising. -/
abbrev Memory.wf (m : Memory) : Prop := m.Pairwise (fun x y => x.1 < y.1)

/-- Why a run stops. -/
inductive Fault where
  /-- `UNINIT_READ` (10_state.md rule R44, 60_exceptions.md rule R211): a host read of a bank word, or a command whose read
  set holds a bank word, that has not been written since reset. Raised by the bus read and by every command that reads
  a bank. Safe: the hardware goes on with unspecified bits. -/
  | uninitRead
  deriving DecidableEq, Repr

/-- Why a step has no meaning. -/
inductive Refusal where
  /-- A command with no meaning in the model yet, by its mnemonic. Raised by no arm: every command of R95 has its
  meaning. Safe: nothing is claimed of it. -/
  | notModelled (mnemonic : String)
  deriving DecidableEq, Repr

/-- The state of the core. -/
structure State where
  /-- The implementation parameters (00_scope.md rule R6): the constants behind ID, CAPS, TOL, DEPTH and the twiddle ROM. -/
  params     : Params
  /-- `CMD[31:0]` (R34). -/
  cmd        : CmdWord
  /-- `LEN[31:0]` (R35). -/
  len        : BitVec 32
  /-- `CTRL.IRQ_EN` (R36). -/
  irqEn      : Bool
  /-- `STATUS.BUSY` (R37). -/
  busy       : Bool
  /-- `STATUS.DONE` (R37). -/
  done       : Bool
  /-- `STATUS.ERR` (R37). -/
  err        : Bool
  /-- `STATUS.ACCESS_ERR` (R37). -/
  accessErr  : Bool
  /-- `STATUS.PATH` (R37): true is the chirp-z path. -/
  path       : Bool
  /-- `STATUS.ERR_CODE` (R37, R201). -/
  errCode    : BitVec 8
  /-- `ERR_INFO` (R39). -/
  errInfo    : Word
  /-- `RES_RE` (R40). -/
  resRe      : F64
  /-- `RES_IM` (R40). -/
  resIm      : F64
  /-- `CMDL`, the latched command word (R47). -/
  cmdl       : CmdWord
  /-- `LENL`, the latched length (R47). -/
  lenl       : BitVec 32
  /-- The sample banks and their INIT bits (R43, R44). -/
  mem        : Memory
  /-- MODEL FIELD. Which generation of unspecified content the chirp-z scratch holds (R45, R181; log entry 11). -/
  scratchGen : Nat
  /-- MODEL FIELD. The number of the next command, for the free NaN bits (R14; log entry 4). -/
  draws      : Nat
  /-- MODEL FIELD. The value the last completed bus read returned (log entry 3). -/
  rdata      : Word
  /-- The reset input is asserted (R230). -/
  inReset    : Bool
  /-- MODEL FIELD. The turns still to be taken, the next one first (log entry 1). -/
  turns      : List Turn
  deriving DecidableEq, Repr

/-- The core right after reset with given parameters (70_reset_and_hazards.md rules R231 and R232): every register at 0, idle, and
no bank word written. The values of the model fields are log entry 21. -/
def State.resetWith (p : Params) : State where
  params := p
  cmd := 0
  len := 0
  irqEn := false
  busy := false
  done := false
  err := false
  accessErr := false
  path := false
  errCode := 0
  errInfo := 0
  resRe := 0
  resIm := 0
  cmdl := 0
  lenl := 0
  mem := []
  scratchGen := 0
  draws := 0
  rdata := 0
  inReset := false
  turns := []

/-- The machine right after reset (R231), with the default parameters (R6). -/
def State.reset : State := State.resetWith Params.default

end Sys2Proof.Machine
end

