-- ==== Sys2Proof/Machine/Ops.lean ====
section
/-! DEFINITION. The named operations over the sample banks and over the command lifecycle: byte and word access
(20_memory.md), the operand snapshot and the bank commit, the start step, and the two ways a command ends
(60_exceptions.md rules R200 to R209). -/

namespace Sys2Proof.Machine

/-! ### Bytes and words -/

/-- The byte at an offset, if it has been written since reset. -/
def Memory.readByte : Memory → Nat → Option Byte
  | [], _ => none
  | (k, v) :: m, a => if k = a then some v else Memory.readByte m a

/-- Writes one byte, in address order. -/
def Memory.writeByte : Memory → Nat → Byte → Memory
  | [], a, b => [(a, b)]
  | (k, v) :: m, a, b =>
    if k < a then (k, v) :: Memory.writeByte m a b
    else if k = a then (a, b) :: m
    else (a, b) :: (k, v) :: m

/-- Byte lane `t` of a word: bits `8t+7 : 8t` (R63). -/
def lane (v : Word) (t : Nat) : Byte := BitVec.ofNat 8 (v.toNat / 2 ^ (8 * t))

/-- The word of eight byte lanes, lane 0 first (R63). -/
def ofLanes (b0 b1 b2 b3 b4 b5 b6 b7 : Byte) : Word :=
  BitVec.ofNat 64 (b0.toNat + 2 ^ 8 * b1.toNat + 2 ^ 16 * b2.toNat + 2 ^ 24 * b3.toNat +
    2 ^ 32 * b4.toNat + 2 ^ 40 * b5.toNat + 2 ^ 48 * b6.toNat + 2 ^ 56 * b7.toNat)

/-- The word at an offset, if its INIT bit is 1 (R44; log entry 10): all eight bytes have been written. -/
def Memory.readWord (m : Memory) (a : Nat) : Option Word :=
  match m.readByte a, m.readByte (a + 1), m.readByte (a + 2), m.readByte (a + 3),
    m.readByte (a + 4), m.readByte (a + 5), m.readByte (a + 6), m.readByte (a + 7) with
  | some b0, some b1, some b2, some b3, some b4, some b5, some b6, some b7 => some (ofLanes b0 b1 b2 b3 b4 b5 b6 b7)
  | _, _, _, _, _, _, _, _ => none

/-- Writes the byte lanes of `v` from lane `t` on, `k` of them, lane `t` at offset `a + t`. -/
def Memory.writeLanes (m : Memory) (a : Nat) (v : Word) : Nat → Nat → Memory
  | _, 0 => m
  | t, k + 1 => Memory.writeLanes (m.writeByte (a + t) (lane v t)) a v (t + 1) k

/-- Writes a word, setting its INIT bit (R44, R69). -/
def Memory.writeWord (m : Memory) (a : Nat) (v : Word) : Memory := m.writeLanes a v 0 8

/-! ### Bank elements -/

/-- The offset of the data window (R60). -/
def windowBase : Nat := 0x10000

/-- The bytes of one bank: 16 for each of its elements (R62). -/
def bankBytes (p : Params) : Nat := 16 * p.depth

/-- The end of the data window (R60). -/
def windowEnd (p : Params) : Nat := windowBase + p.nbanks * p.depth * 16

/-- The offset of `BANK[b][k].re`; `.im` is 8 above it (R62). -/
def elemOffset (p : Params) (b k : Nat) : Nat := windowBase + (b * p.depth + k) * 16

/-- The `n` elements from an offset on, if every word of them is initialised. -/
def Memory.readElems (m : Memory) (a : Nat) : Nat → Option (List Cplx)
  | 0 => some []
  | n + 1 =>
    match m.readWord a, m.readWord (a + 8), Memory.readElems m (a + 16) n with
    | some re, some im, some zs => some (⟨re, im⟩ :: zs)
    | _, _, _ => none

/-- Writes elements from an offset on. -/
def Memory.writeElems (m : Memory) (a : Nat) : List Cplx → Memory
  | [] => m
  | z :: zs => Memory.writeElems ((m.writeWord a z.re).writeWord (a + 8) z.im) (a + 16) zs

/-- The INIT bit of `BANK[b][k].re` (`im` false) or `BANK[b][k].im` (`im` true) (R44). -/
def State.initBit (s : State) (b k : Nat) (im : Bool) : Bool :=
  (s.mem.readWord (elemOffset s.params b k + if im then 8 else 0)).isSome

/-- `BANK[b][k]` (R10, R43), if both its words are initialised. -/
def State.element (s : State) (b k : Nat) : Option Cplx :=
  match s.mem.readWord (elemOffset s.params b k), s.mem.readWord (elemOffset s.params b k + 8) with
  | some re, some im => some ⟨re, im⟩
  | _, _ => none

/-- The operand snapshot: elements `0 .. n-1` of bank `b`, or none if the read set holds a word with INIT 0 (R44, R79). -/
def State.snapshot (s : State) (b n : Nat) : Option (List Cplx) :=
  s.mem.readElems (elemOffset s.params b 0) n

/-- The bank commit: writes `BANK[d][0 ..]`, setting the INIT bits (R44, R207). -/
def State.commit (s : State) (d : Nat) (zs : List Cplx) : State :=
  { s with mem := s.mem.writeElems (elemOffset s.params d 0) zs }

/-- The engine has used the chirp-z scratch: its content is unspecified anew (R45, R181). -/
def State.useScratch (s : State) (used : Bool) : State :=
  if used then { s with scratchGen := s.scratchGen + 1 } else s

/-- What the scratch holds (R45): element `k` of `SA`. Unspecified, and read by no command. -/
def State.scratchSA (s : State) (k : Nat) : Cplx :=
  ⟨Config.scratchWord s.scratchGen 0 k, Config.scratchWord s.scratchGen 1 k⟩

/-- Element `k` of `SB` (R45). -/
def State.scratchSB (s : State) (k : Nat) : Cplx :=
  ⟨Config.scratchWord s.scratchGen 2 k, Config.scratchWord s.scratchGen 3 k⟩

/-- Entry `k` of the chirp cosine table `CT` (R45). -/
def State.scratchCT (s : State) (k : Nat) : F64 := Config.scratchWord s.scratchGen 4 k

/-- Entry `k` of the chirp sine table `ST` (R45). -/
def State.scratchST (s : State) (k : Nat) : F64 := Config.scratchWord s.scratchGen 5 k

/-! ### Starting and ending a command -/

/-- The errors that end a command (R201). -/
inductive ErrorCode where
  | illegalOpcode
  | reservedBits
  | badBank
  | inputTooLarge
  | length
  | badK
  | capacity
  deriving DecidableEq, Repr

/-- The code number in `STATUS.ERR_CODE` (R201). -/
def ErrorCode.code : ErrorCode → BitVec 8
  | .illegalOpcode => 1
  | .reservedBits => 2
  | .badBank => 3
  | .inputTooLarge => 4
  | .length => 5
  | .badK => 6
  | .capacity => 7

/-- The start step's latch, with BUSY = 0 (R205): the command and length to run, the completion flags cleared. -/
def State.start (s : State) (w : CmdWord) (n : BitVec 32) : State :=
  { s with cmdl := w, lenl := n, done := false, err := false, errCode := 0, path := false, busy := true }

/-- The length of the command in flight, `LENL` (R47, R94). -/
def State.n (s : State) : Nat := s.lenl.toNat

/-- What both ends of a command do (R207): BUSY to 0, DONE to 1, PATH to the path taken (R191). The number of the next
command is the model's own (log entry 4). -/
def State.endCommand (s : State) (path : Bool) : State :=
  { s with busy := false, done := true, path := path, draws := s.draws + 1 }

/-- The completion step of a successful command (R207). -/
def succeed (path : Bool) (s : State) : Host.Outcome State Fault Refusal :=
  .next { s.endCommand path with err := false, errCode := 0 }

/-- The completion step of a failed command, the core's one exception (R200, R204): the code, and `{LENL, CMDL}` in
ERR_INFO. No bank word and no result register is written. -/
def failCommand (e : ErrorCode) (path : Bool) (s : State) : Host.Outcome State Fault Refusal :=
  .next { s.endCommand path with err := true, errCode := e.code, errInfo := s.lenl ++ s.cmdl }

/-- The return from a completion, successful or failed (R209): DONE, ERR and ERR_CODE are cleared if DONE is set (R38,
step 1). -/
def State.acknowledge (s : State) : State :=
  if s.done then { s with done := false, err := false, errCode := 0 } else s

/-- What holds when reset is released (R230 to R232): every register at its reset value, no bank word written. The parameters
are constants; the free-value counters go on, so that what was drawn before a reset says nothing about what is drawn
after it; the pending turns are the agents', not the core's. -/
def State.afterReset (s : State) : State :=
  { State.resetWith s.params with
    scratchGen := s.scratchGen + 1
    draws := s.draws + 1
    rdata := s.rdata
    turns := s.turns }

end Sys2Proof.Machine
end

