-- ==== Sys2Proof/Machine/Flags.lean ====
section
/-! DEFINITION. The flags of the core (10_state.md rules R36 to R38, R42, R49): how STATUS and CTRL read, what a write of
STATUS clears, the refused-access flag, and the interrupt level. No command sets a flag from its data. -/

namespace Sys2Proof.Machine

/-- A flag as one bit at a position of a 64-bit register. -/
def flagBit (b : Bool) (pos : Nat) : Nat := if b then 2 ^ pos else 0

/-- STATUS as it reads (R37): BUSY 0, DONE 1, ERR 2, ACCESS_ERR 3, PATH 4, ERR_CODE 15:8, the rest 0. -/
def State.statusWord (s : State) : Word :=
  BitVec.ofNat 64 (flagBit s.busy 0 + flagBit s.done 1 + flagBit s.err 2 + flagBit s.accessErr 3 + flagBit s.path 4 +
    s.errCode.toNat * 2 ^ 8)

/-- CTRL as it reads (R36): IRQ_EN in bit 1, the rest 0. -/
def State.ctrlWord (s : State) : Word := BitVec.ofNat 64 (flagBit s.irqEn 1)

/-- A write of STATUS (R38): bit 1 acknowledges DONE, then bit 3 clears ACCESS_ERR. -/
def State.writeStatus (s : State) (v : Word) : State :=
  let s₁ := if v.getLsbD 1 then s.acknowledge else s
  if v.getLsbD 3 then { s₁ with accessErr := false } else s₁

/-- A refused access sets ACCESS_ERR and changes nothing else (R206). -/
def State.refuseAccess (s : State) : State := { s with accessErr := true }

/-- The IRQ line, a level (R42, R208). -/
def State.irq (s : State) : Bool := s.irqEn && s.done

/-- What the core drives on a host interrupt input: the IRQ line, on the input the platform routes it to (R208). -/
def State.irqInput (s : State) (input : Nat) : Bool := input == Config.irqRoute && s.irq

end Sys2Proof.Machine
end

