-- ==== Sys2Proof/Machine/Float.lean ====
section
/-! DEFINITION. Binary64 arithmetic (00_scope.md rules R9, R12, R13, R14). A finite value is an exact whole number of the
smallest subnormal, `2^-1074`; each operation is computed exactly on those numbers and rounded once, by `roundMag` (log
entry 18). -/

namespace Sys2Proof.Machine

/-- The sign bit, bit 63 (R9). -/
def F64.sign (a : F64) : Bool := a.toNat / 2 ^ 63 == 1

/-- All bits but the sign. For two values that are no NaN, the magnitudes compare as these numbers do. -/
def F64.absBits (a : F64) : Nat := a.toNat % 2 ^ 63

/-- The biased exponent, bits 62:52 (R9). -/
def F64.expo (a : F64) : Nat := F64.absBits a / 2 ^ 52

/-- The fraction, bits 51:0 (R9). -/
def F64.frac (a : F64) : Nat := a.toNat % 2 ^ 52

/-- The magnitude bits of an infinity: exponent all ones, fraction 0. -/
def infBits : Nat := 0x7FF0000000000000

/-- A NaN: exponent all ones, fraction not 0. -/
def F64.isNaN (a : F64) : Bool := infBits < F64.absBits a

/-- An infinity of either sign. -/
def F64.isInf (a : F64) : Bool := F64.absBits a == infBits

/-- A zero of either sign. -/
def F64.isZero (a : F64) : Bool := F64.absBits a == 0

/-- Neither a NaN nor an infinity. -/
def F64.isFinite (a : F64) : Bool := F64.absBits a < infBits

/-- A quiet NaN: exponent all ones and bit 51 set (R14). -/
def F64.isQuietNaN (a : F64) : Bool := F64.isNaN a && 2 ^ 51 ≤ F64.frac a

/-- `2^1074`: how many units of the smallest subnormal make 1.0. -/
def unitsPerOne : Nat := 2 ^ 1074

/-- The magnitude of a finite value, in units of `2^-1074`. -/
def F64.mag (a : F64) : Nat :=
  if F64.expo a = 0 then F64.frac a else (2 ^ 52 + F64.frac a) * 2 ^ (F64.expo a - 1)

/-- A finite value, in units of `2^-1074`. -/
def F64.toUnits (a : F64) : Int := if F64.sign a then -(F64.mag a : Int) else (F64.mag a : Int)

/-- The pattern with the given sign and magnitude bits. -/
def F64.pack (neg : Bool) (bits : Nat) : F64 := BitVec.ofNat 64 ((if neg then 2 ^ 63 else 0) + bits)

/-- `num / den` to the nearest whole number, ties to the even one. -/
def roundQuot (num den : Nat) : Nat :=
  let q := num / den
  let r := num % den
  if den < 2 * r ∨ (2 * r = den ∧ q % 2 = 1) then q + 1 else q

/-- The magnitude bits of the binary64 value nearest `num / den` units, ties to even, with gradual underflow, and an
infinity on overflow (R12). `2^s` is the spacing of the representable values at that magnitude. A significand that rounds
up to the next power of two carries into the exponent bits. -/
def roundMag (num den : Nat) : Nat :=
  let s := (num / den).log2 - 52
  min infBits (s * 2 ^ 52 + roundQuot num (den * 2 ^ s))

/-- The NaN an operation produces, a NaN operand's case included: any quiet NaN, drawn for that operation (R14; log entries
4 and 22). -/
def nanAt (κ : DrawKey) : F64 :=
  let d := (Config.nanDraw κ).toNat
  F64.pack (2 ^ 51 ≤ d) (infBits + 2 ^ 51 + d % 2 ^ 51)

/-- The infinity of the given sign. -/
def F64.inf (neg : Bool) : F64 := F64.pack neg infBits

/-- `fneg` flips bit 63 (R13). -/
def fneg (a : F64) : F64 := a ^^^ 0x8000000000000000#64

/-- `fabs` clears bit 63 (R13). -/
def fabs (a : F64) : F64 := a &&& 0x7FFFFFFFFFFFFFFF#64

/-- The rounded value of an exact sum of `t` units; an exact zero takes the given sign. -/
def roundSum (zeroNeg : Bool) (t : Int) : F64 :=
  if t = 0 then F64.pack zeroNeg 0 else F64.pack (t < 0) (roundMag t.natAbs 1)

/-- `fadd` (R12). Infinities of opposite sign give a NaN. A zero sum is `-0` only if both operands have the sign bit. -/
def fadd (κ : DrawKey) (a b : F64) : F64 :=
  if F64.isNaN a || F64.isNaN b then nanAt κ
  else if F64.isInf a then
    if F64.isInf b && F64.sign a != F64.sign b then nanAt κ else F64.inf (F64.sign a)
  else if F64.isInf b then F64.inf (F64.sign b)
  else roundSum (F64.sign a && F64.sign b) (F64.toUnits a + F64.toUnits b)

/-- `fsub(a, b)` is `fadd(a, fneg(b))` bit for bit (R13). -/
def fsub (κ : DrawKey) (a b : F64) : F64 := fadd κ a (fneg b)

/-- `fmul` (R12). Zero times infinity gives a NaN. -/
def fmul (κ : DrawKey) (a b : F64) : F64 :=
  let neg := F64.sign a != F64.sign b
  if F64.isNaN a || F64.isNaN b then nanAt κ
  else if F64.isInf a || F64.isInf b then
    if F64.isZero a || F64.isZero b then nanAt κ else F64.inf neg
  else F64.pack neg (roundMag (F64.mag a * F64.mag b) unitsPerOne)

/-- `fdiv` (R12). Zero by zero and infinity by infinity give a NaN; another value by zero gives an infinity. -/
def fdiv (κ : DrawKey) (a b : F64) : F64 :=
  let neg := F64.sign a != F64.sign b
  if F64.isNaN a || F64.isNaN b then nanAt κ
  else if F64.isInf a then
    if F64.isInf b then nanAt κ else F64.inf neg
  else if F64.isInf b then F64.pack neg 0
  else if F64.isZero b then
    if F64.isZero a then nanAt κ else F64.inf neg
  else F64.pack neg (roundMag (F64.mag a * unitsPerOne) (F64.mag b))

/-- A number that orders the values that are no NaN as IEEE-754 does: the two zeros are equal (R13). -/
def F64.order (a : F64) : Int := if F64.sign a then -(F64.absBits a : Int) else (F64.absBits a : Int)

/-- `flt`, the ordered comparison `a < b`: false if either operand is a NaN (R13). -/
def flt (a b : F64) : Bool := !F64.isNaN a && !F64.isNaN b && decide (F64.order a < F64.order b)

/-- `u64_to_f64(j)`: the binary64 value of the integer `j`, exact below `2^53` (R11; log entry 19). -/
def u64ToF64 (j : Nat) : F64 := F64.pack false (roundMag (j * unitsPerOne) 1)

/-- `1.0`. -/
def F64.one : F64 := 0x3FF0000000000000#64

/-- `0.5`. -/
def F64.half : F64 := 0x3FE0000000000000#64

/-- `+0.0`. -/
def F64.zero : F64 := 0#64

end Sys2Proof.Machine
end

