-- ==== Sys2Proof/Machine/Complex.lean ====
section
/-! DEFINITION. The complex primitives and the tolerance snap (00_scope.md rules R15, R16), each in exactly the order of
evaluation the rule writes. The first argument of an operation is its place (log entry 4). -/

namespace Sys2Proof.Machine

/-- The complex value `(+0.0, +0.0)`. -/
def czero : Cplx := ⟨F64.zero, F64.zero⟩

/-- `cadd` (R15). -/
def cadd (κ : DrawKey) (a b : Cplx) : Cplx := ⟨fadd (0 :: κ) a.re b.re, fadd (1 :: κ) a.im b.im⟩

/-- `csub` (R15). -/
def csub (κ : DrawKey) (a b : Cplx) : Cplx := ⟨fsub (0 :: κ) a.re b.re, fsub (1 :: κ) a.im b.im⟩

/-- `cmul` (R15): four rounded products, then one rounded difference and one rounded sum. -/
def cmul (κ : DrawKey) (a b : Cplx) : Cplx :=
  ⟨fsub (4 :: κ) (fmul (0 :: κ) a.re b.re) (fmul (1 :: κ) a.im b.im),
   fadd (5 :: κ) (fmul (2 :: κ) a.re b.im) (fmul (3 :: κ) a.im b.re)⟩

/-- `mul_neg_i`, multiplication by `-i`, exact (R15). -/
def mulNegI (a : Cplx) : Cplx := ⟨a.im, fneg a.re⟩

/-- `mul_pos_i`, multiplication by `+i`, exact (R15). -/
def mulPosI (a : Cplx) : Cplx := ⟨fneg a.im, a.re⟩

/-- `cscale_div` (R15). -/
def cscaleDiv (κ : DrawKey) (a : Cplx) (n : Nat) : Cplx :=
  ⟨fdiv (0 :: κ) a.re (u64ToF64 n), fdiv (1 :: κ) a.im (u64ToF64 n)⟩

/-- `snap` with tolerance `tol` (R16): `+0.0` if the magnitude is below the tolerance, the value unchanged otherwise. -/
def snap (tol v : F64) : F64 := if flt (fabs v) tol then F64.zero else v

/-- `csnap` (R16): each part separately. -/
def csnap (tol : F64) (z : Cplx) : Cplx := ⟨snap tol z.re, snap tol z.im⟩

end Sys2Proof.Machine
end

