-- ==== Sys2Proof/Machine/Operands.lean ====
section
/-! DEFINITION. Operand forms: the integer helpers (00_scope.md rule R11), the argument checks of the commands in priority
order (60_exceptions.md rules R201 and R203), the frame that every bank-to-bank command shares, and element-wise
application with a place for each operation. -/

namespace Sys2Proof.Machine

/-! ### Integer helpers -/

/-- `is_pow2(n)` (R11). -/
def isPow2 (n : Nat) : Bool := n != 0 && 2 ^ n.log2 == n

/-- `hob(n)`, the highest power of two not above `n`, for `n >= 1` (R11). -/
def hob (n : Nat) : Nat := 2 ^ n.log2

/-- `rev_L(i)`, the `L`-bit reversal of `i` (R11). -/
def rev : Nat → Nat → Nat
  | 0, _ => 0
  | L + 1, i => i % 2 * 2 ^ L + rev L (i / 2)

/-! ### Element-wise application -/

/-- `f` on each element, the operation on element `i` at place `i :: κ`. -/
def mapAt {α β : Type} (κ : DrawKey) (f : DrawKey → α → β) : Nat → List α → List β
  | _, [] => []
  | i, a :: as => f (i :: κ) a :: mapAt κ f (i + 1) as

/-- `f` on each pair of elements, the operation on elements `i` at place `i :: κ`. -/
def zipAt {α β γ : Type} (κ : DrawKey) (f : DrawKey → α → β → γ) : Nat → List α → List β → List γ
  | i, a :: as, b :: bs => f (i :: κ) a b :: zipAt κ f (i + 1) as bs
  | _, _, _ => []

/-! ### Argument checks -/

/-- The place of the command in flight. -/
def State.key (s : State) : DrawKey := [s.draws]

/-- Bank `b` exists (R94). -/
def State.bankExists (s : State) (b : Nat) : Bool := b < s.params.nbanks

/-- The length fits a bank (R201, CAPACITY). -/
def State.fitsBank (s : State) : Bool := s.n ≤ s.params.depth

/-- A check a command makes: what must hold, and the error if it does not. -/
abbrev Check := Bool × ErrorCode

/-- The error of the first check that fails, in the order written, which is the priority of R203. -/
def firstError : List Check → Option ErrorCode
  | [] => none
  | (ok, e) :: cs => if ok then firstError cs else some e

/-- A command from bank `srca` to bank `dst` (R79, R207; log entry 16): its checks, then nothing for `n = 0`, then the fault of an
uninitialised read set (R44), then the result of `f` on the snapshot. `scratch` says that the engine uses the chirp-z
scratch. -/
def bankCommand (path scratch : Bool) (checks : List Check) (dst srca : Nat) (f : List Cplx → List Cplx) (s : State) :
    Host.Outcome State Fault Refusal :=
  match firstError checks with
  | some e => failCommand e path s
  | none =>
    if s.n = 0 then succeed path s
    else
      match s.snapshot srca s.n with
      | none => .fault .uninitRead
      | some x => succeed path ((s.commit dst (f x)).useScratch scratch)

end Sys2Proof.Machine
end

