-- ==== Sys2Proof/Machine/Bus.lean ====
section
/-! DEFINITION. The host bus (20_memory.md): the register map, the data window, which accesses are refused, and the host's
pseudo-instructions as lists of turns (30_encoding.md rule R101). -/

namespace Sys2Proof.Machine

/-! ### Registers -/

/-- ID (R32). -/
def idWord : Word := 0x0000000146465434#64

/-- CAPS (R33): LOG2_DEPTH 4:0, NBANKS 12:8, ROM_ENTRIES = 61 in 21:16, ROM_VARIANT 24, TRIG_ID 31:28. -/
def capsWord (p : Params) : Word :=
  BitVec.ofNat 64 (p.log2Depth % 2 ^ 5 + p.nbanks % 2 ^ 5 * 2 ^ 8 + 61 * 2 ^ 16 +
    (match p.romVariant with
      | .exact => 0
      | .piD => 2 ^ 24) + p.trigId.toNat * 2 ^ 28)

/-- The offsets of the registers (R61). -/
def offID : Nat := 0x000
def offCAPS : Nat := 0x008
def offCMD : Nat := 0x010
def offLEN : Nat := 0x018
def offCTRL : Nat := 0x020
def offSTATUS : Nat := 0x028
def offERRINFO : Nat := 0x030
def offRESRE : Nat := 0x038
def offRESIM : Nat := 0x040
def offTOL : Nat := 0x048

/-- What an aligned read of the register region returns (R61, R70); an unmapped offset reads 0 (R48). -/
def State.readRegister (s : State) (a : Nat) : Word :=
  if a = offID then idWord
  else if a = offCAPS then capsWord s.params
  else if a = offCMD then s.cmd.setWidth 64
  else if a = offLEN then s.len.setWidth 64
  else if a = offCTRL then s.ctrlWord
  else if a = offSTATUS then s.statusWord
  else if a = offERRINFO then s.errInfo
  else if a = offRESRE then s.resRe
  else if a = offRESIM then s.resIm
  else if a = offTOL then s.params.tol
  else 0

/-- A write of CTRL (R36, R205): with START = 0 it changes IRQ_EN only; with START = 1 it is refused while BUSY, and otherwise
sets IRQ_EN and then latches and starts the command in CMD and LEN. -/
def State.writeCtrl (s : State) (v : Word) : State :=
  if v.getLsbD 0 then
    if s.busy then s.refuseAccess
    else { s with irqEn := v.getLsbD 1 }.start s.cmd s.len
  else { s with irqEn := v.getLsbD 1 }

/-- An aligned write of the register region (R34, R35, R66, R67): CMD and LEN are refused while BUSY, and only their low 32
bits are kept; a read-only or unmapped offset ignores the write. -/
def State.writeRegister (s : State) (a : Nat) (v : Word) : State :=
  if a = offCMD then
    if s.busy then s.refuseAccess else { s with cmd := v.setWidth 32 }
  else if a = offLEN then
    if s.busy then s.refuseAccess else { s with len := v.setWidth 32 }
  else if a = offCTRL then s.writeCtrl v
  else if a = offSTATUS then s.writeStatus v
  else s

/-! ### The data window -/

/-- A word of the sample banks: `BANK[bank][elem].re`, or `.im` (R62). -/
structure BankWord where
  bank : Nat
  elem : Nat
  im   : Bool
  deriving DecidableEq, Repr

/-- The data window decode of R62 for an offset that is a multiple of 8: none below the window, and none where the bank
number is not below NBANKS (R71). -/
def bankWord? (p : Params) (a : Nat) : Option BankWord :=
  if a < windowBase then none
  else
    let w := (a - windowBase) / 8
    let b := w / (2 * p.depth)
    if b < p.nbanks then some ⟨b, w / 2 % p.depth, w % 2 == 1⟩ else none

/-- The offset of a bank word (R62). -/
def wordOffset (p : Params) (w : BankWord) : Nat := elemOffset p w.bank w.elem + if w.im then 8 else 0

/-! ### Accesses -/

/-- An access that is not a 64-bit access at a multiple of 8 (R65). -/
def accessMalformed (width : Width) (offset : BitVec 64) : Bool := width != .w64 || offset.toNat % 8 != 0

/-- What a completed read returns, on the bus. -/
def State.returns (s : State) (v : Word) : State := { s with rdata := v }

/-- A host read (R65 to R68, R70, R71): a refused read returns 0. -/
def busRead (width : Width) (offset : BitVec 64) (s : State) : Host.Outcome State Fault Refusal :=
  let a := offset.toNat
  if accessMalformed width offset then .next (s.refuseAccess.returns 0)
  else if a < windowBase then .next (s.returns (s.readRegister a))
  else
    match bankWord? s.params a with
    | none => .next (s.returns 0)
    | some w =>
      if s.busy then .next (s.refuseAccess.returns 0)
      else
        match s.mem.readWord (wordOffset s.params w) with
        | none => .fault .uninitRead
        | some v => .next (s.returns v)

/-- A host write (R65 to R67, R69 to R71): a refused write changes nothing but ACCESS_ERR. -/
def busWrite (width : Width) (offset : BitVec 64) (v : Word) (s : State) : State :=
  let a := offset.toNat
  if accessMalformed width offset then s.refuseAccess
  else if a < windowBase then s.writeRegister a v
  else
    match bankWord? s.params a with
    | none => s
    | some w =>
      if s.busy then s.refuseAccess
      else { s with mem := s.mem.writeWord (wordOffset s.params w) v }

/-- One host bus access. -/
def busAccess (a : BusAccess) (s : State) : Host.Outcome State Fault Refusal :=
  match a with
  | .read width offset => busRead width offset s
  | .write width offset v => .next (busWrite width offset v s)

/-- The offset of an address of the host's own map (R60): the distance from CORE_BASE. -/
def hostOffset (address : BitVec 64) : BitVec 64 := address - Config.coreBase

/-! ### Host pseudo-instructions (R101) -/

/-- `wr REG, v`, and any aligned 64-bit write. -/
def hostWr (a : Nat) (v : Word) : List Turn := [.host (.write .w64 (BitVec.ofNat 64 a) v)]

/-- `rd REG`, and any aligned 64-bit read. -/
def hostRd (a : Nat) : List Turn := [.host (.read .w64 (BitVec.ofNat 64 a))]

/-- `wrd bB[k], (re, im)`. -/
def hostWrd (p : Params) (b k : Nat) (z : Cplx) : List Turn :=
  hostWr (elemOffset p b k) z.re ++ hostWr (elemOffset p b k + 8) z.im

/-- A real-only sample: its `.im` word is `+0.0` (47_dispatch_nop.md rule R193). -/
def hostWrdReal (p : Params) (b k : Nat) (re : F64) : List Turn := hostWrd p b k ⟨re, F64.zero⟩

/-- `rdd bB[k]`, `.re` first. -/
def hostRdd (p : Params) (b k : Nat) : List Turn := hostRd (elemOffset p b k) ++ hostRd (elemOffset p b k + 8)

/-- `go`, with the host's choice of IRQ_EN. -/
def hostGo (irqEn : Bool) : List Turn := hostWr offCTRL (BitVec.ofNat 64 (1 + flagBit irqEn 1))

/-- `wait`: `polls` reads of STATUS that still find BUSY, the Engine's step, and the read that finds BUSY = 0 (log entry
20). -/
def hostWait (polls : Nat) : List Turn :=
  (List.replicate polls (hostRd offSTATUS)).flatten ++ .engine :: hostRd offSTATUS

/-- `exec <command>, n`. -/
def hostExec (w : CmdWord) (n : BitVec 32) (irqEn : Bool) (polls : Nat) : List Turn :=
  hostWr offCMD (w.setWidth 64) ++ hostWr offLEN (n.setWidth 64) ++ hostGo irqEn ++ hostWait polls

end Sys2Proof.Machine
end

