-- ==== Sys2Proof/Machine/BitReverse.lean ====
section
/-! DEFINITION. The bit-reversal permutation, BITREV (43_bit_reverse.md). -/

namespace Sys2Proof.Machine

/-- The permutation of R130: element `i` of the result is element `rev_L(i)` of the source, `L = log2(n)`; both words are
copied bit for bit. -/
def bitrevSeq (x : List Cplx) : List Cplx :=
  (List.range x.length).map fun i => x.getD (rev x.length.log2 i) czero

/-- `bitrev bD, bA` (R130). -/
def execBitrev (dst srca : Nat) (s : State) : Host.Outcome State Fault Refusal :=
  bankCommand false false
    [(s.bankExists srca && s.bankExists dst, .badBank),
     (s.n == 0 || isPow2 s.n, .length),
     (s.fitsBank, .capacity)]
    dst srca bitrevSeq s

/-! ### The incremental counter of R131

One sequencing of the permutation that R131 admits. No command uses it; it is here to be held against R130. -/

/-- The inner loop of R131 on the running index `j`, for the halvings `k = 2^(t-1), …, 1`: while `k ≤ j`, take `k` from `j`;
at the first `k > j`, add it. -/
def counterStep : Nat → Nat → Nat
  | 0, j => j
  | t + 1, j => if 2 ^ t ≤ j then counterStep t (j - 2 ^ t) else j + 2 ^ t

/-- Swaps elements `i` and `j`. -/
def swapElems (x : List Cplx) (i j : Nat) : List Cplx :=
  (x.set i (x.getD j czero)).set j (x.getD i czero)

/-- The outer loop of R131: `c` more turns, from index `i` with running index `j`, for length `2^L`. -/
def counterLoop (L : Nat) : Nat → Nat → Nat → List Cplx → List Cplx
  | 0, _, _, x => x
  | c + 1, i, j, x => counterLoop L c (i + 1) (counterStep L j) (if i < j then swapElems x i j else x)

/-- The whole loop of R131. -/
def counterBitrev (x : List Cplx) : List Cplx := counterLoop x.length.log2 x.length 0 0 x

end Sys2Proof.Machine
end

