-- ==== Sys2Proof/Machine/Rom.lean ====
section
/-! DEFINITION. The twiddle ROM (41_twiddle_rom.md rules R110 to R112): 61 constant entries, entry `i` the pair
`(ROM_RE[i], ROM_IM[i])` that stands for `exp(-2πi/2^i)`. The values are the table of R111; the `PI_D` variant changes the
entries its last column marks (log entry 7). -/

namespace Sys2Proof.Machine

/-- The `EXACT` table of R111, entries 0 to 15. -/
def romExactPart0 : List Cplx :=
  [⟨0x3FF0000000000000#64, 0x0000000000000000#64⟩,
   ⟨0xBFF0000000000000#64, 0x0000000000000000#64⟩,
   ⟨0x0000000000000000#64, 0xBFF0000000000000#64⟩,
   ⟨0x3FE6A09E667F3BCD#64, 0xBFE6A09E667F3BCD#64⟩,
   ⟨0x3FED906BCF328D46#64, 0xBFD87DE2A6AEA963#64⟩,
   ⟨0x3FEF6297CFF75CB0#64, 0xBFC8F8B83C69A60B#64⟩,
   ⟨0x3FEFD88DA3D12526#64, 0xBFB917A6BC29B42C#64⟩,
   ⟨0x3FEFF621E3796D7E#64, 0xBFA91F65F10DD814#64⟩,
   ⟨0x3FEFFD886084CD0D#64, 0xBF992155F7A3667E#64⟩,
   ⟨0x3FEFFF62169B92DB#64, 0xBF8921D1FCDEC784#64⟩,
   ⟨0x3FEFFFD8858E8A92#64, 0xBF7921F0FE670071#64⟩,
   ⟨0x3FEFFFF621621D02#64, 0xBF6921F8BECCA4BA#64⟩,
   ⟨0x3FEFFFFD88586EE6#64, 0xBF5921FAAEE6472E#64⟩,
   ⟨0x3FEFFFFF62161A34#64, 0xBF4921FB2AECB360#64⟩,
   ⟨0x3FEFFFFFD8858675#64, 0xBF3921FB49EE4EA6#64⟩,
   ⟨0x3FEFFFFFF621619C#64, 0xBF2921FB51AEB57C#64⟩]

/-- The `EXACT` table of R111, entries 16 to 31. -/
def romExactPart1 : List Cplx :=
  [⟨0x3FEFFFFFFD885867#64, 0xBF1921FB539ECF31#64⟩,
   ⟨0x3FEFFFFFFF62161A#64, 0xBF0921FB541AD59E#64⟩,
   ⟨0x3FEFFFFFFFD88586#64, 0xBEF921FB5439D73A#64⟩,
   ⟨0x3FEFFFFFFFF62162#64, 0xBEE921FB544197A1#64⟩,
   ⟨0x3FEFFFFFFFFD8858#64, 0xBED921FB544387BA#64⟩,
   ⟨0x3FEFFFFFFFFF6216#64, 0xBEC921FB544403C1#64⟩,
   ⟨0x3FEFFFFFFFFFD886#64, 0xBEB921FB544422C2#64⟩,
   ⟨0x3FEFFFFFFFFFF621#64, 0xBEA921FB54442A83#64⟩,
   ⟨0x3FEFFFFFFFFFFD88#64, 0xBE9921FB54442C73#64⟩,
   ⟨0x3FEFFFFFFFFFFF62#64, 0xBE8921FB54442CEF#64⟩,
   ⟨0x3FEFFFFFFFFFFFD9#64, 0xBE7921FB54442D0E#64⟩,
   ⟨0x3FEFFFFFFFFFFFF6#64, 0xBE6921FB54442D16#64⟩,
   ⟨0x3FEFFFFFFFFFFFFE#64, 0xBE5921FB54442D18#64⟩,
   ⟨0x3FEFFFFFFFFFFFFF#64, 0xBE4921FB54442D18#64⟩,
   ⟨0x3FF0000000000000#64, 0xBE3921FB54442D18#64⟩,
   ⟨0x3FF0000000000000#64, 0xBE2921FB54442D18#64⟩]

/-- The `EXACT` table of R111, entries 32 to 47. -/
def romExactPart2 : List Cplx :=
  [⟨0x3FF0000000000000#64, 0xBE1921FB54442D18#64⟩,
   ⟨0x3FF0000000000000#64, 0xBE0921FB54442D18#64⟩,
   ⟨0x3FF0000000000000#64, 0xBDF921FB54442D18#64⟩,
   ⟨0x3FF0000000000000#64, 0xBDE921FB54442D18#64⟩,
   ⟨0x3FF0000000000000#64, 0xBDD921FB54442D18#64⟩,
   ⟨0x3FF0000000000000#64, 0xBDC921FB54442D18#64⟩,
   ⟨0x3FF0000000000000#64, 0xBDB921FB54442D18#64⟩,
   ⟨0x3FF0000000000000#64, 0xBDA921FB54442D18#64⟩,
   ⟨0x3FF0000000000000#64, 0xBD9921FB54442D18#64⟩,
   ⟨0x3FF0000000000000#64, 0xBD8921FB54442D18#64⟩,
   ⟨0x3FF0000000000000#64, 0xBD7921FB54442D18#64⟩,
   ⟨0x3FF0000000000000#64, 0xBD6921FB54442D18#64⟩,
   ⟨0x3FF0000000000000#64, 0xBD5921FB54442D18#64⟩,
   ⟨0x3FF0000000000000#64, 0xBD4921FB54442D18#64⟩,
   ⟨0x3FF0000000000000#64, 0xBD3921FB54442D18#64⟩,
   ⟨0x3FF0000000000000#64, 0xBD2921FB54442D18#64⟩]

/-- The `EXACT` table of R111, entries 48 to 60. -/
def romExactPart3 : List Cplx :=
  [⟨0x3FF0000000000000#64, 0xBD1921FB54442D18#64⟩,
   ⟨0x3FF0000000000000#64, 0xBD0921FB54442D18#64⟩,
   ⟨0x3FF0000000000000#64, 0xBCF921FB54442D18#64⟩,
   ⟨0x3FF0000000000000#64, 0xBCE921FB54442D18#64⟩,
   ⟨0x3FF0000000000000#64, 0xBCD921FB54442D18#64⟩,
   ⟨0x3FF0000000000000#64, 0xBCC921FB54442D18#64⟩,
   ⟨0x3FF0000000000000#64, 0xBCB921FB54442D18#64⟩,
   ⟨0x3FF0000000000000#64, 0xBCA921FB54442D18#64⟩,
   ⟨0x3FF0000000000000#64, 0xBC9921FB54442D18#64⟩,
   ⟨0x3FF0000000000000#64, 0xBC8921FB54442D18#64⟩,
   ⟨0x3FF0000000000000#64, 0xBC7921FB54442D18#64⟩,
   ⟨0x3FF0000000000000#64, 0xBC6921FB54442D18#64⟩,
   ⟨0x3FF0000000000000#64, 0xBC5921FB54442D18#64⟩]

/-- The `EXACT` table of R111. -/
def romExact : List Cplx := romExactPart0 ++ romExactPart1 ++ romExactPart2 ++ romExactPart3

/-- What the `PI_D` variant holds instead (R111 last column, R112): the entry, and the part that differs. -/
def romPiDDiffs : List (Nat × Cplx) :=
  [(0, ⟨0x3FF0000000000000#64, 0x3CB1A62633145C07#64⟩),
   (1, ⟨0xBFF0000000000000#64, 0xBCA1A62633145C07#64⟩),
   (2, ⟨0x3C91A62633145C07#64, 0xBFF0000000000000#64⟩),
   (3, ⟨0x3FE6A09E667F3BCD#64, 0xBFE6A09E667F3BCC#64⟩),
   (5, ⟨0x3FEF6297CFF75CB0#64, 0xBFC8F8B83C69A60A#64⟩),
   (12, ⟨0x3FEFFFFD88586EE6#64, 0xBF5921FAAEE6472D#64⟩),
   (15, ⟨0x3FEFFFFFF621619C#64, 0xBF2921FB51AEB57B#64⟩),
   (19, ⟨0x3FEFFFFFFFF62162#64, 0xBEE921FB544197A0#64⟩),
   (27, ⟨0x3FEFFFFFFFFFFFF6#64, 0xBE6921FB54442D15#64⟩),
   (28, ⟨0x3FEFFFFFFFFFFFFE#64, 0xBE5921FB54442D17#64⟩)]

/-- ROM entry `i` of a variant. Only entries 0 to 60 exist (R110); no command reads another (R114, R145; log entry
24). -/
def romEntry (v : RomVariant) (i : Nat) : Cplx :=
  match v with
  | .exact => romExact.getD i default
  | .piD =>
    match romPiDDiffs.lookup i with
    | some z => z
    | none => romExact.getD i default

/-- The twiddle of entry `i` in a direction: the imaginary part sign-flipped for the inverse (30_encoding.md rule R92,
R114, 44_butterfly.md rule R142). -/
def twiddle (v : RomVariant) (dir : Dir) (i : Nat) : Cplx :=
  let z := romEntry v i
  match dir with
  | .fwd => z
  | .inv => ⟨z.re, fneg z.im⟩

end Sys2Proof.Machine
end

