-- ==== Sys2Proof/Machine/Butterfly.lean ====
section
/-! DEFINITION. The three arithmetic stages of the power-of-two transform: the radix-4 base case BFLY4, the combine stage
COMBINE and the post-process POST (44_butterfly.md). -/

namespace Sys2Proof.Machine

/-! ### BFLY4 -/

/-- The exact multiplication of `t3` by `-i` forward and `+i` inverse (R140). -/
def mulI (dir : Dir) (a : Cplx) : Cplx :=
  match dir with
  | .fwd => mulNegI a
  | .inv => mulPosI a

/-- The closed-form 4-point butterfly of one group (R140). -/
def bfly4Group (κ : DrawKey) (dir : Dir) (s0 s1 s2 s3 : Cplx) : List Cplx :=
  let t0 := cadd (0 :: κ) s0 s1
  let t1 := csub (1 :: κ) s0 s1
  let t2 := cadd (2 :: κ) s2 s3
  let t3 := csub (3 :: κ) s2 s3
  let u := mulI dir t3
  [cadd (4 :: κ) t0 t2, cadd (5 :: κ) t1 u, csub (6 :: κ) t0 t2, csub (7 :: κ) t1 u]

/-- The butterfly of each group of 4 contiguous elements, group `q` first (R140). -/
def bfly4Groups (κ : DrawKey) (dir : Dir) : Nat → List Cplx → List Cplx
  | q, s0 :: s1 :: s2 :: s3 :: x => bfly4Group (q :: κ) dir s0 s1 s2 s3 ++ bfly4Groups κ dir (q + 1) x
  | _, _ => []

/-- BFLY4 of a sequence (R140). -/
def bfly4Seq (κ : DrawKey) (dir : Dir) (x : List Cplx) : List Cplx := bfly4Groups κ dir 0 x

/-- `bfly4.{fwd,inv} bD, bA` (R140). -/
def execBfly4 (dir : Dir) (dst srca : Nat) (s : State) : Host.Outcome State Fault Refusal :=
  bankCommand false false
    [(s.bankExists srca && s.bankExists dst, .badBank),
     (isPow2 s.n && 4 ≤ s.n, .length),
     (s.fitsBank, .capacity)]
    dst srca (bfly4Seq s.key dir) s

/-! ### COMBINE -/

/-- The running twiddles `w_r, w_{r+1}, …`, `h` of them (R144): each is the rounded product of the one before it with
`wsub`. -/
def twiddles (κ : DrawKey) (wsub : Cplx) : Nat → Nat → Cplx → List Cplx
  | 0, _, _ => []
  | h + 1, r, w => w :: twiddles κ wsub h (r + 1) (cmul (r :: κ) w wsub)

/-- One block pair (R142): `even' = even + W·odd`, `odd' = even − W·odd`. -/
def combinePair (κ : DrawKey) (ws even odd : List Cplx) : List Cplx :=
  let ps := zipAt (0 :: κ) cmul 0 ws odd
  zipAt (1 :: κ) cadd 0 even ps ++ zipAt (2 :: κ) csub 0 even ps

/-- The block pairs of a stage, `b` of them from pair `j` on, each half of size `h` (R142). -/
def combineBlocks (κ : DrawKey) (ws : List Cplx) (h : Nat) : Nat → Nat → List Cplx → List Cplx
  | 0, _, _ => []
  | b + 1, j, d =>
    combinePair (j :: κ) ws (d.take h) ((d.drop h).take h) ++ combineBlocks κ ws h b (j + 1) (d.drop (2 * h))

/-- Stage `K` of a sequence (R142): blocks of size `2^(K-1)` merged into blocks of size `2^K`, with the twiddle of ROM entry
`K` (R143). Every pair of a stage uses the same twiddle sequence from `w_0 = (1.0, +0.0)` (R144; log entry 17). -/
def combineSeq (p : Params) (κ : DrawKey) (dir : Dir) (k : Nat) (x : List Cplx) : List Cplx :=
  let h := 2 ^ (k - 1)
  let ws := twiddles (0 :: κ) (twiddle p.romVariant dir k) h 0 ⟨F64.one, F64.zero⟩
  combineBlocks (1 :: κ) ws h (x.length / 2 ^ k) 0 x

/-- `combine.{fwd,inv} bD, bA, #K` (R142). -/
def execCombine (dir : Dir) (dst srca k : Nat) (s : State) : Host.Outcome State Fault Refusal :=
  bankCommand false false
    [(s.bankExists srca && s.bankExists dst, .badBank),
     (isPow2 s.n && 2 ≤ s.n, .length),
     (1 ≤ k && k ≤ s.n.log2, .badK),
     (s.fitsBank, .capacity)]
    dst srca (combineSeq s.params s.key dir k) s

/-! ### POST -/

/-- One element of POST (R146): divided by `n` if inverse, then snapped. -/
def postElem (p : Params) (dir : Dir) (n : Nat) (κ : DrawKey) (v : Cplx) : Cplx :=
  match dir with
  | .fwd => csnap p.tol v
  | .inv => csnap p.tol (cscaleDiv κ v n)

/-- POST of a sequence, `n` its length (R146). -/
def postSeq (p : Params) (κ : DrawKey) (dir : Dir) (x : List Cplx) : List Cplx :=
  mapAt κ (postElem p dir x.length) 0 x

/-- `post.{fwd,inv} bD, bA` (R146). Any length up to DEPTH is legal. -/
def execPost (dir : Dir) (dst srca : Nat) (s : State) : Host.Outcome State Fault Refusal :=
  bankCommand false false
    [(s.bankExists srca && s.bankExists dst, .badBank),
     (s.fitsBank, .capacity)]
    dst srca (postSeq s.params s.key dir) s

end Sys2Proof.Machine
end

