-- ==== Sys2Proof/Machine/FftEngine.lean ====
section
/-! DEFINITION. The power-of-two transform engine, FFT (45_fft_engine.md). -/

namespace Sys2Proof.Machine

/-- The inverse scaling of the length-2 transform: multiplication by 0.5 (R161). -/
def chalve (κ : DrawKey) (a : Cplx) : Cplx := ⟨fmul (0 :: κ) a.re F64.half, fmul (1 :: κ) a.im F64.half⟩

/-- `FFT_2`, the closed-form 2-point butterfly, snapped (R161). -/
def fft2 (p : Params) (κ : DrawKey) (dir : Dir) (x0 x1 : Cplx) : List Cplx :=
  let y0 := cadd (0 :: κ) x0 x1
  let y1 := csub (1 :: κ) x0 x1
  match dir with
  | .fwd => [csnap p.tol y0, csnap p.tol y1]
  | .inv => [csnap p.tol (chalve (2 :: κ) y0), csnap p.tol (chalve (3 :: κ) y1)]

/-- `c` combine stages in order, from stage `k` on (R162). -/
def combineStages (p : Params) (κ : DrawKey) (dir : Dir) : Nat → Nat → List Cplx → List Cplx
  | 0, _, d => d
  | c + 1, k, d => combineStages p κ dir c (k + 1) (combineSeq p (k :: κ) dir k d)

/-- `FFT_n` for `n = 2^L`, `L >= 2` (R162): bit reversal, the radix-4 base case, stages 3 to `L`, the post-process. -/
def fftStages (p : Params) (κ : DrawKey) (dir : Dir) (x : List Cplx) : List Cplx :=
  postSeq p (2 :: κ) dir
    (combineStages p (1 :: κ) dir (x.length.log2 - 2) 3 (bfly4Seq (0 :: κ) dir (bitrevSeq x)))

/-- `FFT_n(x, DIR)` (R161 to R163), for `n` 0, 1, 2 or a power of two: a length-1 sequence is copied with no arithmetic and no
snap. -/
def fftSeq (p : Params) (κ : DrawKey) (dir : Dir) (x : List Cplx) : List Cplx :=
  match x with
  | [] => []
  | [x0] => [x0]
  | [x0, x1] => fft2 p κ dir x0 x1
  | x0 :: x1 :: x2 :: xs => fftStages p κ dir (x0 :: x1 :: x2 :: xs)

/-- The lengths of the power-of-two path: 0, 1, 2 or a power of two (R160, R190). -/
def powLength (n : Nat) : Bool := n == 0 || isPow2 n

/-- `fft.{fwd,inv} bD, bA` (R160). -/
def execFft (dir : Dir) (dst srca : Nat) (s : State) : Host.Outcome State Fault Refusal :=
  bankCommand false false
    [(s.bankExists srca && s.bankExists dst, .badBank),
     (powLength s.n, .length),
     (s.fitsBank, .capacity)]
    dst srca (fftSeq s.params s.key dir) s

end Sys2Proof.Machine
end

