-- ==== Sys2Proof/Machine/Pointwise.lean ====
section
/-! DEFINITION. The complex pointwise multiply, CMUL (42_pointwise_multiply.md). -/

namespace Sys2Proof.Machine

/-- The element-wise product (R120). -/
def cmulSeq (κ : DrawKey) (a b : List Cplx) : List Cplx := zipAt κ cmul 0 a b

/-- `cmul bD, bA, bB` (R120). Both read sets must be initialised. No snap is applied. -/
def execCmul (dst srca srcb : Nat) (s : State) : Host.Outcome State Fault Refusal :=
  match firstError
      [(s.bankExists srca && s.bankExists srcb && s.bankExists dst, .badBank),
       (s.fitsBank, .capacity)] with
  | some e => failCommand e false s
  | none =>
    match s.snapshot srca s.n, s.snapshot srcb s.n with
    | some a, some b => succeed false (s.commit dst (cmulSeq s.key a b))
    | _, _ => .fault .uninitRead

end Sys2Proof.Machine
end

