-- ==== Sys2Proof/Machine/Trig.lean ====
section
/-! DEFINITION. The `TRIG` parameter (46_chirp_z.md rule R182): the cosine and sine of the chirp. TRIG_ID 0 is the default,
the correctly rounded pair, computed here in fixed point; every other TRIG_ID is a free function (93_implementation_defined.md I5,
I23). See log entries 5 and 6. -/

namespace Sys2Proof.Machine

/-- The whole part of `(π/2)·2^1400`, in pieces of up to 400 bits, the most significant first. -/
def halfPi : Nat :=
  0x1921FB54442D18469898CC51701B839A252049C1114CF98E804177D4C76273644A29410F31C6809BBDF2A33679A748636605 * 2 ^ 1004 +
  0x614DBE4BE286E9FC26ADADAA3848BC90B6AECC4BCFD8DE89885D34C6FDAD617FEB96DE80D6FDBDC70D7F6B5133F4B5D3E482 * 2 ^ 604 +
  0x2F8963FCC9250CCA3D9C8B67B8400F97142C77E0B31B4906C38ABA734D22C7F51FA499EBF06CABA47B9475B2C38C5E6AC410 * 2 ^ 204 +
  0xAA5773DAA520EE12D2CDACE186A9C95793009E2E8D811943042

/-- The fraction bits of `halfPi`. -/
def halfPiBits : Nat := 1400

/-- The fraction bits of the series arithmetic. -/
def trigBits : Nat := 256

/-- 1 in the series arithmetic. -/
def trigOne : Nat := 2 ^ trigBits

/-- More than the error of `cosMag` and `sinMag`, in units of `2^-256` (log entry 5). -/
def trigError : Nat := 2 ^ 16

/-- An angle of `x` units of `2^-1074`, as the nearest multiple `k` of `π/2` and the signed remainder in units of
`2^-256`. -/
def reduceAngle (x : Nat) : Nat × Int :=
  let t := x * 2 ^ (halfPiBits - 1074)
  let k := (2 * t + halfPi) / (2 * halfPi)
  (k, ((t : Int) - (k * halfPi : Nat)) / (2 ^ (halfPiBits - trigBits) : Nat))

/-- `1 - y/(1·2)·(1 - y/(3·4)·(…))`, the cosine series of a remainder of square `y`, from its term `i` on. -/
def cosSeries (y : Nat) : Nat → Nat → Nat
  | 0, _ => trigOne
  | f + 1, i => trigOne - y * cosSeries y f (i + 1) / (trigOne * ((2 * i + 1) * (2 * i + 2)))

/-- `1 - y/(2·3)·(1 - y/(4·5)·(…))`, the sine series divided by its remainder, from its term `i` on. -/
def sinSeries (y : Nat) : Nat → Nat → Nat
  | 0, _ => trigOne
  | f + 1, i => trigOne - y * sinSeries y f (i + 1) / (trigOne * ((2 * i + 2) * (2 * i + 3)))

/-- The square of a remainder. -/
def remSquare (r : Int) : Nat := r.natAbs * r.natAbs / trigOne

/-- The cosine of a remainder (not negative, as `|r| ≤ π/4`). -/
def cosMag (r : Int) : Nat := cosSeries (remSquare r) 32 0

/-- The magnitude of the sine of a remainder; its sign is the remainder's. -/
def sinMag (r : Int) : Nat := r.natAbs * sinSeries (remSquare r) 32 0 / trigOne

/-- The sign (true is negative) and magnitude of the cosine of an angle of magnitude `x`. -/
def cosParts (x : Nat) : Bool × Nat :=
  let (k, r) := reduceAngle x
  match k % 4 with
  | 0 => (false, cosMag r)
  | 1 => (decide (0 < r), sinMag r)
  | 2 => (true, cosMag r)
  | _ => (decide (r < 0), sinMag r)

/-- The sign and magnitude of the sine of an angle of magnitude `x`. -/
def sinParts (x : Nat) : Bool × Nat :=
  let (k, r) := reduceAngle x
  match k % 4 with
  | 0 => (decide (r < 0), sinMag r)
  | 1 => (false, cosMag r)
  | 2 => (decide (0 < r), sinMag r)
  | _ => (true, cosMag r)

/-- The magnitude bits of a value known to within `trigError` of `v` units of `2^-256`, if all values in that range
round alike. -/
def roundEnclosed (v : Nat) : Option Nat :=
  let lo := roundMag ((v - trigError) * unitsPerOne) trigOne
  let hi := roundMag ((v + trigError) * unitsPerOne) trigOne
  if lo = hi then some lo else none

/-- A magnitude below `2^-27`: there the cosine rounds to 1 and the sine to its operand. -/
def tinyAngle (t : F64) : Bool := F64.mag t < 2 ^ 1047

/-- The correctly rounded cosine of a finite angle; outside that, the free value of TRIG_ID 0. -/
def cosNearest (t : F64) : F64 :=
  if !F64.isFinite t then Config.trigCos 0 t
  else if tinyAngle t then F64.one
  else
    let (neg, v) := cosParts (F64.mag t)
    match roundEnclosed v with
    | some bits => F64.pack neg bits
    | none => Config.trigCos 0 t

/-- The correctly rounded sine of a finite angle, an odd function; outside that, the free value of TRIG_ID 0. -/
def sinNearest (t : F64) : F64 :=
  if !F64.isFinite t then Config.trigSin 0 t
  else if tinyAngle t then t
  else
    let (neg, v) := sinParts (F64.mag t)
    match roundEnclosed v with
    | some bits => F64.pack (neg != F64.sign t) bits
    | none => Config.trigSin 0 t

/-- `COS` of the parameter named by CAPS.TRIG_ID (R33, R182). -/
def trigCOS (p : Params) (t : F64) : F64 := if p.trigId = 0 then cosNearest t else Config.trigCos p.trigId t

/-- `SIN` of the parameter named by CAPS.TRIG_ID (R33, R182). -/
def trigSIN (p : Params) (t : F64) : F64 := if p.trigId = 0 then sinNearest t else Config.trigSin p.trigId t

end Sys2Proof.Machine
end

