-- ==== Sys2Proof/Machine/ChirpZ.lean ====
section
/-! DEFINITION. The chirp-z convolution wrapper, CZT (46_chirp_z.md). -/

namespace Sys2Proof.Machine

/-- `PI_D`, the binary64 value nearest π (R172). -/
def piD : F64 := 0x400921FB54442D18#64

/-- `th_i = (PI_D * j_i) / n` with `j_i = i*i mod 2n` (R172). -/
def chirpAngle (κ : DrawKey) (n i : Nat) : F64 :=
  fdiv (1 :: κ) (fmul (0 :: κ) piD (u64ToF64 (i * i % (2 * n)))) (u64ToF64 n)

/-- `(c_i, s_i)` as a complex value (R172). -/
def chirpEntry (p : Params) (κ : DrawKey) (n i : Nat) : Cplx :=
  let th := chirpAngle κ n i
  ⟨trigCOS p th, trigSIN p th⟩

/-- The chirp table, step 1 (R172). -/
def chirpTable (p : Params) (κ : DrawKey) (n : Nat) : List Cplx :=
  (List.range n).map fun i => chirpEntry p (i :: κ) n i

/-- The convolution length, step 2 (R173). -/
def convLength (n : Nat) : Nat := 4 * hob n

/-- `chirpmul(v, c, s) = v·(c - i·s)` (R174), `(c, s)` as a complex value. -/
def chirpmul (κ : DrawKey) (v cs : Cplx) : Cplx :=
  ⟨fadd (4 :: κ) (fmul (0 :: κ) v.re cs.re) (fmul (1 :: κ) v.im cs.im),
   fsub (5 :: κ) (fmul (2 :: κ) v.im cs.re) (fmul (3 :: κ) v.re cs.im)⟩

/-- The pre-chirped input `a` of length `m`, step 3 (R174). -/
def preChirp (κ : DrawKey) (m : Nat) (x t : List Cplx) : List Cplx :=
  zipAt κ chirpmul 0 x t ++ List.replicate (m - x.length) czero

/-- The kernel `b` of length `m`, step 4 (R175): `b_i = b_{m-i} = (c_i, s_i)`, zero elsewhere. -/
def chirpKernel (m n : Nat) (t : List Cplx) : List Cplx :=
  (List.range m).map fun i =>
    if i < n then t.getD i czero else if m - i < n then t.getD (m - i) czero else czero

/-- The cyclic convolution by three full transforms of length `m`, step 5 (R176). -/
def convolve (p : Params) (κ : DrawKey) (a b : List Cplx) : List Cplx :=
  fftSeq p (3 :: κ) .inv
    (cmulSeq (2 :: κ) (fftSeq p (0 :: κ) .fwd a) (fftSeq p (1 :: κ) .fwd b))

/-- The un-chirp and snap, step 6 (R177). The elements past the table's length are discarded. -/
def unChirp (p : Params) (κ : DrawKey) (c t : List Cplx) : List Cplx :=
  zipAt κ (fun κ' v cs => csnap p.tol (chirpmul κ' v cs)) 0 c t

/-- `CZT_fwd(x)` for `n >= 1` (R178). -/
def cztFwd (p : Params) (κ : DrawKey) (x : List Cplx) : List Cplx :=
  let n := x.length
  let m := convLength n
  let t := chirpTable p (0 :: κ) n
  unChirp p (3 :: κ) (convolve p (2 :: κ) (preChirp (1 :: κ) m x t) (chirpKernel m n t)) t

/-- The mirror and scale of the inverse (R179): element `j` from `y[(n - j) mod n]`, divided by `n`, snapped. -/
def mirrorScale (p : Params) (κ : DrawKey) (n : Nat) (y : List Cplx) : List Cplx :=
  mapAt κ (fun κ' j => csnap p.tol (cscaleDiv κ' (y.getD ((n - j) % n) czero) n)) 0 (List.range n)

/-- `CZT_inv(x)` for `n >= 1` (R179). -/
def cztInv (p : Params) (κ : DrawKey) (x : List Cplx) : List Cplx :=
  mirrorScale p (1 :: κ) x.length (cztFwd p (0 :: κ) x)

/-- The chirp-z transform in a direction (R170). -/
def cztSeq (p : Params) (κ : DrawKey) (dir : Dir) (x : List Cplx) : List Cplx :=
  match dir with
  | .fwd => cztFwd p κ x
  | .inv => cztInv p κ x

/-- `CZT_LIMIT`, the smallest chirp-z length refused with INPUT_TOO_LARGE (00_scope.md rule R6, R171). -/
def cztLimit : Nat := 2 ^ 29

/-- `czt.{fwd,inv} bD, bA` (R170). Every length below the limit is legal, a power of two included. -/
def execCzt (dir : Dir) (dst srca : Nat) (s : State) : Host.Outcome State Fault Refusal :=
  bankCommand false true
    [(s.bankExists srca && s.bankExists dst, .badBank),
     (decide (s.n < cztLimit), .inputTooLarge),
     (s.fitsBank, .capacity)]
    dst srca (cztSeq s.params s.key dir) s

end Sys2Proof.Machine
end

