-- ==== Sys2Proof/Machine/LengthDispatch.lean ====
section
/-! DEFINITION. The public entry dispatch DFT and the no-operation NOP (47_dispatch_nop.md). -/

namespace Sys2Proof.Machine

/-- The transform of any length below the limit, by the path its length takes (R190). -/
def dftSeq (p : Params) (κ : DrawKey) (dir : Dir) (x : List Cplx) : List Cplx :=
  if powLength x.length then fftSeq p κ dir x else cztSeq p κ dir x

/-- `dft.{fwd,inv} bD, bA` (R190). PATH is the path chosen, on success and on every error after the BAD_BANK check (R191);
a BAD_BANK leaves it 0. -/
def execDft (dir : Dir) (dst srca : Nat) (s : State) : Host.Outcome State Fault Refusal :=
  let banksOk := s.bankExists srca && s.bankExists dst
  let chirp := !powLength s.n
  bankCommand (banksOk && chirp) chirp
    [(banksOk, .badBank),
     (!chirp || decide (s.n < cztLimit), .inputTooLarge),
     (s.fitsBank, .capacity)]
    dst srca (dftSeq s.params s.key dir) s

/-- `nop` (R192): only the completion step. -/
def execNop (s : State) : Host.Outcome State Fault Refusal := succeed false s

end Sys2Proof.Machine
end

