-- ==== Sys2Proof/Machine/Twiddle.lean ====
section
/-! DEFINITION. TWID, the read-out of the twiddle ROM (41_twiddle_rom.md rule R114). -/

namespace Sys2Proof.Machine

/-- The result registers of TWID (R40, R114). -/
def State.writeResult (s : State) (z : Cplx) : State := { s with resRe := z.re, resIm := z.im }

/-- `twid.{fwd,inv} #K` (R114). LEN and the banks are not looked at. -/
def execTwid (dir : Dir) (k : Nat) (s : State) : Host.Outcome State Fault Refusal :=
  match firstError [(decide (k ≤ 60), .badK)] with
  | some e => failCommand e false s
  | none => succeed false (s.writeResult (twiddle s.params.romVariant dir k))

end Sys2Proof.Machine
end

