-- ==== Sys2Proof/Machine/Dispatch.lean ====
section
/-! DEFINITION. What each command does, one arm per constructor. -/

namespace Sys2Proof.Machine

/-- The completion step of a decoded command (60_exceptions.md rule R207; log entry 13). -/
def exec (i : Instr) (s : State) : Host.Outcome State Fault Refusal :=
  match i with
  | .nop => Sys2Proof.Machine.execNop s
  | .fft dir dst srca => Sys2Proof.Machine.execFft dir dst srca s
  | .czt dir dst srca => Sys2Proof.Machine.execCzt dir dst srca s
  | .dft dir dst srca => Sys2Proof.Machine.execDft dir dst srca s
  | .bitrev dst srca => Sys2Proof.Machine.execBitrev dst srca s
  | .bfly4 dir dst srca => Sys2Proof.Machine.execBfly4 dir dst srca s
  | .combine dir dst srca k => Sys2Proof.Machine.execCombine dir dst srca k s
  | .post dir dst srca => Sys2Proof.Machine.execPost dir dst srca s
  | .cmul dst srca srcb => Sys2Proof.Machine.execCmul dst srca srcb s
  | .twid dir k => Sys2Proof.Machine.execTwid dir k s

end Sys2Proof.Machine
end

