-- ==== Sys2Proof/Machine/Engine.lean ====
section
/-! DEFINITION. The turns of the agents: the Engine's completion step (60_exceptions.md rule R207), the Host's access, and
the reset input (70_reset_and_hazards.md rule R230). -/

namespace Sys2Proof.Machine

/-- The completion step of the latched command (R207): the decode errors first, then the command's rule. -/
def completionStep (s : State) : Host.Outcome State Fault Refusal :=
  match decode s.cmdl with
  | .error .illegalOpcode => failCommand .illegalOpcode false s
  | .error .reservedBits => failCommand .reservedBits false s
  | .ok i => exec i s

/-- The Engine's step is enabled exactly when BUSY = 1 (R207), and not while reset is asserted (R230). -/
def State.engineEnabled (s : State) : Bool := s.busy && !s.inReset

/-- The Engine's turn; a turn in which its step is not enabled changes nothing. -/
def engineTurn (s : State) : Host.Outcome State Fault Refusal :=
  if s.engineEnabled then completionStep s else .next s

/-- The Host's turn. While reset is asserted no bus access completes (R230; log entry 12). -/
def hostTurn (a : BusAccess) (s : State) : Host.Outcome State Fault Refusal :=
  if s.inReset then .next s else busAccess a s

/-- Reset is asserted: the command in flight is abandoned and the registers are reset (R230). -/
def assertReset (s : State) : State := { s.afterReset with inReset := true }

/-- Reset is released, if it was asserted: every piece of state has its reset value (R230). -/
def releaseReset (s : State) : State := if s.inReset then s.afterReset else s

/-- One turn of an agent. -/
def takeTurn (t : Turn) (s : State) : Host.Outcome State Fault Refusal :=
  match t with
  | .host a => hostTurn a s
  | .engine => engineTurn s
  | .resetAssert => .next (assertReset s)
  | .resetRelease => .next (releaseReset s)

end Sys2Proof.Machine
end

