-- ==== Sys2Proof/Machine/Step.lean ====
section
/-! DEFINITION. One step of the machine: the next pending turn. With no pending turn the host is silent, and a command in
flight completes (the weak fairness of 70_reset_and_hazards.md rule R240); an idle core stays as it is (60_exceptions.md rule R216). -/

namespace Sys2Proof.Machine

/-- One step (log entry 1). -/
def step (s : State) : Host.Outcome State Fault Refusal :=
  match s.turns with
  | [] => engineTurn s
  | t :: ts => takeTurn t { s with turns := ts }

/-- The state in which the very next step runs the command word `w`: the word is latched as by a START, with the length
that is in the latch, and no other turn comes first (log entry 2). -/
def State.withFetchWord (s : State) (nbits w : Nat) : State :=
  { s.start (BitVec.ofNat 32 (w % 2 ^ nbits)) s.lenl with
    inReset := false
    turns := [] }

end Sys2Proof.Machine
end

