-- ==== Sys2Proof/Safety.lean ====
section
/-! DEFINITION. What counts as a safe run, and the terms that claims about the core use: the invariant of the reachable
states, which errors apply to a command, and what a completed command leaves unchanged. -/

namespace Sys2Proof.Machine

/-! ### Safe runs -/

/-- `k` steps from `s` end in a state: no UNINIT_READ (60_exceptions.md rule R211) stops them. -/
def SafeRun (k : Nat) (s : State) : Prop := ∃ t, Host.Core.run Sys2Proof.core k s = .next t

/-! ### The invariant -/

/-- The written bytes lie in the data window (20_memory.md rule R60), and the bytes of a word are written together (R64):
an aligned word has all its bytes or none. -/
def State.memoryWhole (s : State) : Prop :=
  ∀ a, (s.mem.readByte a).isSome →
    windowBase ≤ a ∧ a < windowEnd s.params ∧ ∀ t < 8, (s.mem.readByte (a / 8 * 8 + t)).isSome

/-- The completion flags agree with each other (10_state.md rules R37, R38, R49): nothing is completed while a command is in
flight; ERR and ERR_CODE are cleared whenever DONE is; ERR_CODE is 0 without ERR and one of the seven codes of
60_exceptions.md rule R201 with it. -/
def State.flagsAgree (s : State) : Prop :=
  (s.busy = true → s.done = false) ∧ (s.done = false → s.err = false) ∧ (s.err = false → s.errCode = 0) ∧
    (s.err = true → ∃ e : ErrorCode, s.errCode = e.code)

/-- While reset is asserted the core is reset: idle, and no bank word written (70_reset_and_hazards.md rules R230 to R232). -/
def State.resetQuiet (s : State) : Prop :=
  s.inReset = true → s.busy = false ∧ s.done = false ∧ s.mem = []

/-- What every step keeps. -/
structure State.Inv (s : State) : Prop where
  params : s.params.legal
  canonical : s.mem.wf
  whole : s.memoryWhole
  flags : s.flagsAgree
  quiet : s.resetQuiet

/-! ### What a command reads and which errors apply -/

/-- `n` is a power of two (00_scope.md rule R11). -/
def IsPow2 (n : Nat) : Prop := ∃ e, n = 2 ^ e

/-- The banks a command reads (30_encoding.md rule R95). -/
def readBanks : Instr → List Nat
  | .nop => []
  | .fft _ _ srca => [srca]
  | .czt _ _ srca => [srca]
  | .dft _ _ srca => [srca]
  | .bitrev _ srca => [srca]
  | .bfly4 _ _ srca => [srca]
  | .combine _ _ srca _ => [srca]
  | .post _ _ srca => [srca]
  | .cmul _ srca srcb => [srca, srcb]
  | .twid _ _ => []

/-- The bank a command writes (R95). -/
def writeBank? : Instr → Option Nat
  | .nop => none
  | .fft _ dst _ => some dst
  | .czt _ dst _ => some dst
  | .dft _ dst _ => some dst
  | .bitrev dst _ => some dst
  | .bfly4 _ dst _ => some dst
  | .combine _ dst _ _ => some dst
  | .post _ dst _ => some dst
  | .cmul dst _ _ => some dst
  | .twid _ _ => none

/-- A DFT whose bank fields pass the BAD_BANK check and whose length takes the chirp-z path (47_dispatch_nop.md rule
R191). -/
def chirpDft (s : State) : Instr → Prop
  | .dft _ dst srca => dst < s.params.nbanks ∧ srca < s.params.nbanks ∧ s.n ≠ 0 ∧ ¬ IsPow2 s.n
  | _ => False

/-- The command takes the chirp-z engine at this length (R171, R191). -/
def chirpLength (n : Nat) : Instr → Prop
  | .czt _ _ _ => True
  | .dft _ _ _ => n ≠ 0 ∧ ¬ IsPow2 n
  | _ => False

/-- A length the command cannot take (60_exceptions.md rule R201, code 5). -/
def badLength (n : Nat) : Instr → Prop
  | .fft _ _ _ => n ≠ 0 ∧ ¬ IsPow2 n
  | .bitrev _ _ => n ≠ 0 ∧ ¬ IsPow2 n
  | .bfly4 _ _ _ => ¬ (IsPow2 n ∧ 4 ≤ n)
  | .combine _ _ _ _ => ¬ (IsPow2 n ∧ 2 ≤ n)
  | _ => False

/-- A `K` the command cannot take (R201, code 6). `K > log2(n)` is `n < 2^K`. -/
def badK (n : Nat) : Instr → Prop
  | .combine _ _ _ k => k < 1 ∨ n < 2 ^ k
  | .twid _ k => 60 < k
  | _ => False

/-- The cause column of the table of R201, for a decoded command. -/
def commandError (s : State) (i : Instr) : ErrorCode → Prop
  | .illegalOpcode => False
  | .reservedBits => False
  | .badBank => ∃ b ∈ readBanks i ++ (writeBank? i).toList, s.params.nbanks ≤ b
  | .inputTooLarge => chirpLength s.n i ∧ 2 ^ 29 ≤ s.n
  | .length => badLength s.n i
  | .badK => badK s.n i
  | .capacity => (writeBank? i).isSome ∧ s.params.depth < s.n

/-- The cause column of the table of R201, for the latched word. -/
def latchedError (s : State) (e : ErrorCode) : Prop :=
  match e with
  | .illegalOpcode => 0x0A ≤ (s.cmdl.extractLsb' 0 8).toNat
  | .reservedBits =>
    (s.cmdl.extractLsb' 0 8).toNat < 0x0A ∧ (s.cmdl.getLsbD 9 = true ∨ s.cmdl.extractLsb' 28 4 ≠ 0#4)
  | e => ∃ i, s.cmdl.command? = some i ∧ commandError s i e

/-! ### What a completed command leaves unchanged -/

/-- `t` is `s` after a successful completion step, but for the bank words: BUSY, DONE, ERR, ERR_CODE and PATH as R207 sets
them, the model's counters advanced, every other register as before. -/
def CompletedFrom (s t : State) (path scratch : Bool) : Prop :=
  t = { s with
    busy := false
    done := true
    err := false
    errCode := 0
    path := path
    draws := s.draws + 1
    scratchGen := if scratch then s.scratchGen + 1 else s.scratchGen
    mem := t.mem }

/-- `t` is `s` after a failed completion step with error `e` (R204): BUSY, DONE, ERR, ERR_CODE, ERR_INFO and PATH set, and
nothing else of the core's changed. -/
def FailedFrom (s t : State) (e : ErrorCode) (path : Bool) : Prop :=
  t = { s with
    busy := false
    done := true
    err := true
    errCode := e.code
    errInfo := s.lenl ++ s.cmdl
    path := path
    draws := s.draws + 1 }

/-- Every byte but those of elements `0 .. n-1` of bank `d` is as before (10_state.md rule R43). -/
def OnlyElementsWritten (s t : State) (d n : Nat) : Prop :=
  ∀ a, a < elemOffset s.params d 0 ∨ elemOffset s.params d 0 + 16 * n ≤ a → t.mem.readByte a = s.mem.readByte a

/-! ### Complex operations, whatever NaN bits are drawn -/

/-- `z` is `cadd(a, b)` (00_scope.md rule R15). -/
def IsCadd (z a b : Cplx) : Prop := ∃ κ κ', z = ⟨fadd κ a.re b.re, fadd κ' a.im b.im⟩

/-- `z` is `csub(a, b)` (R15). -/
def IsCsub (z a b : Cplx) : Prop := ∃ κ κ', z = ⟨fsub κ a.re b.re, fsub κ' a.im b.im⟩

/-- `z` is `cmul(a, b)` (R15). -/
def IsCmul (z a b : Cplx) : Prop :=
  ∃ κ : Nat → DrawKey,
    z = ⟨fsub (κ 4) (fmul (κ 0) a.re b.re) (fmul (κ 1) a.im b.im),
         fadd (κ 5) (fmul (κ 2) a.re b.im) (fmul (κ 3) a.im b.re)⟩

/-- `z` is `chirpmul(v, c, s)` (46_chirp_z.md rule R174). -/
def IsChirpmul (z v cs : Cplx) : Prop :=
  ∃ κ : Nat → DrawKey,
    z = ⟨fadd (κ 4) (fmul (κ 0) v.re cs.re) (fmul (κ 1) v.im cs.im),
         fsub (κ 5) (fmul (κ 2) v.im cs.re) (fmul (κ 3) v.re cs.im)⟩

/-- `z` is `cscale_div(a, n)` (R15). -/
def IsCscaleDiv (z a : Cplx) (n : Nat) : Prop :=
  ∃ κ κ', z = ⟨fdiv κ a.re (u64ToF64 n), fdiv κ' a.im (u64ToF64 n)⟩

/-- The least magnitude that rounds to an infinity, in units of `2^-1074` (00_scope.md rule R12): halfway from the largest
finite value, `(2^53 - 1) * 2^971`, to `2^1024`, which is the tie that goes to the even significand. -/
@[irreducible] def overflowUnits : Nat := (2 ^ 54 - 1) * 2 ^ 2044

/-- Neither part is a NaN. -/
def NoNaN (z : Cplx) : Prop := F64.isNaN z.re = false ∧ F64.isNaN z.im = false

/-! ### Runs of commands -/

/-- The commands in order, each started with the length in the latch and then completed (60_exceptions.md rules R205 and
R207). -/
def runCommands : List Instr → State → Host.Outcome State Fault Refusal
  | [], s => .next s
  | i :: is, s =>
    match exec i (s.start (encode i) s.lenl) with
    | .next t => runCommands is t
    | .fault f => .fault f
    | .refused r => .refused r

/-- The stage sequence of 45_fft_engine.md rule R165, for length `2^L`. -/
def stageSequence (dir : Dir) (dst srca L : Nat) : List Instr :=
  [.bitrev dst srca, .bfly4 dir dst dst] ++ (List.range' 3 (L - 2)).map (Instr.combine dir dst dst) ++
    [.post dir dst dst]

/-- A command with another destination bank. -/
def withDst (d : Nat) : Instr → Instr
  | .nop => .nop
  | .fft dir _ srca => .fft dir d srca
  | .czt dir _ srca => .czt dir d srca
  | .dft dir _ srca => .dft dir d srca
  | .bitrev _ srca => .bitrev d srca
  | .bfly4 dir _ srca => .bfly4 dir d srca
  | .combine dir _ srca k => .combine dir d srca k
  | .post dir _ srca => .post dir d srca
  | .cmul _ srca srcb => .cmul d srca srcb
  | .twid dir k => .twid dir k

/-- The bits of the command word that the command of an opcode reads, its opcode and the reserved bits (30_encoding.md
rules R91, R95 to R97). -/
def readMask (opc : Nat) : CmdWord :=
  match opc with
  | 0x00 => 0xF00002FF#32
  | 0x04 => 0xF0FF02FF#32
  | 0x06 => 0xF0FFFFFF#32
  | 0x08 => 0xFFFF02FF#32
  | 0x09 => 0xF000FFFF#32
  | _ => 0xF0FF03FF#32

/-! ### Bank contents -/

/-- The elements `0 .. n-1` of bank `b` are `x 0 .. x (n-1)`, every word of them initialised. -/
def BankHolds (s : State) (b n : Nat) (x : Nat → Cplx) : Prop := ∀ k < n, s.element b k = some (x k)

end Sys2Proof.Machine
end

