-- ==== Sys2Proof/Certificates/Slice0/Obligations.lean ====
section
/-! DEFINITION. The statements for the provers, each from the numbered rules its docstring names. A statement that a step
answers a next state has hypotheses on the state and the operands alone. A draw `κ` names which NaN bits an operation
takes, if it produces a NaN (00_scope.md rule R14): no statement rests on what those bits are. -/

open Sys2Proof Sys2Proof.Machine

/-! ### The command word -/

/-- R95, R100: decoding the word of a command gives the command back, with every field at every value it can hold. -/
def Obligations.DecodeEncodeRoundTrip : Prop :=
  ∀ i : Instr, i.WellFormed → decode (encode i) = .ok i

/-- R99: every 32-bit value is one of the ten commands, a RESERVED_BITS error, or an ILLEGAL_OPCODE error, as its opcode
and reserved bits say, and the command it is can be written as a word. -/
def Obligations.EveryWordHasOneDecoding : Prop :=
  ∀ w : CmdWord,
    (decode w = .error .illegalOpcode ↔ 0x0A ≤ (w.extractLsb' 0 8).toNat) ∧
    (decode w = .error .reservedBits ↔
      (w.extractLsb' 0 8).toNat < 0x0A ∧ (w.getLsbD 9 = true ∨ w.extractLsb' 28 4 ≠ 0#4)) ∧
    ((∃ i, decode w = .ok i ∧ i.WellFormed) ↔
      (w.extractLsb' 0 8).toNat < 0x0A ∧ w.getLsbD 9 = false ∧ w.extractLsb' 28 4 = 0#4)

/-- R96: two words that agree on the opcode, the reserved bits and the fields their command reads decode alike, and
LEN changes neither NOP nor a legal TWID. -/
def Obligations.FieldsNotReadDoNotMatter : Prop :=
  (∀ w w' : CmdWord, w' &&& readMask w.opc = w &&& readMask w.opc → decode w' = decode w) ∧
  (∀ (s t : State) (n : BitVec 32), exec .nop s = .next t → exec .nop { s with lenl := n } = .next { t with lenl := n }) ∧
  (∀ (dir : Dir) (k : Nat) (s t : State) (n : BitVec 32), k ≤ 60 → exec (.twid dir k) s = .next t →
    exec (.twid dir k) { s with lenl := n } = .next { t with lenl := n })

/-- R100: the worked encodings, read by the decoder. -/
def Obligations.WorkedEncodingsDecode : Prop :=
  decode 0x00010001#32 = .ok (.fft .fwd 1 0) ∧ decode 0x00110101#32 = .ok (.fft .inv 1 1) ∧
  decode 0x00000C06#32 = .ok (.combine .fwd 0 0 3) ∧ decode 0x01020008#32 = .ok (.cmul 2 0 1) ∧
  decode 0x00001509#32 = .ok (.twid .inv 5) ∧ decode 0x00230002#32 = .ok (.czt .fwd 3 2)

/-! ### The completion step -/

/-- R30, R73, R207: a step is the next agent's. The Engine's step, when it is enabled, runs the command the latched word
decodes to, with no turn pending or with the Engine's turn next; a host turn makes its bus access; a turn of the reset
input asserts or releases reset; and where the agent has no step (the Engine not enabled, R216, R234; the Host while reset is
asserted, R230) only the turn is gone. The state withFetchWord makes runs its word. The turns and withFetchWord are the
model's (log entries 1, 2 and 12). -/
def Obligations.StepRunsTheLatchedCommand : Prop :=
  (∀ (s : State) (i : Instr), s.busy = true → s.inReset = false → decode s.cmdl = .ok i →
    (s.turns = [] → step s = exec i s) ∧
    (∀ ts, s.turns = .engine :: ts → step s = exec i { s with turns := ts })) ∧
  (∀ (s : State) (a : BusAccess) (ts : List Turn), s.turns = .host a :: ts →
    (s.inReset = false → step s = busAccess a { s with turns := ts }) ∧
    (s.inReset = true → step s = .next { s with turns := ts })) ∧
  (∀ s : State, s.busy = false ∨ s.inReset = true →
    (s.turns = [] → step s = .next s) ∧
    (∀ ts, s.turns = .engine :: ts → step s = .next { s with turns := ts })) ∧
  (∀ (s : State) (ts : List Turn),
    (s.turns = .resetAssert :: ts → step s = takeTurn .resetAssert { s with turns := ts }) ∧
    (s.turns = .resetRelease :: ts → step s = takeTurn .resetRelease { s with turns := ts })) ∧
  (∀ (s : State) (w : CmdWord) (i : Instr), decode w = .ok i →
    (s.withFetchWord 32 w.toNat).cmdl = w ∧
    step (s.withFetchWord 32 w.toNat) = exec i (s.withFetchWord 32 w.toNat))

/-- R97, R98, R204: a word that is no command ends its command with ILLEGAL_OPCODE or RESERVED_BITS and writes nothing
else. -/
def Obligations.UndecodableCommandFails : Prop :=
  ∀ s : State, s.busy = true → s.inReset = false → s.turns = [] →
    (0x0A ≤ (s.cmdl.extractLsb' 0 8).toNat → ∃ t, step s = .next t ∧ FailedFrom s t .illegalOpcode false) ∧
    ((s.cmdl.extractLsb' 0 8).toNat < 0x0A → (s.cmdl.getLsbD 9 = true ∨ s.cmdl.extractLsb' 28 4 ≠ 0#4) →
      ∃ t, step s = .next t ∧ FailedFrom s t .reservedBits false)

/-- R203: the completion step reports the first error that applies, in the order of the codes; it faults or succeeds only
if none applies. -/
def Obligations.FirstErrorIsReported : Prop :=
  (∀ (s : State) (e : ErrorCode), latchedError s e →
    (∀ e' : ErrorCode, e'.code.toNat < e.code.toNat → ¬ latchedError s e') →
    ∃ t, completionStep s = .next t ∧ t.err = true ∧ t.errCode = e.code) ∧
  (∀ s : State, (∀ e, ¬ latchedError s e) →
    completionStep s = .fault .uninitRead ∨ ∃ t, completionStep s = .next t ∧ t.err = false)

/-- R204: what a failed command records, and that it writes no bank word, no INIT bit and no result register. The draw counter
is the model's (log entry 4). -/
def Obligations.FailedCommandRecordsOnlyItsError : Prop :=
  ∀ s t : State, completionStep s = .next t → t.err = true →
    ∃ e : ErrorCode, latchedError s e ∧ FailedFrom s t e t.path ∧
      (t.path = true ↔ ∃ i, decode s.cmdl = .ok i ∧ chirpDft s i)

/-- R191: PATH is 1 exactly after a DFT whose banks exist and whose length takes the chirp-z path, on success or failure;
INPUT_TOO_LARGE is raised only on the chirp-z path, there at every length of `2^29` or more; a power of two above DEPTH is
CAPACITY. -/
def Obligations.PathReportsTheRoute : Prop :=
  ∀ s t : State, completionStep s = .next t →
    (t.path = true ↔ ∃ i, decode s.cmdl = .ok i ∧ chirpDft s i) ∧
    (t.err = true → t.errCode = 4 → ∃ i, decode s.cmdl = .ok i ∧ chirpLength s.n i ∧ 2 ^ 29 ≤ s.n) ∧
    (∀ dir dst srca, decode s.cmdl = .ok (.dft dir dst srca) → dst < s.params.nbanks → srca < s.params.nbanks →
      (¬ IsPow2 s.n → 2 ^ 29 ≤ s.n → t.err = true ∧ t.errCode = 4) ∧
      (IsPow2 s.n → s.params.depth < s.n → t.err = true ∧ t.errCode = 7))

/-- R39: ERR_INFO. -/
def Obligations.ErrInfoHoldsTheFailedCall : Prop :=
  State.reset.errInfo = 0 ∧
  (∀ s t : State, completionStep s = .next t →
    (t.err = true → t.errInfo.extractLsb' 0 32 = s.cmdl ∧ t.errInfo.extractLsb' 32 32 = s.lenl) ∧
    (t.err = false → t.errInfo = s.errInfo)) ∧
  (∀ (s : State) (v : Word), busRead .w64 0x030#64 s = .next { s with rdata := s.errInfo } ∧
    busWrite .w64 0x030#64 v s = s)

/-- R40: RES_RE and RES_IM are written by a successful TWID alone. -/
def Obligations.OnlyTwidWritesTheResultRegisters : Prop :=
  State.reset.resRe = 0 ∧ State.reset.resIm = 0 ∧
  (∀ s t : State, completionStep s = .next t → (t.resRe ≠ s.resRe ∨ t.resIm ≠ s.resIm) →
    t.err = false ∧ ∃ dir k, decode s.cmdl = .ok (.twid dir k)) ∧
  (∀ (s t : State) (a : BusAccess), busAccess a s = .next t → t.resRe = s.resRe ∧ t.resIm = s.resIm)

/-- R44: the INIT bits. Reset clears them; a host read of a word with INIT 0 faults; a command faults exactly if no error
applies and a word of its read set has INIT 0; a host write and a command's write set them. -/
def Obligations.UninitialisedReadsFault : Prop :=
  (∀ b k im, State.reset.initBit b k im = false) ∧
  (∀ (s : State) (b k : Nat) (im : Bool), s.params.legal → s.busy = false → b < s.params.nbanks → k < s.params.depth →
    s.initBit b k im = false →
    busRead .w64 (BitVec.ofNat 64 (elemOffset s.params b k + if im then 8 else 0)) s = .fault .uninitRead) ∧
  (∀ (s : State) (i : Instr), exec i s = .fault .uninitRead ↔
    (∀ e, ¬ commandError s i e) ∧ ∃ b ∈ readBanks i, ∃ k < s.n, ∃ im, s.initBit b k im = false) ∧
  (∀ (s : State) (b k : Nat) (im : Bool) (v : Word), s.params.legal → s.busy = false → b < s.params.nbanks →
    k < s.params.depth →
    (busWrite .w64 (BitVec.ofNat 64 (elemOffset s.params b k + if im then 8 else 0)) v s).initBit b k im = true) ∧
  (∀ (s t : State) (i : Instr) (d : Nat), exec i s = .next t → t.err = false → writeBank? i = some d →
    ∀ k < s.n, ∀ im, t.initBit d k im = true)

/-- What a command leaves as it was, whether it succeeds or fails: every register but the flags it sets, ERR_INFO on
success, the result registers for every command but TWID, and every byte of memory but the elements it writes; for NOP
and TWID, all of memory. -/
def Obligations.CommandFrame : Prop :=
  ∀ (i : Instr) (s t : State), exec i s = .next t →
    t.params = s.params ∧ t.cmd = s.cmd ∧ t.len = s.len ∧ t.irqEn = s.irqEn ∧ t.accessErr = s.accessErr ∧
    t.cmdl = s.cmdl ∧ t.lenl = s.lenl ∧ t.inReset = s.inReset ∧ t.rdata = s.rdata ∧ t.turns = s.turns ∧
    t.busy = false ∧ t.done = true ∧
    (t.err = false → t.errCode = 0 ∧ t.errInfo = s.errInfo) ∧
    ((∀ dir k, i ≠ .twid dir k) → t.resRe = s.resRe ∧ t.resIm = s.resIm) ∧
    (writeBank? i = none → ∀ a, t.mem.readByte a = s.mem.readByte a) ∧
    (∀ d, writeBank? i = some d → OnlyElementsWritten s t d s.n) ∧
    (t.err = true → ∀ a, t.mem.readByte a = s.mem.readByte a)

/-! ### The commands -/

/-- R192: NOP completes in every state, with only the completion flags written. -/
def Obligations.NopOnlyCompletes : Prop :=
  ∀ s : State, ∃ t, exec .nop s = .next t ∧ CompletedFrom s t false false ∧ t.mem = s.mem

/-- R114: TWID reads entry `K` into RES_RE and RES_IM, the imaginary part sign-flipped for the inverse, whatever LEN and the
banks are; `K` above 60 is BAD_K. -/
def Obligations.TwidReadsTheRom : Prop :=
  ∀ (dir : Dir) (k : Nat) (s : State),
    (k ≤ 60 → exec (.twid dir k) s = .next { s with
      busy := false, done := true, err := false, errCode := 0, path := false, draws := s.draws + 1,
      resRe := (romEntry s.params.romVariant k).re,
      resIm := if dir = .inv then fneg (romEntry s.params.romVariant k).im else (romEntry s.params.romVariant k).im }) ∧
    (60 < k → ∃ t, exec (.twid dir k) s = .next t ∧ FailedFrom s t .badK false)

/-- R120: CMUL writes the four-rounding product of each pair of elements. -/
def Obligations.CmulMultipliesElements : Prop :=
  ∀ (dst srca srcb : Nat) (s : State) (x y : Nat → Cplx),
    dst < s.params.nbanks → srca < s.params.nbanks → srcb < s.params.nbanks → s.n ≤ s.params.depth →
    BankHolds s srca s.n x → BankHolds s srcb s.n y →
    ∃ t, exec (.cmul dst srca srcb) s = .next t ∧ CompletedFrom s t false false ∧ OnlyElementsWritten s t dst s.n ∧
      ∀ k < s.n, ∃ z, t.element dst k = some z ∧ IsCmul z (x k) (y k)

/-- R130, R11: BITREV leaves in element `k` the element whose index has the reversed bits, bit for bit. -/
def Obligations.BitrevPermutesElements : Prop :=
  ∀ (dst srca : Nat) (s : State) (x : Nat → Cplx),
    dst < s.params.nbanks → srca < s.params.nbanks → (s.n = 0 ∨ IsPow2 s.n) → s.n ≤ s.params.depth →
    BankHolds s srca s.n x →
    ∃ t, exec (.bitrev dst srca) s = .next t ∧ CompletedFrom s t false false ∧ OnlyElementsWritten s t dst s.n ∧
      ∀ L, s.n = 2 ^ L → ∀ j k, j < s.n → k < s.n → (∀ b < L, j.testBit b = k.testBit (L - 1 - b)) →
        t.element dst k = some (x j)

/-- R130: two BITREVs of one length restore every bit. -/
def Obligations.BitrevTwiceRestores : Prop :=
  ∀ (dst dst' srca : Nat) (s t u : State),
    exec (.bitrev dst srca) s = .next t → t.err = false → t.lenl = s.lenl →
    exec (.bitrev dst' dst) t = .next u → u.err = false →
    ∀ k < s.n, u.element dst' k = s.element srca k

/-- R131: the incremental counter gives the permutation of R130, for every power-of-two length. -/
def Obligations.CounterSequencingIsTheReversal : Prop :=
  ∀ (L : Nat) (x : List Cplx), x.length = 2 ^ L → counterBitrev x = bitrevSeq x

/-- R140: BFLY4 writes the closed-form 4-point butterfly of each group of 4 contiguous elements. -/
def Obligations.Bfly4TransformsGroups : Prop :=
  ∀ (dir : Dir) (dst srca : Nat) (s : State) (x : Nat → Cplx),
    dst < s.params.nbanks → srca < s.params.nbanks → IsPow2 s.n → 4 ≤ s.n → s.n ≤ s.params.depth →
    BankHolds s srca s.n x →
    ∃ t, exec (.bfly4 dir dst srca) s = .next t ∧ CompletedFrom s t false false ∧ OnlyElementsWritten s t dst s.n ∧
      ∀ q, 4 * q < s.n → ∃ t0 t1 t2 t3 u z0 z1 z2 z3,
        IsCadd t0 (x (4 * q)) (x (4 * q + 1)) ∧ IsCsub t1 (x (4 * q)) (x (4 * q + 1)) ∧
        IsCadd t2 (x (4 * q + 2)) (x (4 * q + 3)) ∧ IsCsub t3 (x (4 * q + 2)) (x (4 * q + 3)) ∧
        (dir = .fwd → u = ⟨t3.im, fneg t3.re⟩) ∧ (dir = .inv → u = ⟨fneg t3.im, t3.re⟩) ∧
        t.element dst (4 * q) = some z0 ∧ IsCadd z0 t0 t2 ∧ t.element dst (4 * q + 1) = some z1 ∧ IsCadd z1 t1 u ∧
        t.element dst (4 * q + 2) = some z2 ∧ IsCsub z2 t0 t2 ∧ t.element dst (4 * q + 3) = some z3 ∧ IsCsub z3 t1 u

/-- R142 to R144: COMBINE merges each pair of blocks with one running twiddle sequence, from `(1.0, +0.0)`, multiplied by the
ROM entry `K` at every position. That one sequence serves every pair is log entry 17. -/
def Obligations.CombineMergesBlockPairs : Prop :=
  ∀ (dir : Dir) (dst srca k : Nat) (s : State) (x : Nat → Cplx),
    dst < s.params.nbanks → srca < s.params.nbanks → IsPow2 s.n → 2 ≤ s.n → 1 ≤ k → 2 ^ k ≤ s.n →
    s.n ≤ s.params.depth → BankHolds s srca s.n x →
    ∃ (t : State) (w : Nat → Cplx),
      exec (.combine dir dst srca k) s = .next t ∧ CompletedFrom s t false false ∧ OnlyElementsWritten s t dst s.n ∧
      w 0 = ⟨0x3FF0000000000000#64, 0#64⟩ ∧
      (∀ r, IsCmul (w (r + 1)) (w r)
        ⟨(romEntry s.params.romVariant k).re,
          if dir = .inv then fneg (romEntry s.params.romVariant k).im else (romEntry s.params.romVariant k).im⟩) ∧
      ∀ e r, e % 2 ^ k = 0 → e < s.n → r < 2 ^ (k - 1) → ∃ p z0 z1,
        IsCmul p (w r) (x (e + 2 ^ (k - 1) + r)) ∧
        t.element dst (e + r) = some z0 ∧ IsCadd z0 (x (e + r)) p ∧
        t.element dst (e + 2 ^ (k - 1) + r) = some z1 ∧ IsCsub z1 (x (e + r)) p

/-- R146: POST divides each part by `n` if inverse, and snaps it; any length up to DEPTH is legal. -/
def Obligations.PostScalesAndSnaps : Prop :=
  ∀ (dir : Dir) (dst srca : Nat) (s : State) (x : Nat → Cplx),
    dst < s.params.nbanks → srca < s.params.nbanks → s.n ≤ s.params.depth → BankHolds s srca s.n x →
    ∃ t, exec (.post dir dst srca) s = .next t ∧ CompletedFrom s t false false ∧ OnlyElementsWritten s t dst s.n ∧
      ∀ k < s.n, ∃ v, (dir = .fwd → v = x k) ∧ (dir = .inv → IsCscaleDiv v (x k) s.n) ∧
        t.element dst k = some ⟨snap s.params.tol v.re, snap s.params.tol v.im⟩

/-- R161, R163: FFT of length 0 writes nothing, of length 1 copies bit for bit, of length 2 is the snapped 2-point
butterfly, halved if inverse. -/
def Obligations.FftOfShortLengths : Prop :=
  ∀ (dir : Dir) (dst srca : Nat) (s : State) (x : Nat → Cplx),
    dst < s.params.nbanks → srca < s.params.nbanks → s.n ≤ 2 → s.n ≤ s.params.depth → BankHolds s srca s.n x →
    ∃ t, exec (.fft dir dst srca) s = .next t ∧ CompletedFrom s t false false ∧ OnlyElementsWritten s t dst s.n ∧
      (s.n = 1 → t.element dst 0 = some (x 0)) ∧
      (s.n = 2 → ∃ y0 y1 v0 v1, IsCadd y0 (x 0) (x 1) ∧ IsCsub y1 (x 0) (x 1) ∧
        (dir = .fwd → v0 = y0 ∧ v1 = y1) ∧
        (dir = .inv → ∃ κ : Nat → DrawKey,
          v0 = ⟨fmul (κ 0) y0.re 0x3FE0000000000000#64, fmul (κ 1) y0.im 0x3FE0000000000000#64⟩ ∧
          v1 = ⟨fmul (κ 2) y1.re 0x3FE0000000000000#64, fmul (κ 3) y1.im 0x3FE0000000000000#64⟩) ∧
        t.element dst 0 = some (csnap s.params.tol v0) ∧ t.element dst 1 = some (csnap s.params.tol v1))

/-- R160, R162: FFT of length `2^L`, `L >= 2`, is bit reversal, the radix-4 base case, stages 3 to `L` in order and the
post-process, on one working buffer. -/
def Obligations.FftRunsTheStages : Prop :=
  ∀ (dir : Dir) (dst srca L : Nat) (s : State) (x : Nat → Cplx),
    dst < s.params.nbanks → srca < s.params.nbanks → 2 ≤ L → s.n = 2 ^ L → s.n ≤ s.params.depth →
    BankHolds s srca s.n x →
    ∃ (t : State) (κb κp : DrawKey) (κc : Nat → DrawKey),
      exec (.fft dir dst srca) s = .next t ∧ CompletedFrom s t false false ∧ OnlyElementsWritten s t dst s.n ∧
      ∀ k < s.n, t.element dst k =
        (postSeq s.params κp dir
          ((List.range' 3 (L - 2)).foldl (fun d K => combineSeq s.params (κc K) dir K d)
            (bfly4Seq κb dir (bitrevSeq ((List.range s.n).map x)))))[k]?

/-- R165: the stage sequence BITREV, BFLY4, COMBINE `#3 .. #L`, POST leaves in the destination the bits that FFT leaves,
for any banks, equal or not, whenever FFT's result holds no NaN (a NaN's bits are a fresh draw in each: log entry 4). -/
def Obligations.StageSequenceLeavesTheBitsOfFft : Prop :=
  ∀ (dir : Dir) (dst srca L : Nat) (s t : State),
    2 ≤ L → s.n = 2 ^ L → exec (.fft dir dst srca) s = .next t → t.err = false →
    (∀ k < s.n, ∀ z, t.element dst k = some z → NoNaN z) →
    ∃ u, runCommands (stageSequence dir dst srca L) s = .next u ∧ u.err = false ∧
      ∀ a, u.mem.readByte a = t.mem.readByte a

/-- R170, R172 to R179: CZT of length `n >= 1` is the chirp table, the pre-chirped input, the kernel, three transforms of
length `m = 4 * hob(n)` with one product between, the un-chirp and snap, and for the inverse the mirror, division by `n`
and snap. CZT of length 0 writes nothing. COS and SIN are the model's TRIG (log entries 5 and 6), the scratch generation its own
(log entry 11). -/
def Obligations.CztRunsTheConvolution : Prop :=
  (∀ (dir : Dir) (dst srca : Nat) (s : State), dst < s.params.nbanks → srca < s.params.nbanks → s.n = 0 →
    ∃ t, exec (.czt dir dst srca) s = .next t ∧ CompletedFrom s t false false ∧ t.mem = s.mem) ∧
  ∀ (dir : Dir) (dst srca : Nat) (s : State) (x : Nat → Cplx),
    dst < s.params.nbanks → srca < s.params.nbanks → s.n < 2 ^ 29 → s.n ≤ s.params.depth → 1 ≤ s.n →
    BankHolds s srca s.n x →
    ∃ (t : State) (tab y : Nat → Cplx) (m : Nat) (a b A B P C : List Cplx),
      exec (.czt dir dst srca) s = .next t ∧ CompletedFrom s t false true ∧ OnlyElementsWritten s t dst s.n ∧
      m = 4 * 2 ^ s.n.log2 ∧
      (∀ i < s.n, ∃ κ κ',
        let th := fdiv κ (fmul κ' 0x400921FB54442D18#64 (u64ToF64 (i * i % (2 * s.n)))) (u64ToF64 s.n)
        tab i = ⟨trigCOS s.params th, trigSIN s.params th⟩) ∧
      a.length = m ∧ (∀ i < s.n, ∃ z, a[i]? = some z ∧ IsChirpmul z (x i) (tab i)) ∧
      (∀ i, s.n ≤ i → i < m → a[i]? = some ⟨0#64, 0#64⟩) ∧
      b.length = m ∧ b[0]? = some (tab 0) ∧
      (∀ i, 1 ≤ i → i < s.n → b[i]? = some (tab i) ∧ b[m - i]? = some (tab i)) ∧
      (∀ i, s.n ≤ i → i ≤ m - s.n → b[i]? = some ⟨0#64, 0#64⟩) ∧
      (∃ κ, A = fftSeq s.params κ .fwd a) ∧ (∃ κ, B = fftSeq s.params κ .fwd b) ∧
      (∀ k < m, ∃ u v z, A[k]? = some u ∧ B[k]? = some v ∧ P[k]? = some z ∧ IsCmul z u v) ∧ P.length = m ∧
      (∃ κ, C = fftSeq s.params κ .inv P) ∧
      (∀ k < s.n, ∃ u z, C[k]? = some u ∧ IsChirpmul z u (tab k) ∧ y k = csnap s.params.tol z) ∧
      (dir = .fwd → ∀ k < s.n, t.element dst k = some (y k)) ∧
      (dir = .inv → ∀ j < s.n, ∃ z, IsCscaleDiv z (y ((s.n - j) % s.n)) s.n ∧
        t.element dst j = some (csnap s.params.tol z))

/-- R173: the convolution length is a power of two, at least `2n + 1`, and fits the scratch. -/
def Obligations.ConvolutionLengthBound : Prop :=
  ∀ n, 1 ≤ n →
    IsPow2 (convLength n) ∧ 2 * n + 1 ≤ convLength n ∧ convLength n ≤ 4 * n ∧ 4 ≤ convLength n ∧
    (n < 2 ^ 29 → convLength n ≤ 2 ^ 30) ∧
    (∀ p : Params, n ≤ p.depth → convLength n ≤ p.scratchDepth)

/-- R172, R175, R182: with the default `TRIG` the chirp table starts at `(1.0, +0.0)`, at every length. The default
`TRIG` is computed by the model's method (log entry 5). -/
def Obligations.ChirpTableStartsAtOne : Prop :=
  ∀ (p : Params) (κ : DrawKey) (n : Nat), p.trigId = 0 → 1 ≤ n → n < 2 ^ 29 →
    chirpEntry p κ n 0 = ⟨0x3FF0000000000000#64, 0#64⟩

/-- R190, R191: DFT is FFT at lengths 0, 1, 2 and the powers of two, and CZT with PATH = 1 at every other length; it
completes at every length that fits a bank and, on the chirp-z path, is below `2^29`. The equal next states have equal NaN
bits because both commands run from one state, where the model's draws are those of equal places (log entry 4); R14 leaves
those bits free in each run. -/
def Obligations.DftDispatchesOnLength : Prop :=
  (∀ (dir : Dir) (dst srca : Nat) (s : State), (s.n = 0 ∨ IsPow2 s.n) →
    exec (.dft dir dst srca) s = exec (.fft dir dst srca) s) ∧
  (∀ (dir : Dir) (dst srca : Nat) (s : State), s.n ≠ 0 → ¬ IsPow2 s.n →
    dst < s.params.nbanks → srca < s.params.nbanks →
    exec (.dft dir dst srca) s =
      match exec (.czt dir dst srca) s with
      | .next t => .next { t with path := true }
      | .fault f => .fault f
      | .refused r => .refused r) ∧
  (∀ (dir : Dir) (dst srca : Nat) (s : State) (x : Nat → Cplx), dst < s.params.nbanks → srca < s.params.nbanks →
    s.n ≤ s.params.depth → (s.n = 0 ∨ IsPow2 s.n ∨ s.n < 2 ^ 29) → BankHolds s srca s.n x →
    ∃ t, exec (.dft dir dst srca) s = .next t ∧ t.err = false ∧ t.done = true ∧ t.busy = false ∧
      (t.path = true ↔ s.n ≠ 0 ∧ ¬ IsPow2 s.n) ∧ OnlyElementsWritten s t dst s.n ∧
      ∀ k < s.n, ∃ z, t.element dst k = some z)

/-- R79, R239: what a command writes does not depend on whether its destination is one of its sources. The two runs have
equal NaN bits because both start from one state, where the model's draws are those of equal places (log entry 4); R14
leaves those bits free in each run. -/
def Obligations.InPlaceGivesTheSameElements : Prop :=
  ∀ (i : Instr) (d d' : Nat) (s t t' : State), (writeBank? i).isSome →
    exec (withDst d i) s = .next t → t.err = false → exec (withDst d' i) s = .next t' → t'.err = false →
    ∀ k < s.n, t.element d k = t'.element d' k

/-! ### Arithmetic -/

/-- R13: the exact sign operations and the ordered comparison: of finite values by their exact values, the infinities below
and above every other value that is no NaN, and false with a NaN. -/
def Obligations.SignOperationsAreExact : Prop :=
  (∀ (a : F64) (j : Nat), j < 64 →
    (fneg a).getLsbD j = (if j = 63 then !a.getLsbD j else a.getLsbD j) ∧
    (fabs a).getLsbD j = (if j = 63 then false else a.getLsbD j)) ∧
  (∀ a b : F64, F64.isNaN a = true ∨ F64.isNaN b = true → flt a b = false) ∧
  (∀ a b : F64, F64.isFinite a = true → F64.isFinite b = true → (flt a b = true ↔ F64.toUnits a < F64.toUnits b)) ∧
  (∀ a : F64, F64.isNaN a = false →
    (flt 0xFFF0000000000000#64 a = true ↔ a ≠ 0xFFF0000000000000#64) ∧
    (flt a 0x7FF0000000000000#64 = true ↔ a ≠ 0x7FF0000000000000#64) ∧
    flt a 0xFFF0000000000000#64 = false ∧ flt 0x7FF0000000000000#64 a = false)

/-- R13, R15: `fadd`, `fmul` and the complex product commute bit for bit when no operand is a NaN. Where the result is a NaN
both orders have one draw (log entry 4). -/
def Obligations.SumAndProductCommute : Prop :=
  (∀ (κ : DrawKey) (a b : F64), F64.isNaN a = false → F64.isNaN b = false →
    fadd κ a b = fadd κ b a ∧ fmul κ a b = fmul κ b a) ∧
  (∀ (κ : DrawKey) (x y : Cplx), NoNaN x → NoNaN y → cmul κ x y = cmul κ y x)

/-- R14: a NaN result is a quiet NaN, a NaN operand gives one, and a result that is no NaN owes nothing to a draw
(log entries 4 and 22). -/
def Obligations.NaNResultsAreQuietDraws : Prop :=
  ∀ f ∈ [fadd, fsub, fmul, fdiv], ∀ (κ κ' : DrawKey) (a b : F64),
    (F64.isNaN (f κ a b) = true → F64.isQuietNaN (f κ a b) = true) ∧
    (F64.isNaN a = true ∨ F64.isNaN b = true → F64.isNaN (f κ a b) = true) ∧
    (F64.isNaN (f κ a b) = false → f κ' a b = f κ a b)

/-- R12: `fadd`, `fsub`, `fmul` and `fdiv` of finite operands give the nearest finite value, ties to the even
significand, subnormals included. Values are in the model's units of `2^-1074` (log entry 18). Which results are finite is
Obligations.OverflowGivesTheSignedInfinity; the other operands are Obligations.SpecialOperandsFollowIeee. -/
def Obligations.OperationsRoundToNearestEven : Prop :=
  ∀ (κ : DrawKey) (a b c : F64), F64.isFinite a = true → F64.isFinite b = true → F64.isFinite c = true →
    (∀ r, r = fadd κ a b → F64.isFinite r = true →
      |F64.toUnits a + F64.toUnits b - F64.toUnits r| ≤ |F64.toUnits a + F64.toUnits b - F64.toUnits c| ∧
      (|F64.toUnits a + F64.toUnits b - F64.toUnits r| = |F64.toUnits a + F64.toUnits b - F64.toUnits c| →
        F64.toUnits c ≠ F64.toUnits r → r.getLsbD 0 = false)) ∧
    (∀ r, r = fsub κ a b → F64.isFinite r = true →
      |F64.toUnits a - F64.toUnits b - F64.toUnits r| ≤ |F64.toUnits a - F64.toUnits b - F64.toUnits c| ∧
      (|F64.toUnits a - F64.toUnits b - F64.toUnits r| = |F64.toUnits a - F64.toUnits b - F64.toUnits c| →
        F64.toUnits c ≠ F64.toUnits r → r.getLsbD 0 = false)) ∧
    (∀ r, r = fmul κ a b → F64.isFinite r = true →
      |F64.toUnits a * F64.toUnits b - F64.toUnits r * unitsPerOne| ≤
        |F64.toUnits a * F64.toUnits b - F64.toUnits c * unitsPerOne| ∧
      (|F64.toUnits a * F64.toUnits b - F64.toUnits r * unitsPerOne| =
          |F64.toUnits a * F64.toUnits b - F64.toUnits c * unitsPerOne| →
        F64.toUnits c ≠ F64.toUnits r → r.getLsbD 0 = false)) ∧
    (F64.isZero b = false → ∀ r, r = fdiv κ a b → F64.isFinite r = true →
      |F64.toUnits a * unitsPerOne - F64.toUnits r * F64.toUnits b| ≤
        |F64.toUnits a * unitsPerOne - F64.toUnits c * F64.toUnits b| ∧
      (|F64.toUnits a * unitsPerOne - F64.toUnits r * F64.toUnits b| =
          |F64.toUnits a * unitsPerOne - F64.toUnits c * F64.toUnits b| →
        F64.toUnits c ≠ F64.toUnits r → r.getLsbD 0 = false))

/-- R147: dividing by a power of two is multiplying by its reciprocal, bit for bit, subnormal results included. Where the
result is a NaN both have one draw (log entry 4). -/
def Obligations.DivisionByPowerOfTwoIsExactScaling : Prop :=
  ∀ (κ κ' : DrawKey) (v : F64) (e : Nat), e ≤ 63 →
    fdiv κ v (u64ToF64 (2 ^ e)) = fmul κ v (fdiv κ' 0x3FF0000000000000#64 (u64ToF64 (2 ^ e)))

/-- R16: the snap. A magnitude below the tolerance becomes `+0.0`; every other value, a NaN or an infinity included, is
unchanged. -/
def Obligations.SnapClearsSmallMagnitudes : Prop :=
  ∀ (tol v : F64), 0 < tol.toNat → tol.toNat ≤ infBits →
    (F64.isNaN v = true → snap tol v = v) ∧ (F64.isInf v = true → snap tol v = v) ∧
    (F64.isNaN v = false → v.toNat % 2 ^ 63 < tol.toNat → snap tol v = 0#64) ∧
    (F64.isNaN v = false → tol.toNat ≤ v.toNat % 2 ^ 63 → snap tol v = v) ∧
    (∀ z : Cplx, csnap tol z = ⟨snap tol z.re, snap tol z.im⟩)

/-! ### The bus -/

/-- R62: the data window decode. -/
def Obligations.DataWindowDecode : Prop :=
  ∀ p : Params,
    (∀ w : BankWord, w.bank < p.nbanks → w.elem < p.depth →
      bankWord? p (0x10000 + ((w.bank * p.depth + w.elem) * 16) + if w.im then 8 else 0) = some w) ∧
    (∀ a w, a % 8 = 0 → bankWord? p a = some w → w.bank < p.nbanks ∧ w.elem < p.depth ∧ wordOffset p w = a) ∧
    (∀ a, a % 8 = 0 → (bankWord? p a = none ↔ a < 0x10000 ∨ 0x10000 + p.nbanks * p.depth * 16 ≤ a))

/-- R65: an access of another width, or misaligned, changes nothing, returns 0 if a read, and sets ACCESS_ERR. -/
def Obligations.MalformedAccessIsRefused : Prop :=
  ∀ (s : State) (width : Width) (offset : BitVec 64) (v : Word), (width ≠ .w64 ∨ offset.toNat % 8 ≠ 0) →
    busAccess (.read width offset) s = .next { s with accessErr := true, rdata := 0 } ∧
    busAccess (.write width offset v) s = .next { s with accessErr := true }

/-- R67: which accesses are refused while BUSY = 1, and that every other access is legal, with its normal effect. -/
def Obligations.BusyAccessesAreRefused : Prop :=
  ∀ (s : State) (v : Word), s.busy = true →
    (∀ offset : BitVec 64, offset.toNat % 8 = 0 → 0x10000 ≤ offset.toNat → offset.toNat < windowEnd s.params →
      busRead .w64 offset s = .next { s with accessErr := true, rdata := 0 } ∧
      busWrite .w64 offset v s = { s with accessErr := true }) ∧
    busWrite .w64 0x010#64 v s = { s with accessErr := true } ∧
    busWrite .w64 0x018#64 v s = { s with accessErr := true } ∧
    (v.getLsbD 0 = true → busWrite .w64 0x020#64 v s = { s with accessErr := true }) ∧
    (v.getLsbD 0 = false → busWrite .w64 0x020#64 v s = { s with irqEn := v.getLsbD 1 }) ∧
    busWrite .w64 0x028#64 v s = s.writeStatus v ∧
    (∀ offset : BitVec 64, offset.toNat % 8 = 0 → offset.toNat < 0x10000 →
      busRead .w64 offset s = .next { s with rdata := s.readRegister offset.toNat })

/-- R66: a read changes nothing but the value it returns (and ACCESS_ERR, where it is refused), and a write to a read-only
or unmapped offset has no effect. The returned value's home is the model's (log entry 3). -/
def Obligations.ReadsHaveNoSideEffect : Prop :=
  (∀ (s t : State) (width : Width) (offset : BitVec 64), busRead width offset s = .next t →
    t = { s with rdata := t.rdata, accessErr := t.accessErr } ∧
    (width = .w64 → offset.toNat % 8 = 0 → s.busy = false → t.accessErr = s.accessErr)) ∧
  (∀ (s : State) (v : Word) (offset : BitVec 64), offset.toNat % 8 = 0 → offset.toNat < 0x10000 →
    offset ∉ [0x010#64, 0x018#64, 0x020#64, 0x028#64] → busWrite .w64 offset v s = s)

/-- R48, R71: an aligned access that is neither a register nor a bank word reads 0 and its write is ignored, with no
error. -/
def Obligations.UnmappedOffsetsReadZero : Prop :=
  ∀ (s : State) (offset : BitVec 64) (v : Word), offset.toNat % 8 = 0 →
    ((0x050 ≤ offset.toNat ∧ offset.toNat < 0x10000) ∨ windowEnd s.params ≤ offset.toNat) →
    busRead .w64 offset s = .next { s with rdata := 0 } ∧ busWrite .w64 offset v s = s

/-- R63, R68, R69: a bank word reads back as written, its bytes in little-endian order, and no other bank word changes. -/
def Obligations.BankWordsReadBack : Prop :=
  ∀ (s : State) (w : BankWord) (v : Word), s.params.legal → s.busy = false → w.bank < s.params.nbanks →
    w.elem < s.params.depth →
    busRead .w64 (BitVec.ofNat 64 (wordOffset s.params w))
        (busWrite .w64 (BitVec.ofNat 64 (wordOffset s.params w)) v s) =
      .next { busWrite .w64 (BitVec.ofNat 64 (wordOffset s.params w)) v s with rdata := v } ∧
    busWrite .w64 (BitVec.ofNat 64 (wordOffset s.params w)) v s =
      { s with mem := (busWrite .w64 (BitVec.ofNat 64 (wordOffset s.params w)) v s).mem } ∧
    (∀ j < 8, (busWrite .w64 (BitVec.ofNat 64 (wordOffset s.params w)) v s).mem.readByte (wordOffset s.params w + j) =
      some (v.extractLsb' (8 * j) 8)) ∧
    (∀ a, a < wordOffset s.params w ∨ wordOffset s.params w + 8 ≤ a →
      (busWrite .w64 (BitVec.ofNat 64 (wordOffset s.params w)) v s).mem.readByte a = s.mem.readByte a)

/-- R34, R35: CMD and LEN keep their low 32 bits and read back zero-extended. -/
def Obligations.CommandRegistersReadBack : Prop :=
  ∀ (s : State) (v : Word), s.busy = false →
    busRead .w64 0x010#64 (busWrite .w64 0x010#64 v s) =
      .next { s with cmd := v.extractLsb' 0 32, rdata := v &&& 0x00000000FFFFFFFF#64 } ∧
    busRead .w64 0x018#64 (busWrite .w64 0x018#64 v s) =
      .next { s with len := v.extractLsb' 0 32, rdata := v &&& 0x00000000FFFFFFFF#64 }

/-- R36, R205: a write of CTRL. With START = 1 it is the start step, or refused while BUSY; with START = 0 it changes IRQ_EN
alone, whether BUSY or not. -/
def Obligations.StartStepLatchesTheCommand : Prop :=
  ∀ (s : State) (v : Word),
    (v.getLsbD 0 = true →
      (s.busy = true → busWrite .w64 0x020#64 v s = { s with accessErr := true }) ∧
      (s.busy = false → busWrite .w64 0x020#64 v s = { s with
        irqEn := v.getLsbD 1, cmdl := s.cmd, lenl := s.len,
        done := false, err := false, errCode := 0, path := false, busy := true })) ∧
    (v.getLsbD 0 = false → busWrite .w64 0x020#64 v s = { s with irqEn := v.getLsbD 1 })

/-- R38: a write of STATUS. -/
def Obligations.StatusWriteClears : Prop :=
  ∀ (s : State) (v : Word),
    busWrite .w64 0x028#64 v s = { s with
      done := if v.getLsbD 1 = true ∧ s.done = true then false else s.done
      err := if v.getLsbD 1 = true ∧ s.done = true then false else s.err
      errCode := if v.getLsbD 1 = true ∧ s.done = true then 0 else s.errCode
      accessErr := if v.getLsbD 3 = true then false else s.accessErr }

/-- R37: the fields of STATUS as a read returns them, at every bit of the register. -/
def Obligations.StatusReadsItsFields : Prop :=
  ∀ (s : State), ∃ r : Word, busRead .w64 0x028#64 s = .next { s with rdata := r } ∧
    r.getLsbD 0 = s.busy ∧ r.getLsbD 1 = s.done ∧ r.getLsbD 2 = s.err ∧ r.getLsbD 3 = s.accessErr ∧
    r.getLsbD 4 = s.path ∧ r.extractLsb' 5 3 = 0#3 ∧ r.extractLsb' 8 8 = s.errCode ∧ r.extractLsb' 16 48 = 0#48

/-- R42, R208: the interrupt level follows IRQ_EN and DONE: a completion raises it if enabled, the next start and the
acknowledge drop it, setting IRQ_EN with DONE pending raises it at once. -/
def Obligations.InterruptFollowsDone : Prop :=
  State.reset.irq = false ∧
  (∀ s t : State, completionStep s = .next t → t.irq = s.irqEn) ∧
  (∀ (s : State) (v : Word), v.getLsbD 0 = true → s.busy = false → (busWrite .w64 0x020#64 v s).irq = false) ∧
  (∀ (s : State) (v : Word), v.getLsbD 1 = true → (busWrite .w64 0x028#64 v s).irq = false) ∧
  (∀ (s : State) (v : Word), v.getLsbD 0 = false → (busWrite .w64 0x020#64 v s).irq = (v.getLsbD 1 && s.done))

/-- R67, R74, R77: no host access while a command is in flight changes what it computes: it completes as it would have, but
for IRQ_EN, ACCESS_ERR and the value the bus returned. The two completions have equal NaN bits because the access leaves the
draw counter alone and the model's draws are those of equal places (log entry 4); R14 leaves those bits free in each run. -/
def Obligations.BusyHostCannotDisturbTheCommand : Prop :=
  ∀ (s s' : State) (a : BusAccess), s.busy = true → s.flagsAgree → busAccess a s = .next s' →
    s'.busy = true ∧
    match completionStep s, completionStep s' with
    | .next t, .next t' => t' = { t with irqEn := s'.irqEn, accessErr := s'.accessErr, rdata := s'.rdata }
    | .fault f, .fault f' => f = f'
    | _, _ => False

/-! ### The machine -/

/-- R230 to R232: asserting reset abandons the command in flight; while it is asserted no turn of either agent changes
anything; its release leaves the reset values, with no bank word initialised. The model's own counters and the bus
value are not the core's (log entries 3, 4, 11). -/
def Obligations.ResetAbandonsTheCommand : Prop :=
  ∀ s : State, ∃ t u,
    takeTurn .resetAssert s = .next t ∧ t.busy = false ∧ t.mem = [] ∧
    takeTurn .engine t = .next t ∧ (∀ a, takeTurn (.host a) t = .next t) ∧
    takeTurn .resetRelease t = .next u ∧
    u = { State.resetWith s.params with
      scratchGen := u.scratchGen, draws := u.draws, rdata := s.rdata, turns := s.turns }

/-- R231, R234: what the registers read right after reset with the default parameters, and that the core is idle with its
interrupt masked. -/
def Obligations.ResetRegisterValues : Prop :=
  State.reset.readRegister 0x000 = 0x0000000146465434#64 ∧ State.reset.readRegister 0x008 = 0x00000000003D0410#64 ∧
  State.reset.readRegister 0x010 = 0 ∧ State.reset.readRegister 0x018 = 0 ∧ State.reset.readRegister 0x020 = 0 ∧
  State.reset.readRegister 0x028 = 0 ∧ State.reset.readRegister 0x030 = 0 ∧ State.reset.readRegister 0x038 = 0 ∧
  State.reset.readRegister 0x040 = 0 ∧ State.reset.readRegister 0x048 = 0x3CC4000000000000#64 ∧
  State.reset.cmdl = 0 ∧ State.reset.lenl = 0 ∧ State.reset.irq = false ∧
  step State.reset = .next State.reset

/-- R46, R115: no step changes the ROM, nor (R32, R33, R41) the constants ID, CAPS and TOL; a TWID changes no bank, no LEN,
and of the registers only RES_RE, RES_IM and the STATUS fields of the completion step. -/
def Obligations.RomAndConstantsNeverChange : Prop :=
  (∀ s t : State, step s = .next t →
    (∀ k, romEntry t.params.romVariant k = romEntry s.params.romVariant k) ∧
    t.readRegister 0x000 = s.readRegister 0x000 ∧ t.readRegister 0x008 = s.readRegister 0x008 ∧
    t.readRegister 0x048 = s.readRegister 0x048) ∧
  (∀ (dir : Dir) (k : Nat) (s t : State), exec (.twid dir k) s = .next t → t.err = false →
    t = { s with
      resRe := t.resRe, resIm := t.resIm, busy := t.busy, done := t.done, err := t.err, errCode := t.errCode,
      path := t.path, draws := t.draws })

/-- The reset state meets the invariant. -/
def Obligations.ResetMeetsTheInvariant : Prop :=
  State.reset.Inv

/-- Every step keeps the invariant: the parameters stay legal, the memory keeps its canonical form and holds whole words of
the data window only, the completion flags agree with each other (R37, R49), and an asserted reset keeps the core quiet
(R230). -/
def Obligations.StepKeepsTheInvariant : Prop :=
  ∀ s t : State, s.Inv → step s = .next t → t.Inv

/-- R240: a command in flight completes, faults, or is abandoned by a reset, once the pending turns are taken. That the
Engine's step follows the pending turns is the model's form of weak fairness (log entry 1). -/
def Obligations.CommandInFlightCompletes : Prop :=
  ∀ s : State, s.Inv → s.busy = true →
    ∃ k ≤ s.turns.length + 1,
      (∃ t, Host.Core.run Sys2Proof.core k s = .next t ∧ t.busy = false) ∨
      Host.Core.run Sys2Proof.core k s = .fault .uninitRead

/-! ### The registers, the ROM, and the corners of the arithmetic -/

/-- R61, R32 to R36, R40, R41, R70: what a bus read of each register returns, in every state, BUSY or not, and that it changes
nothing else; STATUS is Obligations.StatusReadsItsFields, ERR_INFO Obligations.ErrInfoHoldsTheFailedCall. The returned value's
home is the model's (log entry 3). -/
def Obligations.RegistersReadTheirFields : Prop :=
  ∀ s : State,
    busRead .w64 0x000#64 s = .next { s with rdata := 0x0000000146465434#64 } ∧
    (s.params.legal → ∃ r : Word, busRead .w64 0x008#64 s = .next { s with rdata := r } ∧
      (r.extractLsb' 0 5).toNat = s.params.log2Depth ∧ r.extractLsb' 5 3 = 0#3 ∧
      (r.extractLsb' 8 5).toNat = s.params.nbanks ∧ r.extractLsb' 13 3 = 0#3 ∧
      r.extractLsb' 16 6 = 61#6 ∧ r.extractLsb' 22 2 = 0#2 ∧
      (r.getLsbD 24 = true ↔ s.params.romVariant = .piD) ∧ r.extractLsb' 25 3 = 0#3 ∧
      r.extractLsb' 28 4 = s.params.trigId ∧ r.extractLsb' 32 32 = 0#32) ∧
    (∃ r : Word, busRead .w64 0x010#64 s = .next { s with rdata := r } ∧
      r.extractLsb' 0 32 = s.cmd ∧ r.extractLsb' 32 32 = 0#32) ∧
    (∃ r : Word, busRead .w64 0x018#64 s = .next { s with rdata := r } ∧
      r.extractLsb' 0 32 = s.len ∧ r.extractLsb' 32 32 = 0#32) ∧
    (∃ r : Word, busRead .w64 0x020#64 s = .next { s with rdata := r } ∧
      r.getLsbD 0 = false ∧ r.getLsbD 1 = s.irqEn ∧ r.extractLsb' 2 62 = 0#62) ∧
    busRead .w64 0x038#64 s = .next { s with rdata := s.resRe } ∧
    busRead .w64 0x040#64 s = .next { s with rdata := s.resIm } ∧
    busRead .w64 0x048#64 s = .next { s with rdata := s.params.tol }

/-- R12: of finite operands, the result is finite where the exact sum, difference, product or quotient is below the overflow
threshold in magnitude, and from the threshold on the infinity of its sign. Values are in the model's units of `2^-1074` (log
entry 18). -/
def Obligations.OverflowGivesTheSignedInfinity : Prop :=
  ∀ (κ : DrawKey) (a b : F64), F64.isFinite a = true → F64.isFinite b = true →
    (|F64.toUnits a + F64.toUnits b| < overflowUnits → F64.isFinite (fadd κ a b) = true) ∧
    (overflowUnits ≤ |F64.toUnits a + F64.toUnits b| → fadd κ a b =
      if F64.toUnits a + F64.toUnits b < 0 then 0xFFF0000000000000#64 else 0x7FF0000000000000#64) ∧
    (|F64.toUnits a - F64.toUnits b| < overflowUnits → F64.isFinite (fsub κ a b) = true) ∧
    (overflowUnits ≤ |F64.toUnits a - F64.toUnits b| → fsub κ a b =
      if F64.toUnits a - F64.toUnits b < 0 then 0xFFF0000000000000#64 else 0x7FF0000000000000#64) ∧
    (|F64.toUnits a * F64.toUnits b| < overflowUnits * unitsPerOne → F64.isFinite (fmul κ a b) = true) ∧
    (overflowUnits * unitsPerOne ≤ |F64.toUnits a * F64.toUnits b| → fmul κ a b =
      if F64.toUnits a * F64.toUnits b < 0 then 0xFFF0000000000000#64 else 0x7FF0000000000000#64) ∧
    (F64.isZero b = false →
      (|F64.toUnits a * unitsPerOne| < overflowUnits * |F64.toUnits b| → F64.isFinite (fdiv κ a b) = true) ∧
      (overflowUnits * |F64.toUnits b| ≤ |F64.toUnits a * unitsPerOne| → fdiv κ a b =
        if F64.toUnits a * F64.toUnits b < 0 then 0xFFF0000000000000#64 else 0x7FF0000000000000#64))

/-- R12, R13: the IEEE-754 results that no rounding decides: which operands give a NaN, what an infinite or zero operand gives,
and the sign of every result that is no NaN, a zero's included. The IEEE-754 facts are log entry 18's; that a NaN operand
gives a drawn NaN is log entry 22. -/
def Obligations.SpecialOperandsFollowIeee : Prop :=
  ∀ (κ : DrawKey) (a b : F64),
    fsub κ a b = fadd κ a (fneg b) ∧
    (F64.isNaN (fadd κ a b) = true ↔ F64.isNaN a = true ∨ F64.isNaN b = true ∨
      (F64.isInf a = true ∧ F64.isInf b = true ∧ a ≠ b)) ∧
    (F64.isNaN (fmul κ a b) = true ↔ F64.isNaN a = true ∨ F64.isNaN b = true ∨
      (F64.isInf a = true ∧ F64.isZero b = true) ∨ (F64.isZero a = true ∧ F64.isInf b = true)) ∧
    (F64.isNaN (fdiv κ a b) = true ↔ F64.isNaN a = true ∨ F64.isNaN b = true ∨
      (F64.isInf a = true ∧ F64.isInf b = true) ∨ (F64.isZero a = true ∧ F64.isZero b = true)) ∧
    (F64.isNaN (fadd κ a b) = false →
      (F64.isInf a = true → fadd κ a b = a) ∧ (F64.isInf b = true → fadd κ a b = b) ∧
      (F64.isFinite a = true → F64.isFinite b = true →
        (F64.toUnits a + F64.toUnits b = 0 →
          fadd κ a b = if a.getLsbD 63 && b.getLsbD 63 then 0x8000000000000000#64 else 0#64) ∧
        (F64.toUnits a + F64.toUnits b ≠ 0 →
          ((fadd κ a b).getLsbD 63 = true ↔ F64.toUnits a + F64.toUnits b < 0)))) ∧
    (F64.isNaN (fmul κ a b) = false →
      (fmul κ a b).getLsbD 63 = (a.getLsbD 63 ^^ b.getLsbD 63) ∧
      (F64.isInf a = true ∨ F64.isInf b = true → F64.isInf (fmul κ a b) = true) ∧
      (F64.isZero a = true ∨ F64.isZero b = true → F64.isZero (fmul κ a b) = true)) ∧
    (F64.isNaN (fdiv κ a b) = false →
      (fdiv κ a b).getLsbD 63 = (a.getLsbD 63 ^^ b.getLsbD 63) ∧
      (F64.isInf a = true ∨ F64.isZero b = true → F64.isInf (fdiv κ a b) = true) ∧
      (F64.isZero a = true ∨ F64.isInf b = true → F64.isZero (fdiv κ a b) = true))

/-- R11: `u64_to_f64` is the exact value of its integer below `2^53`. That it is the exact value of the greater powers of two of
R147 is the model's rounding (log entry 19). Values are in the model's units of `2^-1074` (log entry 18). -/
def Obligations.IntegersConvertExactly : Prop :=
  ∀ j : Nat, (j < 2 ^ 53 ∨ ∃ e ≤ 63, j = 2 ^ e) →
    F64.isFinite (u64ToF64 j) = true ∧ (u64ToF64 j).getLsbD 63 = false ∧
    F64.toUnits (u64ToF64 j) = (j : Int) * unitsPerOne

/-- R110 to R112: the 61 entries of the `EXACT` ROM as the table of R111 lists them, the entries its last column marks for the
`PI_D` ROM, and that the two agree at every other entry (log entry 7). -/
def Obligations.RomHoldsTheTable : Prop :=
  (List.range' 0 15).map (romEntry .exact) =
    [ ⟨0x3FF0000000000000#64, 0x0000000000000000#64⟩, ⟨0xBFF0000000000000#64, 0x0000000000000000#64⟩,
      ⟨0x0000000000000000#64, 0xBFF0000000000000#64⟩, ⟨0x3FE6A09E667F3BCD#64, 0xBFE6A09E667F3BCD#64⟩,
      ⟨0x3FED906BCF328D46#64, 0xBFD87DE2A6AEA963#64⟩, ⟨0x3FEF6297CFF75CB0#64, 0xBFC8F8B83C69A60B#64⟩,
      ⟨0x3FEFD88DA3D12526#64, 0xBFB917A6BC29B42C#64⟩, ⟨0x3FEFF621E3796D7E#64, 0xBFA91F65F10DD814#64⟩,
      ⟨0x3FEFFD886084CD0D#64, 0xBF992155F7A3667E#64⟩, ⟨0x3FEFFF62169B92DB#64, 0xBF8921D1FCDEC784#64⟩,
      ⟨0x3FEFFFD8858E8A92#64, 0xBF7921F0FE670071#64⟩, ⟨0x3FEFFFF621621D02#64, 0xBF6921F8BECCA4BA#64⟩,
      ⟨0x3FEFFFFD88586EE6#64, 0xBF5921FAAEE6472E#64⟩, ⟨0x3FEFFFFF62161A34#64, 0xBF4921FB2AECB360#64⟩,
      ⟨0x3FEFFFFFD8858675#64, 0xBF3921FB49EE4EA6#64⟩] ∧
  (List.range' 15 15).map (romEntry .exact) =
    [ ⟨0x3FEFFFFFF621619C#64, 0xBF2921FB51AEB57C#64⟩, ⟨0x3FEFFFFFFD885867#64, 0xBF1921FB539ECF31#64⟩,
      ⟨0x3FEFFFFFFF62161A#64, 0xBF0921FB541AD59E#64⟩, ⟨0x3FEFFFFFFFD88586#64, 0xBEF921FB5439D73A#64⟩,
      ⟨0x3FEFFFFFFFF62162#64, 0xBEE921FB544197A1#64⟩, ⟨0x3FEFFFFFFFFD8858#64, 0xBED921FB544387BA#64⟩,
      ⟨0x3FEFFFFFFFFF6216#64, 0xBEC921FB544403C1#64⟩, ⟨0x3FEFFFFFFFFFD886#64, 0xBEB921FB544422C2#64⟩,
      ⟨0x3FEFFFFFFFFFF621#64, 0xBEA921FB54442A83#64⟩, ⟨0x3FEFFFFFFFFFFD88#64, 0xBE9921FB54442C73#64⟩,
      ⟨0x3FEFFFFFFFFFFF62#64, 0xBE8921FB54442CEF#64⟩, ⟨0x3FEFFFFFFFFFFFD9#64, 0xBE7921FB54442D0E#64⟩,
      ⟨0x3FEFFFFFFFFFFFF6#64, 0xBE6921FB54442D16#64⟩, ⟨0x3FEFFFFFFFFFFFFE#64, 0xBE5921FB54442D18#64⟩,
      ⟨0x3FEFFFFFFFFFFFFF#64, 0xBE4921FB54442D18#64⟩] ∧
  (List.range' 30 15).map (romEntry .exact) =
    [ ⟨0x3FF0000000000000#64, 0xBE3921FB54442D18#64⟩, ⟨0x3FF0000000000000#64, 0xBE2921FB54442D18#64⟩,
      ⟨0x3FF0000000000000#64, 0xBE1921FB54442D18#64⟩, ⟨0x3FF0000000000000#64, 0xBE0921FB54442D18#64⟩,
      ⟨0x3FF0000000000000#64, 0xBDF921FB54442D18#64⟩, ⟨0x3FF0000000000000#64, 0xBDE921FB54442D18#64⟩,
      ⟨0x3FF0000000000000#64, 0xBDD921FB54442D18#64⟩, ⟨0x3FF0000000000000#64, 0xBDC921FB54442D18#64⟩,
      ⟨0x3FF0000000000000#64, 0xBDB921FB54442D18#64⟩, ⟨0x3FF0000000000000#64, 0xBDA921FB54442D18#64⟩,
      ⟨0x3FF0000000000000#64, 0xBD9921FB54442D18#64⟩, ⟨0x3FF0000000000000#64, 0xBD8921FB54442D18#64⟩,
      ⟨0x3FF0000000000000#64, 0xBD7921FB54442D18#64⟩, ⟨0x3FF0000000000000#64, 0xBD6921FB54442D18#64⟩,
      ⟨0x3FF0000000000000#64, 0xBD5921FB54442D18#64⟩] ∧
  (List.range' 45 16).map (romEntry .exact) =
    [ ⟨0x3FF0000000000000#64, 0xBD4921FB54442D18#64⟩, ⟨0x3FF0000000000000#64, 0xBD3921FB54442D18#64⟩,
      ⟨0x3FF0000000000000#64, 0xBD2921FB54442D18#64⟩, ⟨0x3FF0000000000000#64, 0xBD1921FB54442D18#64⟩,
      ⟨0x3FF0000000000000#64, 0xBD0921FB54442D18#64⟩, ⟨0x3FF0000000000000#64, 0xBCF921FB54442D18#64⟩,
      ⟨0x3FF0000000000000#64, 0xBCE921FB54442D18#64⟩, ⟨0x3FF0000000000000#64, 0xBCD921FB54442D18#64⟩,
      ⟨0x3FF0000000000000#64, 0xBCC921FB54442D18#64⟩, ⟨0x3FF0000000000000#64, 0xBCB921FB54442D18#64⟩,
      ⟨0x3FF0000000000000#64, 0xBCA921FB54442D18#64⟩, ⟨0x3FF0000000000000#64, 0xBC9921FB54442D18#64⟩,
      ⟨0x3FF0000000000000#64, 0xBC8921FB54442D18#64⟩, ⟨0x3FF0000000000000#64, 0xBC7921FB54442D18#64⟩,
      ⟨0x3FF0000000000000#64, 0xBC6921FB54442D18#64⟩, ⟨0x3FF0000000000000#64, 0xBC5921FB54442D18#64⟩] ∧
  romEntry .piD 0 = ⟨0x3FF0000000000000#64, 0x3CB1A62633145C07#64⟩ ∧
  romEntry .piD 1 = ⟨0xBFF0000000000000#64, 0xBCA1A62633145C07#64⟩ ∧
  romEntry .piD 2 = ⟨0x3C91A62633145C07#64, 0xBFF0000000000000#64⟩ ∧
  romEntry .piD 3 = ⟨0x3FE6A09E667F3BCD#64, 0xBFE6A09E667F3BCC#64⟩ ∧
  romEntry .piD 5 = ⟨0x3FEF6297CFF75CB0#64, 0xBFC8F8B83C69A60A#64⟩ ∧
  romEntry .piD 12 = ⟨0x3FEFFFFD88586EE6#64, 0xBF5921FAAEE6472D#64⟩ ∧
  romEntry .piD 15 = ⟨0x3FEFFFFFF621619C#64, 0xBF2921FB51AEB57B#64⟩ ∧
  romEntry .piD 19 = ⟨0x3FEFFFFFFFF62162#64, 0xBEE921FB544197A0#64⟩ ∧
  romEntry .piD 27 = ⟨0x3FEFFFFFFFFFFFF6#64, 0xBE6921FB54442D15#64⟩ ∧
  romEntry .piD 28 = ⟨0x3FEFFFFFFFFFFFFE#64, 0xBE5921FB54442D17#64⟩ ∧
  ∀ i ≤ 60, i ∉ [0, 1, 2, 3, 5, 12, 15, 19, 27, 28] → romEntry .piD i = romEntry .exact i
end

