-- ==== Sys2Proof/Laws/Memory.lean ====
section
/-! SUPPORT. The laws of the sample-bank memory: a read after a write, what a write leaves alone, and that every operation
keeps the canonical form. -/

namespace Sys2Proof.Machine

/-! ### Bytes -/

@[simp] theorem Memory.readByte_nil (a : Nat) : Memory.readByte [] a = none := rfl

theorem Memory.readByte_writeByte (m : Memory) (a a' : Nat) (b : Byte) :
    (m.writeByte a b).readByte a' = if a' = a then some b else m.readByte a' := by
  induction m with
  | nil => simp [Memory.writeByte, Memory.readByte, eq_comm]
  | cons x m ih =>
    obtain ⟨k, v⟩ := x
    simp only [Memory.writeByte]
    split
    · rename_i h
      simp only [Memory.readByte, ih]
      split <;> split <;> first | rfl | omega
    · split
      · subst_vars
        simp only [Memory.readByte]
        split <;> split <;> first | rfl | omega
      · simp only [Memory.readByte, eq_comm]

theorem Memory.mem_writeByte {m : Memory} {a : Nat} {b : Byte} {x : Host.Cell} (h : x ∈ m.writeByte a b) :
    x = (a, b) ∨ x ∈ m := by
  induction m with
  | nil => simpa [Memory.writeByte] using h
  | cons y m ih =>
    obtain ⟨k, v⟩ := y
    simp only [Memory.writeByte] at h
    split at h
    · rcases List.mem_cons.1 h with h | h
      · exact .inr (h ▸ List.mem_cons_self)
      · exact (ih h).imp id (List.mem_cons_of_mem _)
    · split at h
      · exact (List.mem_cons.1 h).imp id (List.mem_cons_of_mem _)
      · exact List.mem_cons.1 h

theorem Memory.writeByte_wf {m : Memory} (h : m.wf) (a : Nat) (b : Byte) : (m.writeByte a b).wf := by
  induction m with
  | nil => simp [Memory.writeByte]
  | cons y m ih =>
    obtain ⟨k, v⟩ := y
    obtain ⟨hk, hm⟩ := List.pairwise_cons.1 h
    simp only [Memory.writeByte]
    split
    · rename_i hlt
      refine List.pairwise_cons.2 ⟨fun x hx => ?_, ih hm⟩
      rcases Memory.mem_writeByte hx with rfl | hx
      · exact hlt
      · exact hk x hx
    · split
      · subst_vars
        exact List.pairwise_cons.2 ⟨hk, hm⟩
      · refine List.pairwise_cons.2 ⟨fun x hx => ?_, h⟩
        rcases List.mem_cons.1 hx with rfl | hx
        · simp only; omega
        · have := hk x hx
          simp only at this ⊢; omega

/-- A byte reads as a value exactly if its address is listed. -/
theorem Memory.readByte_isSome {m : Memory} {a : Nat} : (m.readByte a).isSome ↔ ∃ b, (a, b) ∈ m := by
  induction m with
  | nil => simp
  | cons y m ih =>
    obtain ⟨k, v⟩ := y
    simp only [Memory.readByte, List.mem_cons, Prod.mk.injEq]
    split
    · subst_vars
      exact ⟨fun _ => ⟨v, .inl ⟨rfl, rfl⟩⟩, fun _ => rfl⟩
    · rename_i hne
      rw [ih]
      exact ⟨fun ⟨b, hb⟩ => ⟨b, .inr hb⟩,
        fun ⟨b, hb⟩ => ⟨b, hb.resolve_left fun h => hne h.1.symm⟩⟩

/-! ### Words -/

/-- What the lanes `t .. t+k-1` of a write leave at an address. -/
theorem Memory.readByte_writeLanes (m : Memory) (a : Nat) (v : Word) (t k a' : Nat) :
    (m.writeLanes a v t k).readByte a' =
      if a + t ≤ a' ∧ a' < a + t + k then some (lane v (a' - a)) else m.readByte a' := by
  induction k generalizing m t with
  | zero =>
    simp only [Memory.writeLanes]
    split
    · omega
    · rfl
  | succ k ih =>
    simp only [Memory.writeLanes, ih, Memory.readByte_writeByte]
    by_cases h : a' = a + t
    · subst h
      simp
    · simp only [h, if_false]
      split <;> split <;> first | rfl | omega

theorem Memory.readByte_writeWord (m : Memory) (a : Nat) (v : Word) (a' : Nat) :
    (m.writeWord a v).readByte a' = if a ≤ a' ∧ a' < a + 8 then some (lane v (a' - a)) else m.readByte a' := by
  simp [Memory.writeWord, Memory.readByte_writeLanes]

theorem Memory.writeLanes_wf {m : Memory} (h : m.wf) (a : Nat) (v : Word) (t k : Nat) : (m.writeLanes a v t k).wf := by
  induction k generalizing m t with
  | zero => exact h
  | succ k ih => exact ih (Memory.writeByte_wf h _ _) _

theorem Memory.writeWord_wf {m : Memory} (h : m.wf) (a : Nat) (v : Word) : (m.writeWord a v).wf :=
  Memory.writeLanes_wf h a v 0 8

/-- The lanes of a word make up the word (R63). -/
theorem ofLanes_lane (v : Word) :
    ofLanes (lane v 0) (lane v 1) (lane v 2) (lane v 3) (lane v 4) (lane v 5) (lane v 6) (lane v 7) = v := by
  apply BitVec.eq_of_toNat_eq
  have := v.isLt
  simp only [ofLanes, lane, BitVec.toNat_ofNat]
  omega

/-- The word read back after a write of that word. -/
theorem Memory.readWord_writeWord_same (m : Memory) (a : Nat) (v : Word) : (m.writeWord a v).readWord a = some v := by
  simp [Memory.readWord, Memory.readByte_writeWord, ofLanes_lane]

/-- A read depends on the eight bytes it reads. -/
theorem Memory.readWord_congr {m m' : Memory} {a : Nat} (h : ∀ t < 8, m.readByte (a + t) = m'.readByte (a + t)) :
    m.readWord a = m'.readWord a := by
  have h0 := h 0 (by omega)
  simp only [Nat.add_zero] at h0
  simp only [Memory.readWord, h0, h 1 (by omega), h 2 (by omega), h 3 (by omega), h 4 (by omega), h 5 (by omega),
    h 6 (by omega), h 7 (by omega)]

/-- A write leaves every word that does not overlap it as it was. -/
theorem Memory.readWord_writeWord_disjoint (m : Memory) {a a' : Nat} (v : Word) (h : a' + 8 ≤ a ∨ a + 8 ≤ a') :
    (m.writeWord a v).readWord a' = m.readWord a' := by
  refine Memory.readWord_congr fun t ht => ?_
  rw [Memory.readByte_writeWord, if_neg (by omega)]

/-! ### Elements -/

/-- The bytes outside the elements written are as they were. -/
theorem Memory.readByte_writeElems (m : Memory) (a : Nat) (zs : List Cplx) {a' : Nat}
    (h : a' < a ∨ a + 16 * zs.length ≤ a') : (m.writeElems a zs).readByte a' = m.readByte a' := by
  induction zs generalizing m a with
  | nil => rfl
  | cons z zs ih =>
    simp only [List.length_cons] at h
    rw [Memory.writeElems, ih _ _ (by omega), Memory.readByte_writeWord, if_neg (by omega),
      Memory.readByte_writeWord, if_neg (by omega)]

theorem Memory.writeElems_wf {m : Memory} (h : m.wf) (a : Nat) (zs : List Cplx) : (m.writeElems a zs).wf := by
  induction zs generalizing m a with
  | nil => exact h
  | cons z zs ih => exact ih (Memory.writeWord_wf (Memory.writeWord_wf h _ _) _ _) _

theorem Memory.readWord_writeElems_before (m : Memory) (a : Nat) (zs : List Cplx) {a' : Nat} (h : a' + 8 ≤ a) :
    (m.writeElems a zs).readWord a' = m.readWord a' :=
  Memory.readWord_congr fun t ht => Memory.readByte_writeElems m a zs (by omega)

/-- Element `k` of what was written reads back. -/
theorem Memory.readWord_writeElems (m : Memory) (a : Nat) (zs : List Cplx) (k : Nat) (h : k < zs.length) :
    (m.writeElems a zs).readWord (a + 16 * k) = some zs[k].re ∧
      (m.writeElems a zs).readWord (a + 16 * k + 8) = some zs[k].im := by
  induction zs generalizing m a k with
  | nil => simp at h
  | cons z zs ih =>
    rw [Memory.writeElems]
    cases k with
    | zero =>
      simp only [Nat.mul_zero, Nat.add_zero, List.getElem_cons_zero]
      constructor
      · rw [Memory.readWord_writeElems_before _ _ _ (by omega), Memory.readWord_writeWord_disjoint _ _ (by omega),
          Memory.readWord_writeWord_same]
      · rw [Memory.readWord_writeElems_before _ _ _ (by omega), Memory.readWord_writeWord_same]
    | succ k =>
      have := ih ((m.writeWord a z.re).writeWord (a + 8) z.im) (a + 16) k (by simpa using h)
      rw [show a + 16 * (k + 1) = a + 16 + 16 * k by omega]
      simpa using this

/-- What a snapshot of `n` elements is: `n` elements, each the two words at its place. -/
theorem Memory.readElems_eq_some {m : Memory} {a n : Nat} {zs : List Cplx} (h : m.readElems a n = some zs) :
    zs.length = n ∧ ∀ k, (hk : k < zs.length) →
      m.readWord (a + 16 * k) = some zs[k].re ∧ m.readWord (a + 16 * k + 8) = some zs[k].im := by
  induction n generalizing a zs with
  | zero =>
    simp only [Memory.readElems, Option.some.injEq] at h
    subst h
    simp
  | succ n ih =>
    simp only [Memory.readElems] at h
    split at h
    · rename_i re im ws h1 h2 h3
      obtain rfl := Option.some.inj h
      obtain ⟨hl, hw⟩ := ih h3
      refine ⟨by simp [hl], fun k hk => ?_⟩
      cases k with
      | zero => simpa using ⟨h1, h2⟩
      | succ k =>
        have := hw k (by simpa using hk)
        rw [show a + 16 * (k + 1) = a + 16 + 16 * k by omega]
        simpa using this
    · exact absurd h (by simp)

/-- A snapshot exists if every word of it has been written. -/
theorem Memory.readElems_isSome {m : Memory} {a n : Nat}
    (h : ∀ k < n, (m.readWord (a + 16 * k)).isSome ∧ (m.readWord (a + 16 * k + 8)).isSome) :
    ∃ zs, m.readElems a n = some zs := by
  induction n generalizing a with
  | zero => exact ⟨[], rfl⟩
  | succ n ih =>
    obtain ⟨zs, hz⟩ := ih (a := a + 16) fun k hk => by
      have := h (k + 1) (by omega)
      rwa [show a + 16 * (k + 1) = a + 16 + 16 * k by omega] at this
    obtain ⟨h0, h8⟩ := h 0 (by omega)
    simp only [Nat.mul_zero, Nat.add_zero] at h0 h8
    obtain ⟨re, hre⟩ := Option.isSome_iff_exists.1 h0
    obtain ⟨im, him⟩ := Option.isSome_iff_exists.1 h8
    exact ⟨⟨re, im⟩ :: zs, by simp [Memory.readElems, hre, him, hz]⟩

/-- No snapshot means that some word of it has not been written. -/
theorem Memory.readElems_eq_none {m : Memory} {a n : Nat} (h : m.readElems a n = none) :
    ∃ k < n, m.readWord (a + 16 * k) = none ∨ m.readWord (a + 16 * k + 8) = none := by
  by_contra hc
  push Not at hc
  obtain ⟨zs, hz⟩ := Memory.readElems_isSome (m := m) (a := a) (n := n) fun k hk => by
    have := hc k hk
    exact ⟨Option.isSome_iff_ne_none.2 this.1, Option.isSome_iff_ne_none.2 this.2⟩
  simp [hz] at h

end Sys2Proof.Machine
end

