-- ==== Sys2Proof/Laws/State.lean ====
section
/-! SUPPORT. One lemma per field for each named update of State, so that no proof unfolds an update. -/

namespace Sys2Proof.Machine

/-! ### The start step -/

@[simp] theorem State.start_params (s : State) (w : CmdWord) (n : BitVec 32) : (s.start w n).params = s.params := rfl
@[simp] theorem State.start_cmd (s : State) (w : CmdWord) (n : BitVec 32) : (s.start w n).cmd = s.cmd := rfl
@[simp] theorem State.start_len (s : State) (w : CmdWord) (n : BitVec 32) : (s.start w n).len = s.len := rfl
@[simp] theorem State.start_irqEn (s : State) (w : CmdWord) (n : BitVec 32) : (s.start w n).irqEn = s.irqEn := rfl
@[simp] theorem State.start_busy (s : State) (w : CmdWord) (n : BitVec 32) : (s.start w n).busy = true := rfl
@[simp] theorem State.start_done (s : State) (w : CmdWord) (n : BitVec 32) : (s.start w n).done = false := rfl
@[simp] theorem State.start_err (s : State) (w : CmdWord) (n : BitVec 32) : (s.start w n).err = false := rfl
@[simp] theorem State.start_accessErr (s : State) (w : CmdWord) (n : BitVec 32) : (s.start w n).accessErr = s.accessErr := rfl
@[simp] theorem State.start_path (s : State) (w : CmdWord) (n : BitVec 32) : (s.start w n).path = false := rfl
@[simp] theorem State.start_errCode (s : State) (w : CmdWord) (n : BitVec 32) : (s.start w n).errCode = 0 := rfl
@[simp] theorem State.start_errInfo (s : State) (w : CmdWord) (n : BitVec 32) : (s.start w n).errInfo = s.errInfo := rfl
@[simp] theorem State.start_resRe (s : State) (w : CmdWord) (n : BitVec 32) : (s.start w n).resRe = s.resRe := rfl
@[simp] theorem State.start_resIm (s : State) (w : CmdWord) (n : BitVec 32) : (s.start w n).resIm = s.resIm := rfl
@[simp] theorem State.start_cmdl (s : State) (w : CmdWord) (n : BitVec 32) : (s.start w n).cmdl = w := rfl
@[simp] theorem State.start_lenl (s : State) (w : CmdWord) (n : BitVec 32) : (s.start w n).lenl = n := rfl
@[simp] theorem State.start_mem (s : State) (w : CmdWord) (n : BitVec 32) : (s.start w n).mem = s.mem := rfl
@[simp] theorem State.start_scratchGen (s : State) (w : CmdWord) (n : BitVec 32) : (s.start w n).scratchGen = s.scratchGen := rfl
@[simp] theorem State.start_draws (s : State) (w : CmdWord) (n : BitVec 32) : (s.start w n).draws = s.draws := rfl
@[simp] theorem State.start_rdata (s : State) (w : CmdWord) (n : BitVec 32) : (s.start w n).rdata = s.rdata := rfl
@[simp] theorem State.start_inReset (s : State) (w : CmdWord) (n : BitVec 32) : (s.start w n).inReset = s.inReset := rfl
@[simp] theorem State.start_turns (s : State) (w : CmdWord) (n : BitVec 32) : (s.start w n).turns = s.turns := rfl

/-! ### The end of a command -/

@[simp] theorem State.endCommand_params (s : State) (p : Bool) : (s.endCommand p).params = s.params := rfl
@[simp] theorem State.endCommand_cmd (s : State) (p : Bool) : (s.endCommand p).cmd = s.cmd := rfl
@[simp] theorem State.endCommand_len (s : State) (p : Bool) : (s.endCommand p).len = s.len := rfl
@[simp] theorem State.endCommand_irqEn (s : State) (p : Bool) : (s.endCommand p).irqEn = s.irqEn := rfl
@[simp] theorem State.endCommand_busy (s : State) (p : Bool) : (s.endCommand p).busy = false := rfl
@[simp] theorem State.endCommand_done (s : State) (p : Bool) : (s.endCommand p).done = true := rfl
@[simp] theorem State.endCommand_err (s : State) (p : Bool) : (s.endCommand p).err = s.err := rfl
@[simp] theorem State.endCommand_accessErr (s : State) (p : Bool) : (s.endCommand p).accessErr = s.accessErr := rfl
@[simp] theorem State.endCommand_path (s : State) (p : Bool) : (s.endCommand p).path = p := rfl
@[simp] theorem State.endCommand_errCode (s : State) (p : Bool) : (s.endCommand p).errCode = s.errCode := rfl
@[simp] theorem State.endCommand_errInfo (s : State) (p : Bool) : (s.endCommand p).errInfo = s.errInfo := rfl
@[simp] theorem State.endCommand_resRe (s : State) (p : Bool) : (s.endCommand p).resRe = s.resRe := rfl
@[simp] theorem State.endCommand_resIm (s : State) (p : Bool) : (s.endCommand p).resIm = s.resIm := rfl
@[simp] theorem State.endCommand_cmdl (s : State) (p : Bool) : (s.endCommand p).cmdl = s.cmdl := rfl
@[simp] theorem State.endCommand_lenl (s : State) (p : Bool) : (s.endCommand p).lenl = s.lenl := rfl
@[simp] theorem State.endCommand_mem (s : State) (p : Bool) : (s.endCommand p).mem = s.mem := rfl
@[simp] theorem State.endCommand_scratchGen (s : State) (p : Bool) : (s.endCommand p).scratchGen = s.scratchGen := rfl
@[simp] theorem State.endCommand_draws (s : State) (p : Bool) : (s.endCommand p).draws = s.draws + 1 := rfl
@[simp] theorem State.endCommand_rdata (s : State) (p : Bool) : (s.endCommand p).rdata = s.rdata := rfl
@[simp] theorem State.endCommand_inReset (s : State) (p : Bool) : (s.endCommand p).inReset = s.inReset := rfl
@[simp] theorem State.endCommand_turns (s : State) (p : Bool) : (s.endCommand p).turns = s.turns := rfl

/-! ### The bank commit -/

@[simp] theorem State.commit_params (s : State) (d : Nat) (zs : List Cplx) : (s.commit d zs).params = s.params := rfl
@[simp] theorem State.commit_cmd (s : State) (d : Nat) (zs : List Cplx) : (s.commit d zs).cmd = s.cmd := rfl
@[simp] theorem State.commit_len (s : State) (d : Nat) (zs : List Cplx) : (s.commit d zs).len = s.len := rfl
@[simp] theorem State.commit_irqEn (s : State) (d : Nat) (zs : List Cplx) : (s.commit d zs).irqEn = s.irqEn := rfl
@[simp] theorem State.commit_busy (s : State) (d : Nat) (zs : List Cplx) : (s.commit d zs).busy = s.busy := rfl
@[simp] theorem State.commit_done (s : State) (d : Nat) (zs : List Cplx) : (s.commit d zs).done = s.done := rfl
@[simp] theorem State.commit_err (s : State) (d : Nat) (zs : List Cplx) : (s.commit d zs).err = s.err := rfl
@[simp] theorem State.commit_accessErr (s : State) (d : Nat) (zs : List Cplx) : (s.commit d zs).accessErr = s.accessErr := rfl
@[simp] theorem State.commit_path (s : State) (d : Nat) (zs : List Cplx) : (s.commit d zs).path = s.path := rfl
@[simp] theorem State.commit_errCode (s : State) (d : Nat) (zs : List Cplx) : (s.commit d zs).errCode = s.errCode := rfl
@[simp] theorem State.commit_errInfo (s : State) (d : Nat) (zs : List Cplx) : (s.commit d zs).errInfo = s.errInfo := rfl
@[simp] theorem State.commit_resRe (s : State) (d : Nat) (zs : List Cplx) : (s.commit d zs).resRe = s.resRe := rfl
@[simp] theorem State.commit_resIm (s : State) (d : Nat) (zs : List Cplx) : (s.commit d zs).resIm = s.resIm := rfl
@[simp] theorem State.commit_cmdl (s : State) (d : Nat) (zs : List Cplx) : (s.commit d zs).cmdl = s.cmdl := rfl
@[simp] theorem State.commit_lenl (s : State) (d : Nat) (zs : List Cplx) : (s.commit d zs).lenl = s.lenl := rfl
@[simp] theorem State.commit_mem (s : State) (d : Nat) (zs : List Cplx) : (s.commit d zs).mem = s.mem.writeElems (elemOffset s.params d 0) zs := rfl
@[simp] theorem State.commit_scratchGen (s : State) (d : Nat) (zs : List Cplx) : (s.commit d zs).scratchGen = s.scratchGen := rfl
@[simp] theorem State.commit_draws (s : State) (d : Nat) (zs : List Cplx) : (s.commit d zs).draws = s.draws := rfl
@[simp] theorem State.commit_rdata (s : State) (d : Nat) (zs : List Cplx) : (s.commit d zs).rdata = s.rdata := rfl
@[simp] theorem State.commit_inReset (s : State) (d : Nat) (zs : List Cplx) : (s.commit d zs).inReset = s.inReset := rfl
@[simp] theorem State.commit_turns (s : State) (d : Nat) (zs : List Cplx) : (s.commit d zs).turns = s.turns := rfl

/-! ### The result registers -/

@[simp] theorem State.writeResult_params (s : State) (z : Cplx) : (s.writeResult z).params = s.params := rfl
@[simp] theorem State.writeResult_cmd (s : State) (z : Cplx) : (s.writeResult z).cmd = s.cmd := rfl
@[simp] theorem State.writeResult_len (s : State) (z : Cplx) : (s.writeResult z).len = s.len := rfl
@[simp] theorem State.writeResult_irqEn (s : State) (z : Cplx) : (s.writeResult z).irqEn = s.irqEn := rfl
@[simp] theorem State.writeResult_busy (s : State) (z : Cplx) : (s.writeResult z).busy = s.busy := rfl
@[simp] theorem State.writeResult_done (s : State) (z : Cplx) : (s.writeResult z).done = s.done := rfl
@[simp] theorem State.writeResult_err (s : State) (z : Cplx) : (s.writeResult z).err = s.err := rfl
@[simp] theorem State.writeResult_accessErr (s : State) (z : Cplx) : (s.writeResult z).accessErr = s.accessErr := rfl
@[simp] theorem State.writeResult_path (s : State) (z : Cplx) : (s.writeResult z).path = s.path := rfl
@[simp] theorem State.writeResult_errCode (s : State) (z : Cplx) : (s.writeResult z).errCode = s.errCode := rfl
@[simp] theorem State.writeResult_errInfo (s : State) (z : Cplx) : (s.writeResult z).errInfo = s.errInfo := rfl
@[simp] theorem State.writeResult_resRe (s : State) (z : Cplx) : (s.writeResult z).resRe = z.re := rfl
@[simp] theorem State.writeResult_resIm (s : State) (z : Cplx) : (s.writeResult z).resIm = z.im := rfl
@[simp] theorem State.writeResult_cmdl (s : State) (z : Cplx) : (s.writeResult z).cmdl = s.cmdl := rfl
@[simp] theorem State.writeResult_lenl (s : State) (z : Cplx) : (s.writeResult z).lenl = s.lenl := rfl
@[simp] theorem State.writeResult_mem (s : State) (z : Cplx) : (s.writeResult z).mem = s.mem := rfl
@[simp] theorem State.writeResult_scratchGen (s : State) (z : Cplx) : (s.writeResult z).scratchGen = s.scratchGen := rfl
@[simp] theorem State.writeResult_draws (s : State) (z : Cplx) : (s.writeResult z).draws = s.draws := rfl
@[simp] theorem State.writeResult_rdata (s : State) (z : Cplx) : (s.writeResult z).rdata = s.rdata := rfl
@[simp] theorem State.writeResult_inReset (s : State) (z : Cplx) : (s.writeResult z).inReset = s.inReset := rfl
@[simp] theorem State.writeResult_turns (s : State) (z : Cplx) : (s.writeResult z).turns = s.turns := rfl

/-! ### A refused access -/

@[simp] theorem State.refuseAccess_params (s : State) : (s.refuseAccess).params = s.params := rfl
@[simp] theorem State.refuseAccess_cmd (s : State) : (s.refuseAccess).cmd = s.cmd := rfl
@[simp] theorem State.refuseAccess_len (s : State) : (s.refuseAccess).len = s.len := rfl
@[simp] theorem State.refuseAccess_irqEn (s : State) : (s.refuseAccess).irqEn = s.irqEn := rfl
@[simp] theorem State.refuseAccess_busy (s : State) : (s.refuseAccess).busy = s.busy := rfl
@[simp] theorem State.refuseAccess_done (s : State) : (s.refuseAccess).done = s.done := rfl
@[simp] theorem State.refuseAccess_err (s : State) : (s.refuseAccess).err = s.err := rfl
@[simp] theorem State.refuseAccess_accessErr (s : State) : (s.refuseAccess).accessErr = true := rfl
@[simp] theorem State.refuseAccess_path (s : State) : (s.refuseAccess).path = s.path := rfl
@[simp] theorem State.refuseAccess_errCode (s : State) : (s.refuseAccess).errCode = s.errCode := rfl
@[simp] theorem State.refuseAccess_errInfo (s : State) : (s.refuseAccess).errInfo = s.errInfo := rfl
@[simp] theorem State.refuseAccess_resRe (s : State) : (s.refuseAccess).resRe = s.resRe := rfl
@[simp] theorem State.refuseAccess_resIm (s : State) : (s.refuseAccess).resIm = s.resIm := rfl
@[simp] theorem State.refuseAccess_cmdl (s : State) : (s.refuseAccess).cmdl = s.cmdl := rfl
@[simp] theorem State.refuseAccess_lenl (s : State) : (s.refuseAccess).lenl = s.lenl := rfl
@[simp] theorem State.refuseAccess_mem (s : State) : (s.refuseAccess).mem = s.mem := rfl
@[simp] theorem State.refuseAccess_scratchGen (s : State) : (s.refuseAccess).scratchGen = s.scratchGen := rfl
@[simp] theorem State.refuseAccess_draws (s : State) : (s.refuseAccess).draws = s.draws := rfl
@[simp] theorem State.refuseAccess_rdata (s : State) : (s.refuseAccess).rdata = s.rdata := rfl
@[simp] theorem State.refuseAccess_inReset (s : State) : (s.refuseAccess).inReset = s.inReset := rfl
@[simp] theorem State.refuseAccess_turns (s : State) : (s.refuseAccess).turns = s.turns := rfl

/-! ### A completed read -/

@[simp] theorem State.returns_params (s : State) (v : Word) : (s.returns v).params = s.params := rfl
@[simp] theorem State.returns_cmd (s : State) (v : Word) : (s.returns v).cmd = s.cmd := rfl
@[simp] theorem State.returns_len (s : State) (v : Word) : (s.returns v).len = s.len := rfl
@[simp] theorem State.returns_irqEn (s : State) (v : Word) : (s.returns v).irqEn = s.irqEn := rfl
@[simp] theorem State.returns_busy (s : State) (v : Word) : (s.returns v).busy = s.busy := rfl
@[simp] theorem State.returns_done (s : State) (v : Word) : (s.returns v).done = s.done := rfl
@[simp] theorem State.returns_err (s : State) (v : Word) : (s.returns v).err = s.err := rfl
@[simp] theorem State.returns_accessErr (s : State) (v : Word) : (s.returns v).accessErr = s.accessErr := rfl
@[simp] theorem State.returns_path (s : State) (v : Word) : (s.returns v).path = s.path := rfl
@[simp] theorem State.returns_errCode (s : State) (v : Word) : (s.returns v).errCode = s.errCode := rfl
@[simp] theorem State.returns_errInfo (s : State) (v : Word) : (s.returns v).errInfo = s.errInfo := rfl
@[simp] theorem State.returns_resRe (s : State) (v : Word) : (s.returns v).resRe = s.resRe := rfl
@[simp] theorem State.returns_resIm (s : State) (v : Word) : (s.returns v).resIm = s.resIm := rfl
@[simp] theorem State.returns_cmdl (s : State) (v : Word) : (s.returns v).cmdl = s.cmdl := rfl
@[simp] theorem State.returns_lenl (s : State) (v : Word) : (s.returns v).lenl = s.lenl := rfl
@[simp] theorem State.returns_mem (s : State) (v : Word) : (s.returns v).mem = s.mem := rfl
@[simp] theorem State.returns_scratchGen (s : State) (v : Word) : (s.returns v).scratchGen = s.scratchGen := rfl
@[simp] theorem State.returns_draws (s : State) (v : Word) : (s.returns v).draws = s.draws := rfl
@[simp] theorem State.returns_rdata (s : State) (v : Word) : (s.returns v).rdata = v := rfl
@[simp] theorem State.returns_inReset (s : State) (v : Word) : (s.returns v).inReset = s.inReset := rfl
@[simp] theorem State.returns_turns (s : State) (v : Word) : (s.returns v).turns = s.turns := rfl

/-! ### The use of the scratch -/

@[simp] theorem State.useScratch_params (s : State) (u : Bool) : (s.useScratch u).params = s.params := by
  cases u <;> rfl
@[simp] theorem State.useScratch_cmd (s : State) (u : Bool) : (s.useScratch u).cmd = s.cmd := by
  cases u <;> rfl
@[simp] theorem State.useScratch_len (s : State) (u : Bool) : (s.useScratch u).len = s.len := by
  cases u <;> rfl
@[simp] theorem State.useScratch_irqEn (s : State) (u : Bool) : (s.useScratch u).irqEn = s.irqEn := by
  cases u <;> rfl
@[simp] theorem State.useScratch_busy (s : State) (u : Bool) : (s.useScratch u).busy = s.busy := by
  cases u <;> rfl
@[simp] theorem State.useScratch_done (s : State) (u : Bool) : (s.useScratch u).done = s.done := by
  cases u <;> rfl
@[simp] theorem State.useScratch_err (s : State) (u : Bool) : (s.useScratch u).err = s.err := by
  cases u <;> rfl
@[simp] theorem State.useScratch_accessErr (s : State) (u : Bool) : (s.useScratch u).accessErr = s.accessErr := by
  cases u <;> rfl
@[simp] theorem State.useScratch_path (s : State) (u : Bool) : (s.useScratch u).path = s.path := by
  cases u <;> rfl
@[simp] theorem State.useScratch_errCode (s : State) (u : Bool) : (s.useScratch u).errCode = s.errCode := by
  cases u <;> rfl
@[simp] theorem State.useScratch_errInfo (s : State) (u : Bool) : (s.useScratch u).errInfo = s.errInfo := by
  cases u <;> rfl
@[simp] theorem State.useScratch_resRe (s : State) (u : Bool) : (s.useScratch u).resRe = s.resRe := by
  cases u <;> rfl
@[simp] theorem State.useScratch_resIm (s : State) (u : Bool) : (s.useScratch u).resIm = s.resIm := by
  cases u <;> rfl
@[simp] theorem State.useScratch_cmdl (s : State) (u : Bool) : (s.useScratch u).cmdl = s.cmdl := by
  cases u <;> rfl
@[simp] theorem State.useScratch_lenl (s : State) (u : Bool) : (s.useScratch u).lenl = s.lenl := by
  cases u <;> rfl
@[simp] theorem State.useScratch_mem (s : State) (u : Bool) : (s.useScratch u).mem = s.mem := by
  cases u <;> rfl
@[simp] theorem State.useScratch_scratchGen (s : State) (u : Bool) : (s.useScratch u).scratchGen = if u then s.scratchGen + 1 else s.scratchGen := by
  cases u <;> rfl
@[simp] theorem State.useScratch_draws (s : State) (u : Bool) : (s.useScratch u).draws = s.draws := by
  cases u <;> rfl
@[simp] theorem State.useScratch_rdata (s : State) (u : Bool) : (s.useScratch u).rdata = s.rdata := by
  cases u <;> rfl
@[simp] theorem State.useScratch_inReset (s : State) (u : Bool) : (s.useScratch u).inReset = s.inReset := by
  cases u <;> rfl
@[simp] theorem State.useScratch_turns (s : State) (u : Bool) : (s.useScratch u).turns = s.turns := by
  cases u <;> rfl

/-! ### The acknowledge -/

@[simp] theorem State.acknowledge_params (s : State) : (s.acknowledge).params = s.params := by
  unfold State.acknowledge; split <;> simp_all
@[simp] theorem State.acknowledge_cmd (s : State) : (s.acknowledge).cmd = s.cmd := by
  unfold State.acknowledge; split <;> simp_all
@[simp] theorem State.acknowledge_len (s : State) : (s.acknowledge).len = s.len := by
  unfold State.acknowledge; split <;> simp_all
@[simp] theorem State.acknowledge_irqEn (s : State) : (s.acknowledge).irqEn = s.irqEn := by
  unfold State.acknowledge; split <;> simp_all
@[simp] theorem State.acknowledge_busy (s : State) : (s.acknowledge).busy = s.busy := by
  unfold State.acknowledge; split <;> simp_all
@[simp] theorem State.acknowledge_done (s : State) : (s.acknowledge).done = false := by
  unfold State.acknowledge; split <;> simp_all
@[simp] theorem State.acknowledge_err (s : State) : (s.acknowledge).err = if s.done then false else s.err := by
  unfold State.acknowledge; split <;> simp_all
@[simp] theorem State.acknowledge_accessErr (s : State) : (s.acknowledge).accessErr = s.accessErr := by
  unfold State.acknowledge; split <;> simp_all
@[simp] theorem State.acknowledge_path (s : State) : (s.acknowledge).path = s.path := by
  unfold State.acknowledge; split <;> simp_all
@[simp] theorem State.acknowledge_errCode (s : State) : (s.acknowledge).errCode = if s.done then 0 else s.errCode := by
  unfold State.acknowledge; split <;> simp_all
@[simp] theorem State.acknowledge_errInfo (s : State) : (s.acknowledge).errInfo = s.errInfo := by
  unfold State.acknowledge; split <;> simp_all
@[simp] theorem State.acknowledge_resRe (s : State) : (s.acknowledge).resRe = s.resRe := by
  unfold State.acknowledge; split <;> simp_all
@[simp] theorem State.acknowledge_resIm (s : State) : (s.acknowledge).resIm = s.resIm := by
  unfold State.acknowledge; split <;> simp_all
@[simp] theorem State.acknowledge_cmdl (s : State) : (s.acknowledge).cmdl = s.cmdl := by
  unfold State.acknowledge; split <;> simp_all
@[simp] theorem State.acknowledge_lenl (s : State) : (s.acknowledge).lenl = s.lenl := by
  unfold State.acknowledge; split <;> simp_all
@[simp] theorem State.acknowledge_mem (s : State) : (s.acknowledge).mem = s.mem := by
  unfold State.acknowledge; split <;> simp_all
@[simp] theorem State.acknowledge_scratchGen (s : State) : (s.acknowledge).scratchGen = s.scratchGen := by
  unfold State.acknowledge; split <;> simp_all
@[simp] theorem State.acknowledge_draws (s : State) : (s.acknowledge).draws = s.draws := by
  unfold State.acknowledge; split <;> simp_all
@[simp] theorem State.acknowledge_rdata (s : State) : (s.acknowledge).rdata = s.rdata := by
  unfold State.acknowledge; split <;> simp_all
@[simp] theorem State.acknowledge_inReset (s : State) : (s.acknowledge).inReset = s.inReset := by
  unfold State.acknowledge; split <;> simp_all
@[simp] theorem State.acknowledge_turns (s : State) : (s.acknowledge).turns = s.turns := by
  unfold State.acknowledge; split <;> simp_all

/-! ### Reset -/

@[simp] theorem State.afterReset_params (s : State) : (s.afterReset).params = s.params := rfl
@[simp] theorem State.afterReset_cmd (s : State) : (s.afterReset).cmd = 0 := rfl
@[simp] theorem State.afterReset_len (s : State) : (s.afterReset).len = 0 := rfl
@[simp] theorem State.afterReset_irqEn (s : State) : (s.afterReset).irqEn = false := rfl
@[simp] theorem State.afterReset_busy (s : State) : (s.afterReset).busy = false := rfl
@[simp] theorem State.afterReset_done (s : State) : (s.afterReset).done = false := rfl
@[simp] theorem State.afterReset_err (s : State) : (s.afterReset).err = false := rfl
@[simp] theorem State.afterReset_accessErr (s : State) : (s.afterReset).accessErr = false := rfl
@[simp] theorem State.afterReset_path (s : State) : (s.afterReset).path = false := rfl
@[simp] theorem State.afterReset_errCode (s : State) : (s.afterReset).errCode = 0 := rfl
@[simp] theorem State.afterReset_errInfo (s : State) : (s.afterReset).errInfo = 0 := rfl
@[simp] theorem State.afterReset_resRe (s : State) : (s.afterReset).resRe = 0 := rfl
@[simp] theorem State.afterReset_resIm (s : State) : (s.afterReset).resIm = 0 := rfl
@[simp] theorem State.afterReset_cmdl (s : State) : (s.afterReset).cmdl = 0 := rfl
@[simp] theorem State.afterReset_lenl (s : State) : (s.afterReset).lenl = 0 := rfl
@[simp] theorem State.afterReset_mem (s : State) : (s.afterReset).mem = [] := rfl
@[simp] theorem State.afterReset_scratchGen (s : State) : (s.afterReset).scratchGen = s.scratchGen + 1 := rfl
@[simp] theorem State.afterReset_draws (s : State) : (s.afterReset).draws = s.draws + 1 := rfl
@[simp] theorem State.afterReset_rdata (s : State) : (s.afterReset).rdata = s.rdata := rfl
@[simp] theorem State.afterReset_inReset (s : State) : (s.afterReset).inReset = false := rfl
@[simp] theorem State.afterReset_turns (s : State) : (s.afterReset).turns = s.turns := rfl

/-- The length in flight is untouched by a commit, so a command's own length stays what it was. -/
@[simp] theorem State.commit_n (s : State) (d : Nat) (zs : List Cplx) : (s.commit d zs).n = s.n := rfl
@[simp] theorem State.endCommand_n (s : State) (p : Bool) : (s.endCommand p).n = s.n := rfl
@[simp] theorem State.start_n (s : State) (w : CmdWord) (n : BitVec 32) : (s.start w n).n = n.toNat := rfl

end Sys2Proof.Machine
end

