-- ==== Sys2Proof/Laws/Command.lean ====
section
/-! SUPPORT. What the shared operations of the commands can do: the check list, the two ends of a command, the snapshot and
the commit, and the frame of a bank-to-bank command. The meanings are cited through these lemmas, not unfolded. -/

namespace Sys2Proof.Machine

/-! ### The check list -/

@[simp] theorem firstError_nil : firstError [] = none := rfl

@[simp] theorem firstError_cons (ok : Bool) (e : ErrorCode) (cs : List Check) :
    firstError ((ok, e) :: cs) = if ok then firstError cs else some e := rfl

/-! ### The ends of a command -/

theorem succeed_eq (p : Bool) (s : State) :
    succeed p s = .next { s.endCommand p with err := false, errCode := 0 } := rfl

theorem failCommand_eq (e : ErrorCode) (p : Bool) (s : State) :
    failCommand e p s = .next { s.endCommand p with err := true, errCode := e.code, errInfo := s.lenl ++ s.cmdl } := rfl

/-- A failed command, in the terms of claims. -/
theorem failCommand_failedFrom (e : ErrorCode) (p : Bool) (s : State) :
    ∃ t, failCommand e p s = .next t ∧ FailedFrom s t e p :=
  ⟨_, rfl, rfl⟩

/-- A successful command, in the terms of claims. -/
theorem succeed_completedFrom (p u : Bool) (d : Nat) (zs : List Cplx) (s : State) :
    ∃ t, succeed p ((s.commit d zs).useScratch u) = .next t ∧ CompletedFrom s t p u ∧
      t.mem = s.mem.writeElems (elemOffset s.params d 0) zs := by
  cases u <;> exact ⟨_, rfl, rfl, rfl⟩

/-! ### Elements -/

theorem elemOffset_eq (p : Params) (b k : Nat) : elemOffset p b k = elemOffset p b 0 + 16 * k := by
  simp only [elemOffset]; ring

/-- The elements of two different banks do not overlap. -/
theorem elemOffset_disjoint (p : Params) {b b' k k' : Nat} (h : b ≠ b') (hk : k < p.depth) (hk' : k' < p.depth) :
    elemOffset p b k + 16 ≤ elemOffset p b' k' ∨ elemOffset p b' k' + 16 ≤ elemOffset p b k := by
  simp only [elemOffset]
  rcases Nat.lt_or_gt_of_ne h with h | h
  · left
    have : (b + 1) * p.depth ≤ b' * p.depth := Nat.mul_le_mul_right _ h
    rw [Nat.add_mul, Nat.one_mul] at this
    omega
  · right
    have : (b' + 1) * p.depth ≤ b * p.depth := Nat.mul_le_mul_right _ h
    rw [Nat.add_mul, Nat.one_mul] at this
    omega

/-- A bank element inside the window ends at or before its end. -/
theorem elemOffset_lt_windowEnd (p : Params) {b k : Nat} (hb : b < p.nbanks) (hk : k < p.depth) :
    elemOffset p b k + 16 ≤ windowEnd p := by
  simp only [elemOffset, windowEnd]
  have : (b + 1) * p.depth ≤ p.nbanks * p.depth := Nat.mul_le_mul_right _ hb
  rw [Nat.add_mul, Nat.one_mul] at this
  omega

theorem State.element_eq_some {s : State} {b k : Nat} {z : Cplx} :
    s.element b k = some z ↔
      s.mem.readWord (elemOffset s.params b k) = some z.re ∧ s.mem.readWord (elemOffset s.params b k + 8) = some z.im := by
  unfold State.element
  obtain ⟨re, im⟩ := z
  split <;> simp_all

/-- An element is readable exactly if both its INIT bits are 1. -/
theorem State.element_eq_none {s : State} {b k : Nat} :
    s.element b k = none ↔ ∃ im, s.initBit b k im = false := by
  have e8 : elemOffset s.params b k + (if true then 8 else 0) = elemOffset s.params b k + 8 := rfl
  have e0 : elemOffset s.params b k + (if false then 8 else 0) = elemOffset s.params b k := rfl
  unfold State.element State.initBit
  constructor
  · intro h
    split at h
    · exact absurd h (by simp)
    · rename_i hn
      by_contra hc
      push Not at hc
      have h0 := hc false
      have h1 := hc true
      simp only [Bool.false_eq_true, if_false, if_true, Nat.add_zero, ne_eq, Bool.not_eq_false] at h0 h1
      obtain ⟨re, hre⟩ := Option.isSome_iff_exists.1 h0
      obtain ⟨im, him⟩ := Option.isSome_iff_exists.1 h1
      exact hn _ _ hre him
  · rintro ⟨im, him⟩
    split
    · rename_i h0 h1
      cases im <;> simp_all
    · rfl

/-! ### The snapshot and the commit -/

/-- A snapshot lists the elements of the bank. -/
theorem State.snapshot_eq_some {s : State} {b n : Nat} {zs : List Cplx} (h : s.snapshot b n = some zs) :
    zs.length = n ∧ ∀ k, (hk : k < zs.length) → s.element b k = some zs[k] := by
  obtain ⟨hl, hw⟩ := Memory.readElems_eq_some h
  exact ⟨hl, fun k hk => State.element_eq_some.2 (elemOffset_eq s.params b k ▸ hw k hk)⟩

/-- A bank that holds `x 0 .. x (n-1)` has them as its snapshot. -/
theorem State.snapshot_of_bankHolds {s : State} {b n : Nat} {x : Nat → Cplx} (h : BankHolds s b n x) :
    s.snapshot b n = some ((List.range n).map x) := by
  obtain ⟨zs, hz⟩ := Memory.readElems_isSome (m := s.mem) (a := elemOffset s.params b 0) (n := n) fun k hk => by
    have := State.element_eq_some.1 (h k hk)
    rw [elemOffset_eq] at this
    simp [this.1, this.2]
  have hs : s.snapshot b n = some zs := hz
  obtain ⟨hl, he⟩ := State.snapshot_eq_some hs
  rw [hs]
  congr 1
  refine List.ext_getElem (by simp [hl]) fun k hk hk' => ?_
  have := he k hk
  rw [h k (by omega)] at this
  simpa using (Option.some.inj this).symm

/-- No snapshot means that a word of the read set has INIT 0 (R44). -/
theorem State.snapshot_eq_none {s : State} {b n : Nat} :
    s.snapshot b n = none ↔ ∃ k < n, ∃ im, s.initBit b k im = false := by
  constructor
  · intro h
    obtain ⟨k, hk, hw⟩ := Memory.readElems_eq_none h
    refine ⟨k, hk, ?_⟩
    rw [← elemOffset_eq] at hw
    rcases hw with hw | hw
    · exact ⟨false, by simp [State.initBit, hw]⟩
    · exact ⟨true, by simp [State.initBit, hw]⟩
  · rintro ⟨k, hk, him⟩
    rw [← State.element_eq_none] at him
    by_contra hc
    obtain ⟨zs, hz⟩ := Option.ne_none_iff_exists'.1 hc
    obtain ⟨hl, he⟩ := State.snapshot_eq_some hz
    simp [he k (by omega)] at him

/-- The elements of a bank after a commit to it. -/
theorem State.element_of_writeElems {s t : State} {d : Nat} {zs : List Cplx} (hp : t.params = s.params)
    (hm : t.mem = s.mem.writeElems (elemOffset s.params d 0) zs) {k : Nat} (hk : k < zs.length) :
    t.element d k = some zs[k] := by
  rw [State.element_eq_some, hp, hm, elemOffset_eq s.params d k]
  exact Memory.readWord_writeElems s.mem _ zs k hk

/-- A commit of at most `n` elements writes only elements `0 .. n-1` of its bank. -/
theorem onlyElementsWritten_of_writeElems {s t : State} {d n : Nat} {zs : List Cplx}
    (hm : t.mem = s.mem.writeElems (elemOffset s.params d 0) zs) (hl : zs.length ≤ n) : OnlyElementsWritten s t d n := by
  intro a ha
  rw [hm]
  exact Memory.readByte_writeElems _ _ _ (by omega)

/-! ### The bank-to-bank command -/

/-- Everything a bank-to-bank command can do: fail with the first error of its list, succeed with nothing written for
`n = 0`, fault on an uninitialised read set, or commit the result of its function. -/
theorem bankCommand_cases (p u : Bool) (cs : List Check) (d a : Nat) (f : List Cplx → List Cplx) (s : State) :
    (∃ e, firstError cs = some e ∧ bankCommand p u cs d a f s = failCommand e p s) ∨
    (firstError cs = none ∧ s.n = 0 ∧ bankCommand p u cs d a f s = succeed p s) ∨
    (firstError cs = none ∧ s.n ≠ 0 ∧ s.snapshot a s.n = none ∧ bankCommand p u cs d a f s = .fault .uninitRead) ∨
    (∃ x, firstError cs = none ∧ s.n ≠ 0 ∧ s.snapshot a s.n = some x ∧
      bankCommand p u cs d a f s = succeed p ((s.commit d (f x)).useScratch u)) := by
  unfold bankCommand
  cases hc : firstError cs with
  | some e => exact .inl ⟨e, rfl, rfl⟩
  | none =>
    by_cases hn : s.n = 0
    · exact .inr (.inl ⟨rfl, hn, by simp [hn]⟩)
    · cases hs : s.snapshot a s.n with
      | none => exact .inr (.inr (.inl ⟨rfl, hn, rfl, by simp [hn]⟩))
      | some x => exact .inr (.inr (.inr ⟨x, rfl, hn, rfl, by simp [hn]⟩))

/-- A bank-to-bank command whose checks pass and whose source is initialised completes, and leaves the result of its
function in its destination. -/
theorem bankCommand_completes {p u : Bool} {cs : List Check} {d a : Nat} {f : List Cplx → List Cplx} {s : State}
    {x : Nat → Cplx} (hc : firstError cs = none) (hx : BankHolds s a s.n x) (hn : s.n ≠ 0)
    (hl : (f ((List.range s.n).map x)).length = s.n) :
    ∃ t, bankCommand p u cs d a f s = .next t ∧ CompletedFrom s t p u ∧ OnlyElementsWritten s t d s.n ∧
      ∀ k < s.n, t.element d k = (f ((List.range s.n).map x))[k]? := by
  obtain ⟨t, ht, hf, hm⟩ := succeed_completedFrom p u d (f ((List.range s.n).map x)) s
  refine ⟨t, ?_, hf, onlyElementsWritten_of_writeElems hm hl.le, fun k hk => ?_⟩
  · simp [bankCommand, hc, hn, State.snapshot_of_bankHolds hx, ht]
  · have hp : t.params = s.params := by rw [hf]
    rw [State.element_of_writeElems hp hm (by omega), List.getElem?_eq_getElem]

/-- With length 0 a bank-to-bank command whose checks pass completes and writes nothing. -/
theorem bankCommand_zero {p u : Bool} {cs : List Check} {d a : Nat} {f : List Cplx → List Cplx} {s : State}
    (hc : firstError cs = none) (hn : s.n = 0) :
    ∃ t, bankCommand p u cs d a f s = .next t ∧ CompletedFrom s t p false ∧ t.mem = s.mem := by
  refine ⟨{ s.endCommand p with err := false, errCode := 0 }, ?_, rfl, rfl⟩
  simp [bankCommand, hc, hn, succeed]

end Sys2Proof.Machine
end

