-- ==== Sys2Proof/Laws/Bus.lean ====
section
/-! SUPPORT. Everything a bus access can do, once for all accesses, and what a memory operation keeps of the data window's
form. -/

namespace Sys2Proof.Machine

/-! ### The data window -/

/-- A decoded bank word has a bank and an element that exist, and lies at the offset it was decoded from (R62). -/
theorem bankWord?_some {p : Params} {a : Nat} {w : BankWord} (ha : a % 8 = 0) (h : bankWord? p a = some w) :
    w.bank < p.nbanks ∧ w.elem < p.depth ∧ wordOffset p w = a ∧ windowBase ≤ a := by
  have hd : 0 < p.depth := Nat.two_pow_pos _
  unfold bankWord? at h
  split at h
  · cases h
  · rename_i hb
    simp only at h
    split at h
    · rename_i hn
      cases h
      refine ⟨hn, Nat.mod_lt _ hd, ?_, by omega⟩
      simp only [wordOffset, elemOffset]
      generalize hq : (a - windowBase) / 8 = q
      have h1 := Nat.div_add_mod (q / 2) p.depth
      rw [Nat.div_div_eq_div_mul] at h1
      rw [Nat.mul_comm (q / (2 * p.depth)) p.depth]
      have hw : windowBase = 0x10000 := rfl
      by_cases h2 : q % 2 = 1
      · simp only [h2, beq_self_eq_true, if_true]; omega
      · have : (q % 2 == 1) = false := by simpa using h2
        simp only [this, Bool.false_eq_true, if_false]; omega
    · cases h

/-- A bank word lies in the data window (R60). -/
theorem wordOffset_bounds {p : Params} {w : BankWord} (hb : w.bank < p.nbanks) (he : w.elem < p.depth) :
    windowBase ≤ wordOffset p w ∧ wordOffset p w + 8 ≤ windowEnd p ∧ wordOffset p w % 8 = 0 := by
  have := elemOffset_lt_windowEnd p hb he
  have hw : windowBase = 0x10000 := rfl
  have h0 : elemOffset p w.bank w.elem = windowBase + (w.bank * p.depth + w.elem) * 16 := rfl
  unfold wordOffset
  split <;> omega

/-! ### Accesses -/

/-- The one way a bus write goes. -/
inductive BusWriteCase (s : State) (v : Word) : State → Prop where
  | refused : BusWriteCase s v s.refuseAccess
  | ignored : BusWriteCase s v s
  | command (idle : s.busy = false) : BusWriteCase s v { s with cmd := v.setWidth 32 }
  | length (idle : s.busy = false) : BusWriteCase s v { s with len := v.setWidth 32 }
  | enable : BusWriteCase s v { s with irqEn := v.getLsbD 1 }
  | start (idle : s.busy = false) : BusWriteCase s v ({ s with irqEn := v.getLsbD 1 }.start s.cmd s.len)
  | status : BusWriteCase s v (s.writeStatus v)
  | word (w : BankWord) (idle : s.busy = false) (bank : w.bank < s.params.nbanks) (elem : w.elem < s.params.depth) :
      BusWriteCase s v { s with mem := s.mem.writeWord (wordOffset s.params w) v }

/-- Everything a bus write can do (R65 to R71, R205, R206). -/
theorem busWrite_cases (width : Width) (offset : BitVec 64) (v : Word) (s : State) :
    BusWriteCase s v (busWrite width offset v s) := by
  simp only [busWrite]
  split
  · exact .refused
  · rename_i hm
    simp only [accessMalformed, Bool.or_eq_true, bne_iff_ne, ne_eq, not_or, not_not] at hm
    split
    · unfold State.writeRegister State.writeCtrl
      split
      · split
        · exact .refused
        · exact .command (by simp_all)
      · split
        · split
          · exact .refused
          · exact .length (by simp_all)
        · split
          · split
            · split
              · exact .refused
              · exact .start (by simp_all)
            · exact .enable
          · split
            · exact .status
            · exact .ignored
    · split
      · exact .ignored
      · rename_i w hw
        split
        · exact .refused
        · obtain ⟨h1, h2, -, -⟩ := bankWord?_some hm.2 hw
          exact .word w (by simp_all) h1 h2

/-- Everything a bus read can do (R65 to R68, R70, R71): return a value, be refused, or fault on a bank word with INIT 0. -/
theorem busRead_cases (width : Width) (offset : BitVec 64) (s : State) :
    (∃ v, busRead width offset s = .next (s.returns v)) ∨
    busRead width offset s = .next (s.refuseAccess.returns 0) ∨
    (s.busy = false ∧ busRead width offset s = .fault .uninitRead) := by
  simp only [busRead]
  split
  · exact .inr (.inl rfl)
  · split
    · exact .inl ⟨_, rfl⟩
    · split
      · exact .inl ⟨_, rfl⟩
      · split
        · exact .inr (.inl rfl)
        · split
          · exact .inr (.inr ⟨by simp_all, rfl⟩)
          · exact .inl ⟨_, rfl⟩

/-! ### The form of the written bytes -/

/-- A byte of a memory after a word write is written if it was, or if it is of the word. -/
theorem Memory.readByte_writeWord_isSome (m : Memory) (a : Nat) (v : Word) (a' : Nat) :
    ((m.writeWord a v).readByte a').isSome ↔ (a ≤ a' ∧ a' < a + 8) ∨ (m.readByte a').isSome := by
  rw [Memory.readByte_writeWord]
  split <;> simp_all

/-- Writing an aligned word of the window keeps the window's form. -/
theorem memoryWhole_writeWord {s t : State} {a : Nat} {v : Word} (h : s.memoryWhole) (hp : t.params = s.params)
    (hm : t.mem = s.mem.writeWord a v) (h8 : a % 8 = 0) (h1 : windowBase ≤ a) (h2 : a + 8 ≤ windowEnd s.params) :
    t.memoryWhole := by
  intro a' ha'
  simp only [hp, hm, Memory.readByte_writeWord_isSome] at ha' ⊢
  rcases ha' with ha' | ha'
  · exact ⟨by omega, by omega, fun t ht => .inl (by omega)⟩
  · exact ⟨(h a' ha').1, (h a' ha').2.1, fun t ht => .inr ((h a' ha').2.2 t ht)⟩

/-- A byte after writing elements is written if it was, or if it is of the elements. -/
theorem Memory.readByte_writeElems_isSome (m : Memory) (a : Nat) (zs : List Cplx) (a' : Nat) :
    ((m.writeElems a zs).readByte a').isSome ↔ (a ≤ a' ∧ a' < a + 16 * zs.length) ∨ (m.readByte a').isSome := by
  induction zs generalizing m a with
  | nil =>
    simp only [Memory.writeElems, List.length_nil]
    grind
  | cons z zs ih =>
    simp only [Memory.writeElems, ih, Memory.readByte_writeWord_isSome, List.length_cons]
    generalize (m.readByte a').isSome = r
    cases r
    · simp; omega
    · simp

/-- Writing elements of a bank that exist keeps the window's form. -/
theorem memoryWhole_writeElems {s t : State} {d : Nat} {zs : List Cplx} (h : s.memoryWhole) (hp : t.params = s.params)
    (hm : t.mem = s.mem.writeElems (elemOffset s.params d 0) zs) (hd : d < s.params.nbanks)
    (hl : zs.length ≤ s.params.depth) : t.memoryWhole := by
  have hz : zs.length = 0 ∨ elemOffset s.params d 0 + 16 * zs.length ≤ windowEnd s.params := by
    rcases Nat.eq_zero_or_pos zs.length with h | h
    · exact .inl h
    · have := elemOffset_lt_windowEnd s.params hd (k := zs.length - 1) (by omega)
      rw [elemOffset_eq] at this
      exact .inr (by omega)
  have hb : elemOffset s.params d 0 = windowBase + (d * s.params.depth + 0) * 16 := rfl
  have hw : windowBase = 0x10000 := rfl
  intro a' ha'
  simp only [hp, hm, Memory.readByte_writeElems_isSome] at ha' ⊢
  rcases ha' with ha' | ha'
  · exact ⟨by omega, by omega, fun t ht => .inl (by omega)⟩
  · exact ⟨(h a' ha').1, (h a' ha').2.1, fun t ht => .inr ((h a' ha').2.2 t ht)⟩

end Sys2Proof.Machine
end

