-- ==== Sys2Proof/Laws/Decode.lean ====
section
/-! SUPPORT. The fields of an assembled word, and the bounds of the fields the decoder reads. -/

namespace Sys2Proof

theorem Dir.bit_lt (d : Dir) : d.bit < 2 := by cases d <;> decide

/-- An assembled word, as a number, when every field fits. -/
theorem assemble_toNat {opc dir k dst srca srcb : Nat} (ho : opc < 2 ^ 8) (hd : dir < 2) (hk : k < 2 ^ 6)
    (h1 : dst < 2 ^ 4) (h2 : srca < 2 ^ 4) (h3 : srcb < 2 ^ 4) :
    (assemble opc dir k dst srca srcb).toNat =
      srcb * 2 ^ 24 + srca * 2 ^ 20 + dst * 2 ^ 16 + k * 2 ^ 10 + dir * 2 ^ 8 + opc := by
  simp only [assemble, BitVec.toNat_ofNat]
  omega

/-- The fields of an assembled word are the fields it was assembled from, and its reserved bits are clear (R91, R100). -/
theorem assemble_fields {opc dir k dst srca srcb : Nat} (ho : opc < 2 ^ 8) (hd : dir < 2) (hk : k < 2 ^ 6)
    (h1 : dst < 2 ^ 4) (h2 : srca < 2 ^ 4) (h3 : srcb < 2 ^ 4) :
    let w := assemble opc dir k dst srca srcb
    w.opc = opc ∧ w.field 8 1 = dir ∧ w.k = k ∧ w.dst = dst ∧ w.srca = srca ∧ w.srcb = srcb ∧
      w.reservedClear = true := by
  have := assemble_toNat ho hd hk h1 h2 h3
  simp only [CmdWord.opc, CmdWord.k, CmdWord.dst, CmdWord.srca, CmdWord.srcb, CmdWord.reservedClear, CmdWord.field,
    this, Bool.and_eq_true, beq_iff_eq]
  omega

theorem CmdWord.dst_lt (w : CmdWord) : w.dst < 16 := Nat.mod_lt _ (by decide)
theorem CmdWord.srca_lt (w : CmdWord) : w.srca < 16 := Nat.mod_lt _ (by decide)
theorem CmdWord.srcb_lt (w : CmdWord) : w.srcb < 16 := Nat.mod_lt _ (by decide)
theorem CmdWord.k_lt (w : CmdWord) : w.k < 64 := Nat.mod_lt _ (by decide)
theorem CmdWord.opc_lt (w : CmdWord) : w.opc < 256 := Nat.mod_lt _ (by decide)

/-- A command the opcode map selects has an opcode it lists (R95, R98). -/
theorem CmdWord.command?_isSome (w : CmdWord) : w.command?.isSome ↔ w.opc < 0x0A := by
  unfold CmdWord.command?
  split <;> simp_all
  omega

/-- What the decoder answers, as a command (R99). -/
theorem decode_eq_ok {w : CmdWord} {i : Instr} :
    decode w = .ok i ↔ w.command? = some i ∧ w.reservedClear = true := by
  unfold decode
  split
  · simp_all
  · split <;> simp_all

theorem CmdWord.opc_eq_extract (w : CmdWord) : (w.extractLsb' 0 8).toNat = w.opc := by
  simp [CmdWord.opc, CmdWord.field]

/-- The reserved bits as bits of the word (R91, R97). -/
theorem CmdWord.reservedClear_iff (w : CmdWord) :
    w.reservedClear = true ↔ w.getLsbD 9 = false ∧ w.extractLsb' 28 4 = 0#4 := by
  have h9 : w.getLsbD 9 = decide (w.toNat / 2 ^ 9 % 2 = 1) := by
    rw [BitVec.getLsbD, Nat.testBit_eq_decide_div_mod_eq]
  have h28 : w.extractLsb' 28 4 = 0#4 ↔ w.toNat / 2 ^ 28 % 2 ^ 4 = 0 := by
    rw [← BitVec.toNat_inj]; simp [Nat.shiftRight_eq_div_pow]
  rw [h9, h28]
  simp only [CmdWord.reservedClear, CmdWord.field, Bool.and_eq_true, beq_iff_eq, decide_eq_false_iff_not]
  omega

/-- The opcode map selects well-formed commands only. -/
theorem CmdWord.wellFormed_of_command? {w : CmdWord} {i : Instr} (h : w.command? = some i) : i.WellFormed := by
  unfold CmdWord.command? at h
  split at h <;> simp only [Option.some.injEq, reduceCtorEq] at h <;> subst h <;>
    simp [Instr.WellFormed, bankFits, kFits, w.dst_lt, w.srca_lt, w.srcb_lt, w.k_lt]

theorem decode_eq_illegalOpcode {w : CmdWord} : decode w = .error .illegalOpcode ↔ 0x0A ≤ w.opc := by
  have := w.command?_isSome
  unfold decode
  cases h : w.command? with
  | none =>
    rw [h] at this
    simpa using this
  | some i =>
    rw [h] at this
    have := this.1 rfl
    cases hr : w.reservedClear <;> simp [this]

theorem decode_eq_reservedBits {w : CmdWord} :
    decode w = .error .reservedBits ↔ w.opc < 0x0A ∧ w.reservedClear = false := by
  have := w.command?_isSome
  unfold decode
  cases h : w.command? with
  | none => rw [h] at this; simpa using fun hlt => absurd (this.2 hlt) (by simp)
  | some i => rw [h] at this; have := this.1 rfl; cases hr : w.reservedClear <;> simp [this]

end Sys2Proof
end

