-- ==== Sys2Proof/Laws/Sequence.lean ====
section
/-! SUPPORT. The sequences the commands compute: their lengths, and their elements. -/

namespace Sys2Proof.Machine

/-! ### Powers of two -/

theorem isPow2_iff {n : Nat} : isPow2 n = true ↔ IsPow2 n := by
  simp only [isPow2, IsPow2, Bool.and_eq_true, bne_iff_ne, ne_eq, beq_iff_eq]
  constructor
  · rintro ⟨_, h⟩
    exact ⟨n.log2, h.symm⟩
  · rintro ⟨e, rfl⟩
    exact ⟨by positivity, by rw [Nat.log2_two_pow]⟩

theorem powLength_iff {n : Nat} : powLength n = true ↔ n = 0 ∨ IsPow2 n := by
  simp [powLength, isPow2_iff]

theorem IsPow2.two_pow_log2 {n : Nat} (h : IsPow2 n) : 2 ^ n.log2 = n := by
  obtain ⟨e, rfl⟩ := h
  rw [Nat.log2_two_pow]

theorem IsPow2.pos {n : Nat} (h : IsPow2 n) : 0 < n := by
  obtain ⟨e, rfl⟩ := h
  positivity

theorem IsPow2.dvd {n k : Nat} (h : IsPow2 n) (hk : 2 ^ k ≤ n) : 2 ^ k ∣ n := by
  obtain ⟨e, rfl⟩ := h
  exact pow_dvd_pow 2 ((Nat.pow_le_pow_iff_right (by omega)).1 hk)

theorem le_log2_iff {n k : Nat} (hn : n ≠ 0) : k ≤ n.log2 ↔ 2 ^ k ≤ n := Nat.le_log2 hn

theorem hob_le {n : Nat} (h : 1 ≤ n) : hob n ≤ n := Nat.log2_self_le (by omega)

theorem lt_two_hob {n : Nat} : n < 2 * hob n := by
  have := Nat.lt_log2_self (n := n)
  simp only [hob]
  rw [Nat.pow_succ] at this
  omega

theorem convLength_isPow2 (n : Nat) : IsPow2 (convLength n) :=
  ⟨n.log2 + 2, by simp only [convLength, hob]; ring⟩

theorem two_mul_lt_convLength (n : Nat) : 2 * n < convLength n := by
  have := lt_two_hob (n := n)
  simp only [convLength]
  omega

/-! ### Element-wise application -/

@[simp] theorem mapAt_length {α β : Type} (κ : DrawKey) (f : DrawKey → α → β) (i : Nat) (as : List α) :
    (mapAt κ f i as).length = as.length := by
  induction as generalizing i with
  | nil => rfl
  | cons a as ih => simp [mapAt, ih]

theorem mapAt_getElem? {α β : Type} (κ : DrawKey) (f : DrawKey → α → β) (i : Nat) (as : List α) (k : Nat) :
    (mapAt κ f i as)[k]? = as[k]?.map (f ((i + k) :: κ)) := by
  induction as generalizing i k with
  | nil => simp [mapAt]
  | cons a as ih =>
    cases k with
    | zero => simp [mapAt]
    | succ k => simp [mapAt, ih, Nat.add_assoc, Nat.add_comm 1 k]

@[simp] theorem zipAt_length {α β γ : Type} (κ : DrawKey) (f : DrawKey → α → β → γ) (i : Nat) (as : List α)
    (bs : List β) : (zipAt κ f i as bs).length = min as.length bs.length := by
  induction as generalizing i bs with
  | nil => simp [zipAt]
  | cons a as ih =>
    cases bs with
    | nil => simp [zipAt]
    | cons b bs => simp only [zipAt, List.length_cons, ih]; omega

theorem zipAt_getElem? {α β γ : Type} (κ : DrawKey) (f : DrawKey → α → β → γ) (i : Nat) {as : List α} {bs : List β}
    {k : Nat} {a : α} {b : β} (ha : as[k]? = some a) (hb : bs[k]? = some b) :
    (zipAt κ f i as bs)[k]? = some (f ((i + k) :: κ) a b) := by
  induction as generalizing i bs k with
  | nil => simp at ha
  | cons a' as ih =>
    cases bs with
    | nil => simp at hb
    | cons b' bs =>
      cases k with
      | zero => simp_all [zipAt]
      | succ k =>
        simp only [List.getElem?_cons_succ] at ha hb
        simp [zipAt, ih _ ha hb, Nat.add_assoc, Nat.add_comm 1 k]

/-! ### BITREV -/

@[simp] theorem bitrevSeq_length (x : List Cplx) : (bitrevSeq x).length = x.length := by
  simp [bitrevSeq]

theorem rev_lt (L i : Nat) : rev L i < 2 ^ L := by
  induction L generalizing i with
  | zero => simp [rev]
  | succ L ih =>
    have := ih (i / 2)
    have h2 : i % 2 * 2 ^ L ≤ 2 ^ L := by
      calc i % 2 * 2 ^ L ≤ 1 * 2 ^ L := Nat.mul_le_mul_right _ (by omega)
        _ = 2 ^ L := Nat.one_mul _
    simp only [rev, Nat.pow_succ]
    omega

theorem bitrevSeq_getElem? {x : List Cplx} {L k : Nat} (hx : x.length = 2 ^ L) (hk : k < 2 ^ L) :
    (bitrevSeq x)[k]? = x[rev L k]? := by
  have hl : x.length.log2 = L := by rw [hx, Nat.log2_two_pow]
  have hr : rev L k < x.length := hx ▸ rev_lt L k
  simp [bitrevSeq, hx, hk, List.getElem?_eq_getElem hr, List.getD_eq_getElem?_getD, Nat.log2_two_pow]

/-! ### BFLY4 -/

theorem bfly4Groups_length (κ : DrawKey) (dir : Dir) (c q : Nat) (x : List Cplx) (h : x.length = 4 * c) :
    (bfly4Groups κ dir q x).length = x.length := by
  induction c generalizing q x with
  | zero =>
    obtain rfl := List.length_eq_zero_iff.1 (by omega)
    rfl
  | succ c ih =>
    match x, h with
    | s0 :: s1 :: s2 :: s3 :: x, h =>
      have := ih (q + 1) x (by simp at h; omega)
      simp [bfly4Groups, bfly4Group, this]

/-- At most as many elements come out of BFLY4 as go in. -/
theorem bfly4Groups_length_le (κ : DrawKey) (dir : Dir) (q : Nat) (x : List Cplx) :
    (bfly4Groups κ dir q x).length ≤ x.length := by
  induction q, x using bfly4Groups.induct with
  | case1 q s0 s1 s2 s3 x ih =>
    simp only [bfly4Groups, bfly4Group, List.length_append, List.length_cons, List.length_nil]
    omega
  | case2 q x h => simp [bfly4Groups]

theorem bfly4Seq_length {κ : DrawKey} {dir : Dir} {x : List Cplx} (h : 4 ∣ x.length) :
    (bfly4Seq κ dir x).length = x.length := by
  obtain ⟨c, hc⟩ := h
  exact bfly4Groups_length κ dir c 0 x hc

/-- Group `j` of BFLY4's result is the butterfly of group `j` of its source. -/
theorem bfly4Groups_getElem? (κ : DrawKey) (dir : Dir) (q j r : Nat) (x : List Cplx) {s0 s1 s2 s3 : Cplx} (hr : r < 4)
    (h0 : x[4 * j]? = some s0) (h1 : x[4 * j + 1]? = some s1) (h2 : x[4 * j + 2]? = some s2)
    (h3 : x[4 * j + 3]? = some s3) :
    (bfly4Groups κ dir q x)[4 * j + r]? = (bfly4Group ((q + j) :: κ) dir s0 s1 s2 s3)[r]? := by
  induction j generalizing q x with
  | zero =>
    match x, h0, h1, h2, h3 with
    | a0 :: a1 :: a2 :: a3 :: x, h0, h1, h2, h3 =>
      simp at h0 h1 h2 h3
      subst h0 h1 h2 h3
      simp only [bfly4Groups, Nat.mul_zero, Nat.zero_add, Nat.add_zero]
      rw [List.getElem?_append_left (by simpa [bfly4Group] using hr)]
  | succ j ih =>
    match x, h3 with
    | a0 :: a1 :: a2 :: a3 :: x, h3 =>
      have e : ∀ r, 4 * (j + 1) + r = (4 * j + r) + 4 := by intro r; omega
      have e0 : 4 * (j + 1) = 4 * j + 4 := by omega
      rw [e0] at h0
      rw [e] at h1 h2 h3
      simp only [List.getElem?_cons_succ] at h0 h1 h2 h3
      simp only [bfly4Groups]
      rw [List.getElem?_append_right (by simp [bfly4Group]; omega)]
      have hl : (bfly4Group (q :: κ) dir a0 a1 a2 a3).length = 4 := rfl
      rw [hl, show 4 * (j + 1) + r - 4 = 4 * j + r by omega, ih (q + 1) x h0 h1 h2 h3]
      congr 3
      omega

/-! ### COMBINE -/

/-- The running twiddle at a position (R144). -/
def runningTwiddle (κ : DrawKey) (wsub : Cplx) (w : Cplx) : Nat → Cplx
  | 0 => w
  | r + 1 => cmul (r :: κ) (runningTwiddle κ wsub w r) wsub

@[simp] theorem twiddles_length (κ : DrawKey) (wsub : Cplx) (h r : Nat) (w : Cplx) : (twiddles κ wsub h r w).length = h := by
  induction h generalizing r w with
  | zero => rfl
  | succ h ih => simp [twiddles, ih]

theorem twiddles_getElem? (κ : DrawKey) (wsub w : Cplx) (h r k : Nat) (hk : k < h) :
    (twiddles κ wsub h r (runningTwiddle κ wsub w r))[k]? = some (runningTwiddle κ wsub w (r + k)) := by
  induction h generalizing r k with
  | zero => omega
  | succ h ih =>
    cases k with
    | zero => simp [twiddles]
    | succ k =>
      have := ih (r + 1) k (by omega)
      simp only [twiddles, List.getElem?_cons_succ]
      rw [show r + (k + 1) = r + 1 + k by omega]
      exact this

theorem combinePair_length {κ : DrawKey} {ws even odd : List Cplx} (he : even.length = odd.length)
    (hw : ws.length = odd.length) : (combinePair κ ws even odd).length = 2 * odd.length := by
  simp only [combinePair, List.length_append, zipAt_length, he, hw]
  omega

theorem combinePair_length_le (κ : DrawKey) (ws even odd : List Cplx) :
    (combinePair κ ws even odd).length ≤ even.length + odd.length := by
  simp only [combinePair, List.length_append, zipAt_length]
  omega

theorem combineBlocks_length (κ : DrawKey) (ws : List Cplx) (h b j : Nat) (d : List Cplx) (hw : ws.length = h)
    (hd : 2 * h * b ≤ d.length) : (combineBlocks κ ws h b j d).length = 2 * h * b := by
  induction b generalizing j d with
  | zero => simp [combineBlocks]
  | succ b ih =>
    have hm : 2 * h * (b + 1) = 2 * h * b + 2 * h := by ring
    rw [hm] at hd
    rw [combineBlocks, List.length_append, ih _ _ (by simp; omega), combinePair_length] <;>
      simp only [List.length_take, List.length_drop] <;> omega

theorem combineSeq_length {p : Params} {κ : DrawKey} {dir : Dir} {k : Nat} {x : List Cplx} (hk : 1 ≤ k)
    (hx : 2 ^ k ∣ x.length) : (combineSeq p κ dir k x).length = x.length := by
  obtain ⟨c, hc⟩ := hx
  have h2 : 2 * 2 ^ (k - 1) = 2 ^ k := by
    rw [Nat.mul_comm, ← Nat.pow_succ]
    congr 1
    omega
  have hdiv : x.length / 2 ^ k = c := by rw [hc, Nat.mul_div_cancel_left _ (by positivity)]
  rw [combineSeq, combineBlocks_length _ _ _ _ _ _ (by simp), h2, hdiv, hc]
  rw [h2, hdiv, hc]

/-- The two halves of block pair `c` of a stage. -/
theorem combineBlocks_getElem? (κ : DrawKey) (ws : List Cplx) (h b j c r : Nat) (d : List Cplx) (hw : ws.length = h)
    (hd : 2 * h * b ≤ d.length) (hc : c < b) (hr : r < h) {w g o : Cplx} (hwr : ws[r]? = some w)
    (hg : d[2 * h * c + r]? = some g) (ho : d[2 * h * c + h + r]? = some o) :
    (combineBlocks κ ws h b j d)[2 * h * c + r]? =
        some (cadd (r :: 1 :: (j + c) :: κ) g (cmul (r :: 0 :: (j + c) :: κ) w o)) ∧
      (combineBlocks κ ws h b j d)[2 * h * c + h + r]? =
        some (csub (r :: 2 :: (j + c) :: κ) g (cmul (r :: 0 :: (j + c) :: κ) w o)) := by
  induction b generalizing j c d with
  | zero => omega
  | succ b ih =>
    have hm : 2 * h * (b + 1) = 2 * h * b + 2 * h := by ring
    rw [hm] at hd
    have hlt : (d.take h).length = h := by simp; omega
    have hld : ((d.drop h).take h).length = h := by simp; omega
    have hp : (combinePair (j :: κ) ws (d.take h) ((d.drop h).take h)).length = 2 * h := by
      rw [combinePair_length (by rw [hlt, hld]) (by rw [hw, hld]), hld]
    rw [combineBlocks]
    cases c with
    | zero =>
      simp only [Nat.mul_zero, Nat.zero_add, Nat.add_zero] at hg ho ⊢
      have hg' : (d.take h)[r]? = some g := by simpa [List.getElem?_take, hr] using hg
      have ho' : ((d.drop h).take h)[r]? = some o := by simpa [List.getElem?_take, hr] using ho
      have hps := zipAt_getElem? (0 :: j :: κ) cmul 0 hwr ho'
      have hev := zipAt_getElem? (1 :: j :: κ) cadd 0 hg' hps
      have hod := zipAt_getElem? (2 :: j :: κ) csub 0 hg' hps
      rw [List.getElem?_append_left (by omega), List.getElem?_append_left (by omega)]
      have hll : (zipAt (1 :: j :: κ) cadd 0 (d.take h) (zipAt (0 :: j :: κ) cmul 0 ws ((d.drop h).take h))).length = h := by
        simp only [zipAt_length, hlt, hw, hld, Nat.min_self]
      simp only [combinePair]
      rw [List.getElem?_append_left (by omega), List.getElem?_append_right (by omega), hll,
        show h + r - h = r by omega]
      rw [Nat.zero_add] at hps hev hod
      exact ⟨hev, hod⟩
    | succ c =>
      have hm' : 2 * h * (c + 1) = 2 * h + 2 * h * c := by ring
      have hg' : (d.drop (2 * h))[2 * h * c + r]? = some g := by
        rw [List.getElem?_drop, ← hg]; congr 1; omega
      have ho' : (d.drop (2 * h))[2 * h * c + h + r]? = some o := by
        rw [List.getElem?_drop, ← ho]; congr 1; omega
      have := ih (j + 1) c (d.drop (2 * h)) (by simp; omega) (by omega) hg' ho'
      rw [List.getElem?_append_right (by omega), List.getElem?_append_right (by omega), hp,
        show 2 * h * (c + 1) + r - 2 * h = 2 * h * c + r by omega,
        show 2 * h * (c + 1) + h + r - 2 * h = 2 * h * c + h + r by omega,
        show j + (c + 1) = j + 1 + c by omega]
      exact this

/-! ### POST and FFT -/

@[simp] theorem postSeq_length (p : Params) (κ : DrawKey) (dir : Dir) (x : List Cplx) :
    (postSeq p κ dir x).length = x.length := by
  simp [postSeq]

theorem combineStages_length {p : Params} {κ : DrawKey} {dir : Dir} {c k L : Nat} {d : List Cplx} (hk : 1 ≤ k)
    (hL : k + c ≤ L + 1) (hd : d.length = 2 ^ L) : (combineStages p κ dir c k d).length = d.length := by
  induction c generalizing k d with
  | zero => rfl
  | succ c ih =>
    have hlen : (combineSeq p (k :: κ) dir k d).length = d.length :=
      combineSeq_length hk (hd ▸ pow_dvd_pow 2 (by omega))
    rw [combineStages, ih (by omega) (by omega) (by rw [hlen, hd]), hlen]

theorem fftStages_length {p : Params} {κ : DrawKey} {dir : Dir} {L : Nat} {x : List Cplx} (hL : 2 ≤ L)
    (hx : x.length = 2 ^ L) : (fftStages p κ dir x).length = x.length := by
  have hb : (bfly4Seq (0 :: κ) dir (bitrevSeq x)).length = 2 ^ L := by
    rw [bfly4Seq_length (by rw [bitrevSeq_length, hx]; exact pow_dvd_pow 2 hL), bitrevSeq_length, hx]
  rw [fftStages, postSeq_length, combineStages_length (L := L) (by omega) (by rw [hx, Nat.log2_two_pow]; omega) hb, hb, hx]

/-- FFT of length `2^L`, `L >= 2`, is its stages. -/
theorem fftSeq_eq_fftStages {p : Params} {κ : DrawKey} {dir : Dir} {x : List Cplx} (h : 3 ≤ x.length) :
    fftSeq p κ dir x = fftStages p κ dir x := by
  match x, h with
  | _ :: _ :: _ :: _, _ => rfl

theorem fftSeq_length {p : Params} {κ : DrawKey} {dir : Dir} {x : List Cplx} (h : x.length = 0 ∨ IsPow2 x.length) :
    (fftSeq p κ dir x).length = x.length := by
  match x, h with
  | [], _ => rfl
  | [_], _ => rfl
  | [_, _], _ => cases dir <;> rfl
  | a :: b :: c :: xs, h =>
    obtain ⟨L, hL⟩ := h.resolve_left (by simp)
    have : 2 ≤ L := by
      by_contra hc
      have : L = 0 ∨ L = 1 := by omega
      rcases this with rfl | rfl <;> simp at hL
    rw [fftSeq_eq_fftStages (by simp), fftStages_length this hL]

/-! ### CZT and DFT -/

@[simp] theorem chirpTable_length (p : Params) (κ : DrawKey) (n : Nat) : (chirpTable p κ n).length = n := by
  simp [chirpTable]

theorem preChirp_length {κ : DrawKey} {m : Nat} {x t : List Cplx} (ht : t.length = x.length) (hm : x.length ≤ m) :
    (preChirp κ m x t).length = m := by
  simp only [preChirp, List.length_append, zipAt_length, List.length_replicate, ht]
  omega

@[simp] theorem chirpKernel_length (m n : Nat) (t : List Cplx) : (chirpKernel m n t).length = m := by
  simp [chirpKernel]

theorem convolve_length {p : Params} {κ : DrawKey} {a b : List Cplx} (hb : b.length = a.length) (ha : IsPow2 a.length) :
    (convolve p κ a b).length = a.length := by
  have h1 : (fftSeq p (0 :: κ) .fwd a).length = a.length := fftSeq_length (.inr ha)
  have h2 : (fftSeq p (1 :: κ) .fwd b).length = a.length := by rw [fftSeq_length (.inr (hb ▸ ha)), hb]
  have h3 : (cmulSeq (2 :: κ) (fftSeq p (0 :: κ) .fwd a) (fftSeq p (1 :: κ) .fwd b)).length = a.length := by
    rw [cmulSeq, zipAt_length, h1, h2, Nat.min_self]
  rw [convolve, fftSeq_length (.inr (h3 ▸ ha)), h3]

theorem cztFwd_length (p : Params) (κ : DrawKey) (x : List Cplx) : (cztFwd p κ x).length = x.length := by
  have hm := two_mul_lt_convLength x.length
  have hp : (preChirp (1 :: κ) (convLength x.length) x (chirpTable p (0 :: κ) x.length)).length = convLength x.length :=
    preChirp_length (by simp) (by omega)
  simp only [cztFwd, unChirp, zipAt_length, chirpTable_length]
  rw [convolve_length (by rw [hp, chirpKernel_length]) (by rw [hp]; exact convLength_isPow2 _), hp]
  omega

theorem cztSeq_length (p : Params) (κ : DrawKey) (dir : Dir) (x : List Cplx) : (cztSeq p κ dir x).length = x.length := by
  cases dir with
  | fwd => exact cztFwd_length p κ x
  | inv => simp [cztSeq, cztInv, mirrorScale]

theorem dftSeq_length (p : Params) (κ : DrawKey) (dir : Dir) (x : List Cplx) : (dftSeq p κ dir x).length = x.length := by
  unfold dftSeq
  split
  · rename_i h
    exact fftSeq_length (powLength_iff.1 h)
  · exact cztSeq_length p κ dir x

end Sys2Proof.Machine
end

