-- ==== Sys2Proof/Laws/Exec.lean ====
section
/-! SUPPORT. Everything a decoded command can do, once for all commands: it reports the first error that applies, or faults
on an uninitialised read set, or succeeds, writing `n` elements of its destination bank. The invariants and frames are
derived from this, not from the meanings. -/

namespace Sys2Proof.Machine

/-! ### The checks, as the errors of the claims -/

/-- `e` is the first error that applies to a command (R203). -/
def FirstError (s : State) (i : Instr) (e : ErrorCode) : Prop :=
  commandError s i e ∧ ∀ e' : ErrorCode, e'.code.toNat < e.code.toNat → ¬ commandError s i e'

theorem bankExists_iff {s : State} {b : Nat} : s.bankExists b = true ↔ b < s.params.nbanks := by
  simp [State.bankExists]

theorem fitsBank_iff {s : State} : s.fitsBank = true ↔ s.n ≤ s.params.depth := by
  simp [State.fitsBank]

/-- The result of a check list agrees with the errors that apply to a command. -/
def ChecksAgree (s : State) (i : Instr) (cs : List Check) : Prop :=
  match firstError cs with
  | some e => FirstError s i e
  | none => ∀ e, ¬ commandError s i e

/-- A check list in the order of the codes, each check the absence of its error, agrees with the errors of a command to
which no other error can apply. -/
theorem checksAgree_of {s : State} {i : Instr} {cs : List Check} (h : ∀ c ∈ cs, c.1 = true ↔ ¬ commandError s i c.2)
    (ho : ∀ e, (∀ c ∈ cs, c.2 ≠ e) → ¬ commandError s i e)
    (hs : cs.Pairwise fun c c' => c.2.code.toNat < c'.2.code.toNat) : ChecksAgree s i cs := by
  induction cs with
  | nil => exact fun e => ho e (by simp)
  | cons c cs ih =>
    obtain ⟨ok, e⟩ := c
    rw [List.pairwise_cons] at hs
    have hc : ok = true ↔ ¬ commandError s i e := h (ok, e) (by simp)
    cases ok with
    | true =>
      refine ih (fun c hc => h c (by simp [hc])) (fun e' he' => ?_) hs.2
      by_cases heq : e = e'
      · exact heq ▸ hc.1 rfl
      · exact ho e' fun c hc => (List.mem_cons.1 hc).elim (fun h => h ▸ heq) (he' c)
    | false =>
      refine ⟨not_not.1 fun hn => by simp [hn] at hc, fun e' he' => ho e' fun c hc => ?_⟩
      rcases List.mem_cons.1 hc with rfl | hc
      · rintro rfl; exact absurd he' (lt_irrefl _)
      · rintro rfl; exact absurd (hs.1 c hc) (by simp only at he' ⊢; omega)

theorem checksAgree_fft (s : State) (dir : Dir) (dst srca : Nat) :
    ChecksAgree s (.fft dir dst srca)
      [(s.bankExists srca && s.bankExists dst, .badBank), (powLength s.n, .length), (s.fitsBank, .capacity)] := by
  refine checksAgree_of ?_ ?_ (by simp [ErrorCode.code])
  · simp [bankExists_iff, fitsBank_iff, powLength_iff, commandError, readBanks, writeBank?, badLength]; tauto
  · intro e; cases e <;> simp [commandError, chirpLength, badK]

theorem checksAgree_czt (s : State) (dir : Dir) (dst srca : Nat) :
    ChecksAgree s (.czt dir dst srca)
      [(s.bankExists srca && s.bankExists dst, .badBank), (decide (s.n < cztLimit), .inputTooLarge),
       (s.fitsBank, .capacity)] := by
  refine checksAgree_of ?_ ?_ (by simp [ErrorCode.code])
  · simp [bankExists_iff, fitsBank_iff, commandError, readBanks, writeBank?, chirpLength]
    exact Iff.rfl
  · intro e; cases e <;> simp [commandError, badLength, badK]

theorem checksAgree_dft (s : State) (dir : Dir) (dst srca : Nat) :
    ChecksAgree s (.dft dir dst srca)
      [(s.bankExists srca && s.bankExists dst, .badBank), (!(!powLength s.n) || decide (s.n < cztLimit), .inputTooLarge),
       (s.fitsBank, .capacity)] := by
  refine checksAgree_of ?_ ?_ (by simp [ErrorCode.code])
  · simp [bankExists_iff, fitsBank_iff, powLength_iff, commandError, readBanks, writeBank?, chirpLength]
    have : s.n < cztLimit ↔ s.n < 536870912 := Iff.rfl
    tauto
  · intro e; cases e <;> simp [commandError, badLength, badK]

theorem checksAgree_bitrev (s : State) (dst srca : Nat) :
    ChecksAgree s (.bitrev dst srca)
      [(s.bankExists srca && s.bankExists dst, .badBank), (s.n == 0 || isPow2 s.n, .length), (s.fitsBank, .capacity)] := by
  refine checksAgree_of ?_ ?_ (by simp [ErrorCode.code])
  · simp [bankExists_iff, fitsBank_iff, isPow2_iff, commandError, readBanks, writeBank?, badLength]; tauto
  · intro e; cases e <;> simp [commandError, chirpLength, badK]

theorem checksAgree_bfly4 (s : State) (dir : Dir) (dst srca : Nat) :
    ChecksAgree s (.bfly4 dir dst srca)
      [(s.bankExists srca && s.bankExists dst, .badBank), (isPow2 s.n && 4 ≤ s.n, .length), (s.fitsBank, .capacity)] := by
  refine checksAgree_of ?_ ?_ (by simp [ErrorCode.code])
  · simp [bankExists_iff, fitsBank_iff, isPow2_iff, commandError, readBanks, writeBank?, badLength]
  · intro e; cases e <;> simp [commandError, chirpLength, badK]

/-- COMBINE's `K` check (R201, code 6), at every length. -/
theorem combineK_iff {n k : Nat} : (1 ≤ k ∧ k ≤ n.log2) ↔ ¬ (k < 1 ∨ n < 2 ^ k) := by
  rcases Nat.eq_zero_or_pos n with rfl | hn
  · simp; omega
  · rw [le_log2_iff (by omega)]; omega

theorem checksAgree_combine (s : State) (dir : Dir) (dst srca k : Nat) :
    ChecksAgree s (.combine dir dst srca k)
      [(s.bankExists srca && s.bankExists dst, .badBank), (isPow2 s.n && 2 ≤ s.n, .length),
       (1 ≤ k && k ≤ s.n.log2, .badK), (s.fitsBank, .capacity)] := by
  refine checksAgree_of ?_ ?_ (by simp [ErrorCode.code])
  · have := combineK_iff (n := s.n) (k := k)
    simp only [commandError, readBanks, writeBank?, badLength, badK, List.mem_cons, List.not_mem_nil, or_false,
      forall_eq_or_imp, forall_eq, Bool.and_eq_true, decide_eq_true_eq, ← this, isPow2_iff, bankExists_iff, fitsBank_iff]
    simp
    exact fun _ => Iff.rfl
  · intro e; cases e <;> simp [commandError, chirpLength]

theorem checksAgree_post (s : State) (dir : Dir) (dst srca : Nat) :
    ChecksAgree s (.post dir dst srca)
      [(s.bankExists srca && s.bankExists dst, .badBank), (s.fitsBank, .capacity)] := by
  refine checksAgree_of ?_ ?_ (by simp [ErrorCode.code])
  · simp [bankExists_iff, fitsBank_iff, commandError, readBanks, writeBank?]
  · intro e; cases e <;> simp [commandError, chirpLength, badLength, badK]

theorem checksAgree_cmul (s : State) (dst srca srcb : Nat) :
    ChecksAgree s (.cmul dst srca srcb)
      [(s.bankExists srca && s.bankExists srcb && s.bankExists dst, .badBank), (s.fitsBank, .capacity)] := by
  refine checksAgree_of ?_ ?_ (by simp [ErrorCode.code])
  · simp [bankExists_iff, fitsBank_iff, commandError, readBanks, writeBank?, and_assoc]
  · intro e; cases e <;> simp [commandError, chirpLength, badLength, badK]

theorem checksAgree_twid (s : State) (dir : Dir) (k : Nat) :
    ChecksAgree s (.twid dir k) [(decide (k ≤ 60), .badK)] := by
  refine checksAgree_of ?_ ?_ (by simp)
  · simp [commandError, badK]
  · intro e; cases e <;> simp [commandError, chirpLength, badLength, readBanks, writeBank?]

/-! ### What a command can do -/

/-- `t` is `s` after a successful completion step of `i`: BUSY, DONE, ERR, ERR_CODE and PATH as R207 and R191 set them, the
model's counters advanced, `n` elements of its destination bank written, and the result registers written by TWID alone;
every other register as before. -/
def SucceededFrom (s t : State) (i : Instr) : Prop :=
  ∃ (p u : Bool) (re im : F64) (zs : List Cplx),
    t = { s with
      busy := false, done := true, err := false, errCode := 0, path := p, draws := s.draws + 1
      scratchGen := if u then s.scratchGen + 1 else s.scratchGen
      resRe := re, resIm := im
      mem := match writeBank? i with
        | some d => s.mem.writeElems (elemOffset s.params d 0) zs
        | none => s.mem } ∧
    (p = true ↔ chirpDft s i) ∧ zs.length = s.n ∧ ((∀ dir k, i ≠ .twid dir k) → re = s.resRe ∧ im = s.resIm)

/-- The one way a run of `exec` goes. -/
inductive ExecCase (s : State) (i : Instr) : Prop where
  | fails (e : ErrorCode) (p : Bool) (t : State) (first : FirstError s i e) (path : p = true ↔ chirpDft s i)
      (runs : exec i s = .next t) (from_ : FailedFrom s t e p)
  | faults (none : ∀ e, ¬ commandError s i e)
      (unread : ∃ b ∈ readBanks i, ∃ k < s.n, ∃ im, s.initBit b k im = false) (runs : exec i s = .fault .uninitRead)
  | succeeds (t : State) (none : ∀ e, ¬ commandError s i e)
      (read : ∀ b ∈ readBanks i, ∀ k < s.n, ∀ im, s.initBit b k im = true) (runs : exec i s = .next t)
      (from_ : SucceededFrom s t i)

/-- A snapshot means that every word of the read set has INIT 1 (R44). -/
theorem State.initBit_of_snapshot {s : State} {b n : Nat} {x : List Cplx} (h : s.snapshot b n = some x) :
    ∀ k < n, ∀ im, s.initBit b k im = true := by
  intro k hk im
  by_contra hc
  rw [State.snapshot_eq_none.2 ⟨k, hk, im, by simpa using hc⟩] at h
  cases h

/-- A bank-to-bank command of one source does what `ExecCase` says. -/
theorem bankCommand_execCase {s : State} {i : Instr} {p u : Bool} {cs : List Check} {d a : Nat}
    {f : List Cplx → List Cplx} (hi : exec i s = bankCommand p u cs d a f s) (hr : readBanks i = [a])
    (hw : writeBank? i = some d) (hp : p = true ↔ chirpDft s i) (hc : ChecksAgree s i cs)
    (hf : (∀ e, ¬ commandError s i e) → ∀ x : List Cplx, x.length = s.n → s.n ≠ 0 → (f x).length = s.n) :
    ExecCase s i := by
  unfold ChecksAgree at hc
  rcases bankCommand_cases p u cs d a f s with ⟨e, h, hb⟩ | ⟨h, hn, hb⟩ | ⟨h, hn, hs, hb⟩ | ⟨x, h, hn, hs, hb⟩
  all_goals rw [h] at hc; rw [hb] at hi
  · exact .fails e p _ hc hp hi rfl
  · refine .succeeds _ hc (by omega) hi ⟨p, false, s.resRe, s.resIm, [], ?_, hp, by simp [hn], fun _ => ⟨rfl, rfl⟩⟩
    simp [hw, Memory.writeElems, State.endCommand]
  · refine .faults hc ?_ hi
    rw [hr]; exact ⟨a, by simp, State.snapshot_eq_none.1 hs⟩
  · refine .succeeds _ hc ?_ hi ⟨p, u, s.resRe, s.resIm, f x, ?_, hp, hf hc x (State.snapshot_eq_some hs).1 hn,
      fun _ => ⟨rfl, rfl⟩⟩
    · rw [hr]; simpa using State.initBit_of_snapshot hs
    · cases u <;> simp [hw, State.useScratch, State.commit, State.endCommand]

/-- Everything a command can do (R203, R204, R207, R211). -/
theorem exec_cases (i : Instr) (s : State) : ExecCase s i := by
  cases i with
  | nop =>
    refine .succeeds _ ?_ (by simp [readBanks]) rfl ⟨false, false, s.resRe, s.resIm, List.replicate s.n czero, rfl,
      by simp [chirpDft], by simp, fun _ => ⟨rfl, rfl⟩⟩
    intro e; cases e <;> simp [commandError, chirpLength, badLength, badK, readBanks, writeBank?]
  | fft dir dst srca =>
    refine bankCommand_execCase rfl rfl rfl (by simp [chirpDft]) (checksAgree_fft ..) fun he x hx hn => ?_
    have := he .length
    rw [fftSeq_length, hx]
    rw [hx]; simp only [commandError, badLength] at this; tauto
  | czt dir dst srca =>
    refine bankCommand_execCase rfl rfl rfl (by simp [chirpDft]) (checksAgree_czt ..) fun he x hx hn => ?_
    rw [cztSeq_length, hx]
  | dft dir dst srca =>
    refine bankCommand_execCase rfl rfl rfl ?_ (checksAgree_dft ..) fun he x hx hn => ?_
    · simp only [chirpDft, Bool.and_eq_true, bankExists_iff, Bool.not_eq_true', ← Bool.not_eq_true, powLength_iff]
      tauto
    · rw [dftSeq_length, hx]
  | bitrev dst srca =>
    refine bankCommand_execCase rfl rfl rfl (by simp [chirpDft]) (checksAgree_bitrev ..) fun he x hx hn => ?_
    rw [bitrevSeq_length, hx]
  | bfly4 dir dst srca =>
    refine bankCommand_execCase rfl rfl rfl (by simp [chirpDft]) (checksAgree_bfly4 ..) fun he x hx hn => ?_
    have := not_not.1 (he .length)
    rw [bfly4Seq_length, hx]
    rw [hx]; exact this.1.dvd (k := 2) this.2
  | combine dir dst srca k =>
    refine bankCommand_execCase rfl rfl rfl (by simp [chirpDft]) (checksAgree_combine ..) fun he x hx hn => ?_
    have h1 := not_not.1 (he .length)
    have h2 := he .badK
    simp only [commandError, badK, not_or, not_lt] at h2
    rw [combineSeq_length h2.1, hx]
    rw [hx]; exact h1.1.dvd h2.2
  | post dir dst srca =>
    refine bankCommand_execCase rfl rfl rfl (by simp [chirpDft]) (checksAgree_post ..) fun he x hx hn => ?_
    rw [postSeq_length, hx]
  | cmul dst srca srcb =>
    have hc := checksAgree_cmul s dst srca srcb
    have hi : exec (.cmul dst srca srcb) s = execCmul dst srca srcb s := rfl
    unfold ChecksAgree at hc
    unfold execCmul at hi
    generalize hf : firstError _ = r at hc hi
    cases r with
    | some e => exact .fails e false _ hc (by simp [chirpDft]) hi rfl
    | none =>
      simp only at hc hi
      cases ha : s.snapshot srca s.n with
      | none =>
        rw [ha] at hi
        exact .faults hc ⟨srca, by simp [readBanks], State.snapshot_eq_none.1 ha⟩ hi
      | some a =>
        cases hb : s.snapshot srcb s.n with
        | none =>
          rw [ha, hb] at hi
          exact .faults hc ⟨srcb, by simp [readBanks], State.snapshot_eq_none.1 hb⟩ hi
        | some b =>
          rw [ha, hb] at hi
          refine .succeeds _ hc ?_ hi ⟨false, false, s.resRe, s.resIm, cmulSeq s.key a b, rfl, by simp [chirpDft], ?_,
            fun _ => ⟨rfl, rfl⟩⟩
          · simp only [readBanks, List.mem_cons, List.not_mem_nil, or_false, forall_eq_or_imp, forall_eq]
            exact ⟨State.initBit_of_snapshot ha, State.initBit_of_snapshot hb⟩
          · simp [cmulSeq, (State.snapshot_eq_some ha).1, (State.snapshot_eq_some hb).1]
  | twid dir k =>
    have hc := checksAgree_twid s dir k
    have hi : exec (.twid dir k) s = execTwid dir k s := rfl
    unfold ChecksAgree at hc
    unfold execTwid at hi
    generalize hf : firstError _ = r at hc hi
    cases r with
    | some e => exact .fails e false _ hc (by simp [chirpDft]) hi rfl
    | none =>
      exact .succeeds _ hc (by simp [readBanks]) hi ⟨false, false, _, _, List.replicate s.n czero, rfl, by simp [chirpDft],
        by simp, fun h => absurd rfl (h dir k)⟩

/-! ### What a completion step can do -/

theorem illegalOpcode_iff {s : State} : latchedError s .illegalOpcode ↔ 0x0A ≤ s.cmdl.opc := by
  rw [← CmdWord.opc_eq_extract]; exact Iff.rfl

/-- The RESERVED_BITS error of a word, through the decoder's check (R97). -/
theorem reservedBits_iff {s : State} :
    latchedError s .reservedBits ↔ s.cmdl.opc < 0x0A ∧ s.cmdl.reservedClear = false := by
  have := s.cmdl.reservedClear_iff
  simp only [latchedError, CmdWord.opc_eq_extract]
  cases h : s.cmdl.reservedClear <;> simp only [h] at this <;> simp at this ⊢ <;> grind

/-- The errors of a word that decodes are the errors of its command. -/
theorem latchedError_of_decode {s : State} {i : Instr} (h : decode s.cmdl = .ok i) (e : ErrorCode) :
    latchedError s e ↔ commandError s i e := by
  rw [decode_eq_ok] at h
  have hs := s.cmdl.command?_isSome
  rw [h.1] at hs
  have ho : s.cmdl.opc < 0x0A := hs.1 rfl
  have hr : ¬ latchedError s .reservedBits := by rw [reservedBits_iff]; simp [h.2]
  cases e with
  | illegalOpcode => rw [illegalOpcode_iff]; simpa [commandError] using ho
  | reservedBits => simpa [commandError] using hr
  | _ => simp [latchedError, h.1]

/-- The one way a completion step goes. -/
inductive CompletionCase (s : State) : Prop where
  | fails (e : ErrorCode) (p : Bool) (t : State) (applies : latchedError s e)
      (first : ∀ e' : ErrorCode, e'.code.toNat < e.code.toNat → ¬ latchedError s e')
      (path : p = true ↔ ∃ i, decode s.cmdl = .ok i ∧ chirpDft s i) (runs : completionStep s = .next t)
      (from_ : FailedFrom s t e p)
  | faults (i : Instr) (decodes : decode s.cmdl = .ok i) (none : ∀ e, ¬ latchedError s e)
      (runs : completionStep s = .fault .uninitRead)
  | succeeds (i : Instr) (t : State) (decodes : decode s.cmdl = .ok i) (none : ∀ e, ¬ latchedError s e)
      (runs : completionStep s = .next t) (from_ : SucceededFrom s t i)

/-- Everything the completion step can do (R203, R204, R207). -/
theorem completionStep_cases (s : State) : CompletionCase s := by
  cases hd : decode s.cmdl with
  | error err =>
    cases err with
    | illegalOpcode =>
      refine .fails .illegalOpcode false _ (illegalOpcode_iff.2 (decode_eq_illegalOpcode.1 hd)) ?_ (by simp [hd]) (by rw [completionStep, hd]; rfl) rfl
      intro e' he'; cases e' <;> simp [ErrorCode.code] at he'
    | reservedBits =>
      have h := decode_eq_reservedBits.1 hd
      refine .fails .reservedBits false _ (reservedBits_iff.2 h) ?_ (by simp [hd]) (by rw [completionStep, hd]; rfl) rfl
      intro e' he'
      cases e' <;> simp [ErrorCode.code] at he'
      rw [illegalOpcode_iff]; omega
  | ok i =>
    have hl := latchedError_of_decode hd
    have hc : completionStep s = exec i s := by rw [completionStep, hd]
    rcases exec_cases i s with ⟨e, p, t, h1, h2, h3, h4⟩ | ⟨h1, h2, h3⟩ | ⟨t, h1, h2, h3, h4⟩
    · refine .fails e p t ((hl e).2 h1.1) (fun e' he' => mt (hl e').1 (h1.2 e' he')) ?_ (hc.trans h3) h4
      simp [h2, hd]
    · exact .faults i hd (fun e => mt (hl e).1 (h1 e)) (hc.trans h3)
    · exact .succeeds i t hd (fun e => mt (hl e).1 (h1 e)) (hc.trans h3) h4

end Sys2Proof.Machine
end

