-- ==== Sys2Proof/Laws/Float.lean ====
section
/-! SUPPORT. The laws of the binary64 patterns: their parts, the sign operations, that a NaN an operation produces is a
quiet NaN, and what a rounding gives: the nearest quotient, and an infinity exactly from the overflow threshold on. -/

namespace Sys2Proof.Machine

theorem F64.absBits_lt (a : F64) : F64.absBits a < 2 ^ 63 := Nat.mod_lt _ (by decide)

/-- A pattern is its sign and its magnitude bits. -/
theorem F64.pack_sign_absBits (a : F64) : F64.pack (F64.sign a) (F64.absBits a) = a := by
  apply BitVec.eq_of_toNat_eq
  have := a.isLt
  simp only [F64.pack, F64.sign, F64.absBits, beq_iff_eq, BitVec.toNat_ofNat]
  split <;> omega

theorem F64.absBits_pack {neg : Bool} {bits : Nat} (h : bits < 2 ^ 63) : F64.absBits (F64.pack neg bits) = bits := by
  cases neg <;> simp [F64.pack, F64.absBits] <;> omega

theorem F64.sign_pack {neg : Bool} {bits : Nat} (h : bits < 2 ^ 63) : F64.sign (F64.pack neg bits) = neg := by
  cases neg <;> simp [F64.pack, F64.sign] <;> omega

theorem F64.absBits_inf (neg : Bool) : F64.absBits (F64.inf neg) = infBits := F64.absBits_pack (by decide)

/-- The NaN an operation produces is a quiet NaN (R14). -/
theorem nanAt_isQuietNaN (κ : DrawKey) : F64.isQuietNaN (nanAt κ) = true := by
  have hb : F64.absBits (nanAt κ) = infBits + 2 ^ 51 + (Config.nanDraw κ).toNat % 2 ^ 51 :=
    F64.absBits_pack (by simp only [infBits]; omega)
  have hf : F64.frac (nanAt κ) = F64.absBits (nanAt κ) % 2 ^ 52 := by
    simp only [F64.frac, F64.absBits]; omega
  simp only [F64.isQuietNaN, F64.isNaN, hf, hb, infBits, Bool.and_eq_true, decide_eq_true_eq]
  omega

@[simp] theorem nanAt_isNaN (κ : DrawKey) : F64.isNaN (nanAt κ) = true := by
  have := nanAt_isQuietNaN κ
  simp only [F64.isQuietNaN, Bool.and_eq_true] at this
  exact this.1

/-- The magnitude bits a rounding gives are never above those of an infinity. -/
theorem roundMag_le (num den : Nat) : roundMag num den ≤ infBits := Nat.min_le_left _ _

theorem isNaN_pack_roundMag (neg : Bool) (num den : Nat) : F64.isNaN (F64.pack neg (roundMag num den)) = false := by
  have h := roundMag_le num den
  have hi : infBits < 2 ^ 63 := by decide
  simp only [F64.isNaN, F64.absBits_pack (by omega : roundMag num den < 2 ^ 63), decide_eq_false_iff_not]
  omega

theorem isNaN_inf (neg : Bool) : F64.isNaN (F64.inf neg) = false := by
  simp [F64.isNaN, F64.absBits_inf]

/-- `fneg` as a number (R13). -/
theorem fneg_toNat (a : F64) : (fneg a).toNat = (a.toNat + 2 ^ 63) % 2 ^ 64 := by
  have ha := a.isLt
  have hm : (a.toNat ^^^ 2 ^ 63) % 2 ^ 63 = a.toNat % 2 ^ 63 := by
    rw [Nat.xor_mod_two_pow, Nat.mod_self, Nat.xor_zero]
  have hd : (a.toNat ^^^ 2 ^ 63) / 2 ^ 63 = 1 - a.toNat / 2 ^ 63 := by
    rw [Nat.xor_div_two_pow, Nat.div_self (by decide)]
    obtain h | h : a.toNat / 2 ^ 63 = 0 ∨ a.toNat / 2 ^ 63 = 1 := by omega
    all_goals rw [h]; decide
  simp only [fneg, BitVec.toNat_xor, BitVec.toNat_ofNat]
  rw [show (0x8000000000000000 % 2 ^ 64 : Nat) = 2 ^ 63 by decide]
  omega

theorem absBits_fneg (a : F64) : F64.absBits (fneg a) = F64.absBits a := by
  have := a.isLt
  simp only [F64.absBits, fneg_toNat]
  omega

theorem sign_fneg (a : F64) : F64.sign (fneg a) = !F64.sign a := by
  have ha := a.isLt
  have hd : (a.toNat + 2 ^ 63) % 2 ^ 64 / 2 ^ 63 = 1 - a.toNat / 2 ^ 63 := by omega
  rw [F64.sign, F64.sign, fneg_toNat, hd]
  obtain h | h : a.toNat / 2 ^ 63 = 0 ∨ a.toNat / 2 ^ 63 = 1 := by omega
  all_goals rw [h]; decide

theorem isNaN_fneg (a : F64) : F64.isNaN (fneg a) = F64.isNaN a := by
  simp [F64.isNaN, absBits_fneg]

/-- `fabs` as a number (R13). -/
theorem fabs_toNat (a : F64) : (fabs a).toNat = a.toNat % 2 ^ 63 := by
  simp only [fabs, BitVec.toNat_and, BitVec.toNat_ofNat]
  rw [show (0x7FFFFFFFFFFFFFFF % 2 ^ 64 : Nat) = 2 ^ 63 - 1 by decide, Nat.and_two_pow_sub_one_eq_mod]

/-! ### Rounding -/

/-- A rounded quotient is within half a unit of the exact one, and even where it is exactly half a unit off (R12). -/
theorem roundQuot_near (num : Nat) {den : Nat} (hd : 0 < den) :
    2 * num ≤ (2 * roundQuot num den + 1) * den ∧ 2 * roundQuot num den * den ≤ 2 * num + den ∧
    ((2 * num = (2 * roundQuot num den + 1) * den ∨ 2 * roundQuot num den * den = 2 * num + den) →
      roundQuot num den % 2 = 0) := by
  have h := Nat.div_add_mod num den
  have hr := Nat.mod_lt num hd
  simp only [roundQuot]
  generalize num / den = q at *
  generalize num % den = r at *
  subst h
  rw [Nat.mul_comm den q]
  split
  · have hc : den ≤ 2 * r := by omega
    refine ⟨by nlinarith, by nlinarith, ?_⟩
    rintro (h | h)
    · exfalso; nlinarith
    · have : 2 * r = den := by nlinarith
      omega
  · refine ⟨by nlinarith [show 2 * r ≤ den by omega], by nlinarith, ?_⟩
    rintro (h | h)
    · have : 2 * r = den := by nlinarith
      omega
    · exfalso; nlinarith

/-- A whole quotient is its own rounding. -/
theorem roundQuot_exact (q : Nat) {den : Nat} (hd : 0 < den) : roundQuot (q * den) den = q := by
  simp only [roundQuot, Nat.mul_div_cancel q hd, Nat.mul_mod_left]
  rw [if_neg (by omega)]

/-- A rounded quotient depends on the ratio alone. -/
theorem roundQuot_scale {c : Nat} (hc : 0 < c) (num den : Nat) : roundQuot (c * num) (c * den) = roundQuot num den := by
  unfold roundQuot
  rw [Nat.mul_div_mul_left _ _ hc, Nat.mul_mod_mul_left]
  have h1 : c * den < 2 * (c * (num % den)) ↔ den < 2 * (num % den) := by
    rw [Nat.mul_left_comm]
    exact Nat.mul_lt_mul_left hc
  have h2 : 2 * (c * (num % den)) = c * den ↔ 2 * (num % den) = den := by
    rw [Nat.mul_left_comm]
    exact Nat.mul_right_inj (by omega)
  simp only [h1, h2]

/-- A rounding depends on the ratio alone. -/
theorem roundMag_scale {c : Nat} (hc : 0 < c) (num den : Nat) : roundMag (c * num) (c * den) = roundMag num den := by
  simp only [roundMag, Nat.mul_div_mul_left _ _ hc, Nat.mul_assoc, roundQuot_scale hc]

/-- The significand that `roundMag` rounds to has at most 53 bits and a carry, and is no subnormal one where the spacing is
above the least. -/
theorem roundQuot_bounds (num den : Nat) :
    roundQuot num (den * 2 ^ ((num / den).log2 - 52)) ≤ 2 ^ 53 ∧
    (0 < (num / den).log2 - 52 → 2 ^ 52 ≤ roundQuot num (den * 2 ^ ((num / den).log2 - 52))) := by
  have hq : num / (den * 2 ^ ((num / den).log2 - 52)) = num / den / 2 ^ ((num / den).log2 - 52) :=
    (Nat.div_div_eq_div_mul ..).symm
  have hlt : num / den < 2 ^ ((num / den).log2 + 1) := Nat.lt_log2_self
  have hup : num / den / 2 ^ ((num / den).log2 - 52) < 2 ^ 53 := by
    rw [Nat.div_lt_iff_lt_mul (Nat.two_pow_pos _), ← pow_add]
    exact hlt.trans_le (Nat.pow_le_pow_right (by decide) (by omega))
  have hlow : 0 < (num / den).log2 - 52 → 2 ^ 52 ≤ num / den / 2 ^ ((num / den).log2 - 52) := by
    intro h
    rw [Nat.le_div_iff_mul_le (Nat.two_pow_pos _), ← pow_add]
    refine le_trans (Nat.pow_le_pow_right (by decide) (by omega)) (Nat.log2_self_le (n := num / den) ?_)
    rintro h0
    rw [h0] at h
    simp at h
  simp only [roundQuot, hq]
  constructor
  · split <;> omega
  · intro h
    have := hlow h
    split <;> omega

theorem F64.frac_pack (neg : Bool) (bits : Nat) : F64.frac (F64.pack neg bits) = bits % 2 ^ 52 := by
  cases neg <;> simp [F64.pack, F64.frac]; omega

/-- The magnitude of the pattern of a significand `q` at the spacing `2^s`. -/
theorem F64.mag_pack_scaled {neg : Bool} {s q : Nat} (hs : s * 2 ^ 52 + q < infBits) (hq : q ≤ 2 ^ 53)
    (hl : 0 < s → 2 ^ 52 ≤ q) : F64.mag (F64.pack neg (s * 2 ^ 52 + q)) = q * 2 ^ s := by
  have hb : s * 2 ^ 52 + q < 2 ^ 63 := hs.trans (by decide)
  rw [F64.mag, F64.expo, F64.absBits_pack hb, F64.frac_pack]
  obtain h | h | h : q < 2 ^ 52 ∨ (2 ^ 52 ≤ q ∧ q < 2 ^ 53) ∨ q = 2 ^ 53 := by omega
  · obtain rfl : s = 0 := by omega
    rw [if_pos (by omega)]
    omega
  · rw [show (s * 2 ^ 52 + q) / 2 ^ 52 = s + 1 by omega, show (s * 2 ^ 52 + q) % 2 ^ 52 = q - 2 ^ 52 by omega,
      if_neg (by omega), show 2 ^ 52 + (q - 2 ^ 52) = q by omega, Nat.add_sub_cancel]
  · subst h
    rw [show (s * 2 ^ 52 + 2 ^ 53) / 2 ^ 52 = s + 2 by omega, show (s * 2 ^ 52 + 2 ^ 53) % 2 ^ 52 = 0 by omega,
      if_neg (by omega), show s + 2 - 1 = s + 1 by omega, pow_succ 2 s]
    ring

/-- What a rounding that does not overflow is worth: the quotient rounded to a whole number of spacings. -/
theorem mag_pack_roundMag {neg : Bool} {num den : Nat} (h : roundMag num den < infBits) :
    F64.mag (F64.pack neg (roundMag num den)) =
      roundQuot num (den * 2 ^ ((num / den).log2 - 52)) * 2 ^ ((num / den).log2 - 52) := by
  obtain ⟨h1, h2⟩ := roundQuot_bounds num den
  have : roundMag num den = ((num / den).log2 - 52) * 2 ^ 52 + roundQuot num (den * 2 ^ ((num / den).log2 - 52)) := by
    simp only [roundMag] at h ⊢
    omega
  rw [this] at h ⊢
  exact F64.mag_pack_scaled h h1 h2

theorem le_overflowUnits : 2 ^ 53 * 2 ^ 2044 ≤ overflowUnits := by
  unfold overflowUnits
  exact Nat.mul_le_mul_right _ (by decide)

theorem overflowUnits_le : overflowUnits ≤ 2 ^ 54 * 2 ^ 2044 := by
  unfold overflowUnits
  exact Nat.mul_le_mul_right _ (by decide)

theorem overflowUnits_pos : 0 < overflowUnits := lt_of_lt_of_le (by positivity) le_overflowUnits

/-- In halves of the largest finite spacing the threshold is `2^54 - 1`. -/
theorem twice_overflowUnits (den : Nat) : 2 * (overflowUnits * den) = (2 ^ 54 - 1) * (den * 2 ^ 2045) := by
  unfold overflowUnits
  rw [show (2 : Nat) ^ 2045 = 2 ^ 2044 * 2 from pow_succ 2 2044]
  generalize (2 : Nat) ^ 2044 = x
  ring

/-- At the largest finite spacing the significand carries out exactly from the threshold on. -/
theorem roundQuot_lt_iff {num D T : Nat} (hD : 0 < D) (hT : 2 * T = (2 ^ 54 - 1) * D) :
    roundQuot num D < 2 ^ 53 ↔ num < T := by
  obtain ⟨hn1, hn2, hn3⟩ := roundQuot_near num hD
  obtain ⟨c, hc⟩ : ∃ c, c = 2 ^ 53 := ⟨_, rfl⟩
  have hc0 : 0 < c ∧ c % 2 = 0 := by rw [hc]; decide
  replace hT : 2 * T = (2 * c - 1) * D := by rw [hT, hc]; rfl
  rw [← hc]
  clear hc
  generalize roundQuot num D = q at *
  constructor
  · intro hq
    have h1 : (2 * q + 1) * D ≤ (2 * c - 1) * D := Nat.mul_le_mul_right _ (by omega)
    obtain h | h : q + 1 = c ∨ q + 2 ≤ c := by omega
    · have : 2 * num ≠ (2 * q + 1) * D := fun h' => by have := hn3 (.inl h'); omega
      omega
    · have : (2 * q + 1) * D < (2 * c - 1) * D := Nat.mul_lt_mul_of_pos_right (by omega) hD
      omega
  · intro hn
    by_contra hq
    have h1 : 2 * c * D ≤ 2 * q * D := Nat.mul_le_mul_right _ (by omega)
    have h2 : D ≤ 2 * c * D := Nat.le_mul_of_pos_left _ (by omega)
    rw [Nat.sub_mul, one_mul] at hT
    omega

/-- A rounding gives a finite magnitude exactly below the overflow threshold (R12). -/
theorem roundMag_lt_infBits_iff {num den : Nat} (hd : 0 < den) :
    roundMag num den < infBits ↔ num < overflowUnits * den := by
  have hb := roundQuot_bounds num den
  have hr : roundMag num den < infBits ↔ ((num / den).log2 - 52) * 2 ^ 52 +
      roundQuot num (den * 2 ^ ((num / den).log2 - 52)) < 2047 * 2 ^ 52 := by
    simp only [roundMag, infBits]; omega
  rw [hr]
  generalize hL : (num / den).log2 = L at *
  obtain h | h | h : L - 52 ≤ 2044 ∨ L - 52 = 2045 ∨ 2046 ≤ L - 52 := by omega
  · refine ⟨fun _ => ?_, fun _ => by omega⟩
    have hlt : num / den < 2 ^ (53 + 2044) :=
      (Nat.lt_log2_self (n := num / den)).trans_le (Nat.pow_le_pow_right (by decide) (by omega))
    rw [Nat.div_lt_iff_lt_mul hd, pow_add] at hlt
    exact hlt.trans_le (Nat.mul_le_mul_right _ le_overflowUnits)
  · rw [h] at hb ⊢
    have hc : ∀ q, 2045 * 2 ^ 52 + q < 2047 * 2 ^ 52 ↔ q < 2 ^ 53 := by intro q; omega
    exact (hc _).trans (roundQuot_lt_iff (Nat.mul_pos hd (Nat.two_pow_pos _)) (twice_overflowUnits den))
  · refine ⟨fun _ => by omega, fun h' => ?_⟩
    exfalso
    have hn0 : num / den ≠ 0 := by rintro h0; rw [h0] at hL; simp at hL; omega
    have h5 : 2 ^ (54 + 2044) ≤ num / den := by
      refine le_trans ?_ (Nat.log2_self_le hn0)
      rw [hL]
      exact Nat.pow_le_pow_right (by decide) (by omega)
    rw [Nat.le_div_iff_mul_le hd, pow_add] at h5
    exact absurd (h'.trans_le ((Nat.mul_le_mul_right den overflowUnits_le).trans h5)) (lt_irrefl _)

end Sys2Proof.Machine
end

