-- ==== Sys2Proof/Laws/PerInstr.lean ====
section
/-! SUPPORT. One lemma per command about its encoding: the word of a command has the opcode of its row and clear reserved
bits (30_encoding.md rules R95 and R97). -/

namespace Sys2Proof.Laws.OpcodeRow

/-- The opcode of R95. -/
def opcodeOf : Instr → Nat
  | .nop => 0x00
  | .fft _ _ _ => 0x01
  | .czt _ _ _ => 0x02
  | .dft _ _ _ => 0x03
  | .bitrev _ _ => 0x04
  | .bfly4 _ _ _ => 0x05
  | .combine _ _ _ _ => 0x06
  | .post _ _ _ => 0x07
  | .cmul _ _ _ => 0x08
  | .twid _ _ => 0x09

/-- The word of a command matches its row of R95: its opcode, and its reserved bits 0. -/
def Statement (i : Instr) : Prop :=
  i.WellFormed → (encode i).opc = opcodeOf i ∧ (encode i).reservedClear = true

theorem nop : Statement .nop := fun _ => by decide

theorem fft (d : Dir) (dst srca : Nat) : Statement (.fft d dst srca) := fun h => by
  have := assemble_fields (opc := 0x01) (by decide) d.bit_lt (k := 0) (by decide) h.1 h.2 (srcb := 0) (by decide)
  exact ⟨this.1, this.2.2.2.2.2.2⟩

theorem czt (d : Dir) (dst srca : Nat) : Statement (.czt d dst srca) := fun h => by
  have := assemble_fields (opc := 0x02) (by decide) d.bit_lt (k := 0) (by decide) h.1 h.2 (srcb := 0) (by decide)
  exact ⟨this.1, this.2.2.2.2.2.2⟩

theorem dft (d : Dir) (dst srca : Nat) : Statement (.dft d dst srca) := fun h => by
  have := assemble_fields (opc := 0x03) (by decide) d.bit_lt (k := 0) (by decide) h.1 h.2 (srcb := 0) (by decide)
  exact ⟨this.1, this.2.2.2.2.2.2⟩

theorem bitrev (dst srca : Nat) : Statement (.bitrev dst srca) := fun h => by
  have := assemble_fields (opc := 0x04) (by decide) (dir := 0) (by decide) (k := 0) (by decide) h.1 h.2 (srcb := 0)
    (by decide)
  exact ⟨this.1, this.2.2.2.2.2.2⟩

theorem bfly4 (d : Dir) (dst srca : Nat) : Statement (.bfly4 d dst srca) := fun h => by
  have := assemble_fields (opc := 0x05) (by decide) d.bit_lt (k := 0) (by decide) h.1 h.2 (srcb := 0) (by decide)
  exact ⟨this.1, this.2.2.2.2.2.2⟩

theorem combine (d : Dir) (dst srca k : Nat) : Statement (.combine d dst srca k) := fun h => by
  have := assemble_fields (opc := 0x06) (by decide) d.bit_lt h.2.2 h.1 h.2.1 (srcb := 0) (by decide)
  exact ⟨this.1, this.2.2.2.2.2.2⟩

theorem post (d : Dir) (dst srca : Nat) : Statement (.post d dst srca) := fun h => by
  have := assemble_fields (opc := 0x07) (by decide) d.bit_lt (k := 0) (by decide) h.1 h.2 (srcb := 0) (by decide)
  exact ⟨this.1, this.2.2.2.2.2.2⟩

theorem cmul (dst srca srcb : Nat) : Statement (.cmul dst srca srcb) := fun h => by
  have := assemble_fields (opc := 0x08) (by decide) (dir := 0) (by decide) (k := 0) (by decide) h.1 h.2.1 h.2.2
  exact ⟨this.1, this.2.2.2.2.2.2⟩

theorem twid (d : Dir) (k : Nat) : Statement (.twid d k) := fun h => by
  have := assemble_fields (opc := 0x09) (by decide) d.bit_lt h (dst := 0) (by decide) (srca := 0) (by decide) (srcb := 0)
    (by decide)
  exact ⟨this.1, this.2.2.2.2.2.2⟩

end Sys2Proof.Laws.OpcodeRow
end

