-- ==== Sys2Proof/Tests/Slice0.lean ====
section
/-! SUPPORT. Tests of one step each, their expected results taken from the worked examples of 30_encoding.md rule R100 and
the vectors of 95_test_vectors.md (named in each comment), and a witness for the hypotheses of each statement. -/

namespace Sys2Proof.Tests

open Sys2Proof Sys2Proof.Machine

/-! ### Helpers -/

/-- A state with a command in flight: the word `w` and the length `n` latched, `xs` in bank `b`, and `ys` in bank `b'`. -/
def inFlight (w : CmdWord) (n : Nat) (b : Nat := 0) (xs : List Cplx := []) (b' : Nat := 0) (ys : List Cplx := []) : State :=
  { State.reset with
    busy := true
    cmdl := w
    lenl := BitVec.ofNat 32 n
    mem := (Memory.writeElems [] (elemOffset Params.default b 0) xs).writeElems (elemOffset Params.default b' 0) ys }

/-- What the completion step leaves, where it completes. -/
def next? (s : State) : Option State :=
  match completionStep s with
  | .next t => some t
  | .fault _ => none
  | .refused _ => none

/-- The elements a completion step leaves in a bank. -/
def bankAfter (s : State) (b n : Nat) : Option (List Cplx) := (next? s).bind fun t => t.snapshot b n

/-- STATUS after a completion step. -/
def statusAfter (s : State) : Option Word := (next? s).map State.statusWord

/-- STATUS and ERR_INFO after a completion step. -/
def errorAfter (s : State) : Option (Word × Word) := (next? s).map fun t => (t.statusWord, t.errInfo)

/-- A real value as an element. -/
def real (re : F64) : Cplx := ⟨re, 0#64⟩

/-- The binary64 patterns of 0 to 8. -/
def d0 : F64 := 0x0000000000000000#64
def d1 : F64 := 0x3FF0000000000000#64
def d2 : F64 := 0x4000000000000000#64
def d3 : F64 := 0x4008000000000000#64
def d4 : F64 := 0x4010000000000000#64
def d5 : F64 := 0x4014000000000000#64
def d6 : F64 := 0x4018000000000000#64
def d7 : F64 := 0x401C000000000000#64

/-- -1, -2, -4, -5, 10, 12 and 16. -/
def m1 : F64 := 0xBFF0000000000000#64
def m2 : F64 := 0xC000000000000000#64
def m4 : F64 := 0xC010000000000000#64
def m5 : F64 := 0xC014000000000000#64
def d10 : F64 := 0x4024000000000000#64
def d12 : F64 := 0x4028000000000000#64
def d16 : F64 := 0x4030000000000000#64

/-! ### Which commands a word can hold -/

theorem test_wellFormed_dst : ¬ Instr.WellFormed (.fft .fwd 16 0) := by decide
theorem test_wellFormed_srca : ¬ Instr.WellFormed (.post .inv 0 16) := by decide
theorem test_wellFormed_srcb : ¬ Instr.WellFormed (.cmul 0 0 16) := by decide
theorem test_wellFormed_combine_k : ¬ Instr.WellFormed (.combine .fwd 0 0 64) := by decide
theorem test_wellFormed_twid_k : ¬ Instr.WellFormed (.twid .fwd 64) := by decide
theorem test_wellFormed_widest : Instr.WellFormed (.combine .inv 15 15 63) := by decide

/-! ### Decoding, one word of each row, written out from the fields of R91: RSV1 SRCB SRCA DST | K RSV0 DIR | OPC -/

theorem test_decode_nop : decode 0b00000000000000000000000000000000#32 = .ok .nop := by decide
theorem test_decode_fft : decode 0b00000000000100100000000100000001#32 = .ok (.fft .inv 2 1) := by decide
theorem test_decode_czt : decode 0b00000000001000110000000000000010#32 = .ok (.czt .fwd 3 2) := by decide
theorem test_decode_dft : decode 0b00000000000100100000000100000011#32 = .ok (.dft .inv 2 1) := by decide
theorem test_decode_bitrev : decode 0b00000000001100010000000000000100#32 = .ok (.bitrev 1 3) := by decide
theorem test_decode_bfly4 : decode 0b00000000000100000000000100000101#32 = .ok (.bfly4 .inv 0 1) := by decide
theorem test_decode_combine : decode 0b00000000001000011010110000000110#32 = .ok (.combine .fwd 1 2 43) := by decide
theorem test_decode_post : decode 0b00000000010010000000000100000111#32 = .ok (.post .inv 8 4) := by decide
theorem test_decode_cmul : decode 0b00000001000000100000000000001000#32 = .ok (.cmul 2 0 1) := by decide
theorem test_decode_twid : decode 0b00000000000000001100000100001001#32 = .ok (.twid .inv 48) := by decide

/-- V-NOP-2: an unlisted opcode outranks a reserved bit; either reserved field alone is refused. -/
theorem test_decode_errors :
    decode 0x0000000A#32 = .error .illegalOpcode ∧ decode 0xF00000FF#32 = .error .illegalOpcode ∧
    decode 0x10000000#32 = .error .reservedBits ∧ decode 0x00010201#32 = .error .reservedBits := by decide

/-- V-NOP-1: every don't-care field of a NOP set. -/
theorem test_decode_dontCare : decode 0x0FFFFD00#32 = .ok .nop := by decide

/-- R100: the text of three of the worked encodings. -/
theorem test_asm :
    (decode 0x00110101#32).toOption.map Instr.asm = some "fft.inv b1, b1" ∧
    (decode 0x00110C06#32).toOption.map Instr.asm = some "combine.fwd b1, b1, #3" ∧
    (decode 0x01020008#32).toOption.map Instr.asm = some "cmul b2, b0, b1" := by decide

/-! ### The commands -/

/-- V-NOP-1. -/
theorem test_nop : statusAfter (inFlight 0x0FFFFD00#32 0xFFFFFFFF) = some 0x0000000000000002#64 := by decide

/-- V-TWID-1, `K = 3`, inverse. -/
theorem test_twid : (next? (inFlight 0x00000D09#32 0)).map (fun t => (t.resRe, t.resIm)) =
    some (0x3FE6A09E667F3BCD#64, 0x3FE6A09E667F3BCD#64) := by decide

/-- V-TWID-3. -/
theorem test_twid_badK : errorAfter (inFlight 0x0000F409#32 0) = some (0x0000000000000606#64, 0x000000000000F409#64) := by
  decide

/-- V-CMUL-1, third row: four roundings, no fusion. -/
theorem test_cmul : bankAfter
      (inFlight 0x01020008#32 1 0 [⟨0x3FB999999999999A#64, 0x3FC999999999999A#64⟩]
        1 [⟨0x3FD3333333333333#64, 0x3FD999999999999A#64⟩]) 2 1 =
    some [⟨0xBFA999999999999C#64, 0x3FB999999999999A#64⟩] := by decide +kernel

/-- V-CMUL-1, first and last rows: `(1, 2)·(3, 4)`, and the signed zero of `(-1)·(-1)`. -/
theorem test_cmul_signs : bankAfter
      (inFlight 0x01020008#32 2 0 [⟨d1, d2⟩, ⟨m1, d0⟩] 1 [⟨d3, d4⟩, ⟨m1, d0⟩]) 2 2 =
    some [⟨m5, d10⟩, ⟨d1, 0x8000000000000000#64⟩] := by decide +kernel

/-- V-BITREV-2. -/
theorem test_bitrev : bankAfter
      (inFlight 0x00010004#32 8 0 [real d0, real d1, real d2, real d3, real d4, real d5, real d6, real d7]) 1 8 =
    some [real d0, real d4, real d2, real d6, real d1, real d5, real d3, real d7] := by decide +kernel

/-- V-BITREV-4. -/
theorem test_bitrev_length :
    errorAfter (inFlight 0x00010004#32 3) = some (0x0000000000000506#64, 0x0000000300010004#64) := by decide

/-- V-BFLY-1, the first group, in place. -/
theorem test_bfly4 : bankAfter (inFlight 0x00110005#32 4 1 [real d0, real d4, real d2, real d6]) 1 4 =
    some [real d12, ⟨m4, d4⟩, real m4, ⟨m4, m4⟩] := by decide +kernel

/-- V-BFLY-2, inverse. -/
theorem test_bfly4_inv : bankAfter
      (inFlight 0x00110105#32 4 1 [⟨d1, 0x3FE0000000000000#64⟩, ⟨d3, 0x3FD0000000000000#64⟩, ⟨d2, m1⟩, ⟨d4, d2⟩]) 1 4 =
    some [⟨d10, 0x3FFC000000000000#64⟩, ⟨d1, 0xBFFC000000000000#64⟩, ⟨m2, 0xBFD0000000000000#64⟩,
      ⟨m5, 0x4002000000000000#64⟩] := by decide +kernel

/-- V-CMB-1: the running twiddle, in place. -/
theorem test_combine : bankAfter
      (inFlight 0x00110C06#32 8 1
        [real d12, ⟨m4, d4⟩, real m4, ⟨m4, m4⟩, real d16, ⟨m4, d4⟩, real m4, ⟨m4, m4⟩]) 1 8 =
    some [real 0x403C000000000000#64, ⟨m4, 0x4023504F333F9DE6#64⟩, ⟨m4, 0x4010000000000001#64⟩,
      ⟨m4, 0x3FFA827999FCEF38#64⟩, real m4, ⟨m4, 0xBFFA827999FCEF34#64⟩, ⟨m4, 0xC010000000000001#64⟩,
      ⟨m4, 0xC023504F333F9DE7#64⟩] := by decide +kernel

/-- V-CMB-4: `#4` with `n = 8`, and LENGTH before BAD_K with `n = 0`. -/
theorem test_combine_errors :
    statusAfter (inFlight 0x00001006#32 8) = some 0x0000000000000606#64 ∧
    statusAfter (inFlight 0x00000406#32 0) = some 0x0000000000000506#64 := by decide

/-- V-POST-3: division by `n`, not multiplication by its reciprocal. -/
theorem test_post_inv : bankAfter (inFlight 0x00110107#32 3 1 [real d1, real d2, real d10]) 1 3 =
    some [real 0x3FD5555555555555#64, real 0x3FE5555555555555#64, real 0x400AAAAAAAAAAAAB#64] := by decide +kernel

/-- V-POST-2: the snap at and on either side of TOL, at `-0`, and at infinity. -/
theorem test_post_snap : bankAfter
      (inFlight 0x00110007#32 3 1
        [⟨0x3CC4000000000000#64, 0x3CC3FFFFFFFFFFFF#64⟩, ⟨0xBCC4000000000000#64, 0x8000000000000000#64⟩,
          ⟨0xBCB59E05F1E2674D#64, 0x7FF0000000000000#64⟩]) 1 3 =
    some [⟨0x3CC4000000000000#64, d0⟩, ⟨0xBCC4000000000000#64, d0⟩, ⟨d0, 0x7FF0000000000000#64⟩] := by decide +kernel

/-- V-SRC-1. -/
theorem test_fft : bankAfter (inFlight 0x00010001#32 4 0 [real d1, real d2, real d3, real d4]) 1 4 =
    some [real d10, ⟨m2, d2⟩, real m2, ⟨m2, m2⟩] := by decide +kernel

/-- V-FFT-4, last line: length 2, inverse, with a value above TOL kept. -/
theorem test_fft2_inv : bankAfter
      (inFlight 0x00010101#32 2 0 [real 0x3CD203AF9EE75616#64, real 0x3CD203AF9EE75616#64]) 1 2 =
    some [real 0x3CD203AF9EE75616#64, real d0] := by decide +kernel

/-- V-CZT-3: length 1. -/
theorem test_czt : bankAfter (inFlight 0x00010002#32 1 0 [⟨d2, d3⟩]) 1 1 = some [⟨d2, d3⟩] := by decide +kernel

/-- V-SRC-4: the size limit of CZT. -/
theorem test_czt_tooLarge : errorAfter (inFlight 0x00010002#32 0x20000000) =
    some (0x0000000000000406#64, 0x2000000000010002#64) := by decide

/-- V-DFT-2, V-FFT-3: a DFT of length 1 is a bit-exact copy. -/
theorem test_dft : bankAfter (inFlight 0x00010003#32 1 0 [⟨0x3C670EF54646D497#64, 0x8000000000000000#64⟩]) 1 1 =
    some [⟨0x3C670EF54646D497#64, 0x8000000000000000#64⟩] := by decide +kernel

/-- V-DFT-3: PATH on each kind of error. -/
theorem test_dft_errors :
    statusAfter (inFlight 0x00010003#32 0x20000001) = some 0x0000000000000416#64 ∧
    statusAfter (inFlight 0x00010003#32 0x20000000) = some 0x0000000000000706#64 ∧
    errorAfter (inFlight 0x00010003#32 70000) = some (0x0000000000000716#64, 0x0001117000010003#64) ∧
    statusAfter (inFlight 0x00040003#32 4) = some 0x0000000000000306#64 := by decide

/-- V-BITREV-4: the fault of an uninitialised read set. -/
theorem test_uninitialised : completionStep (inFlight 0x00010004#32 2) = .fault .uninitRead := rfl

/-! ### The bus and reset -/

/-- V-RST-1: a read of bank 0 right after reset. -/
theorem test_reset_bankRead : busRead .w64 0x10000#64 State.reset = .fault .uninitRead := rfl

/-- V-BUS-1: the offsets of two elements. -/
theorem test_bankOffsets :
    elemOffset Params.default 0 0 = 0x10000 ∧ elemOffset Params.default 1 0 = 0x110000 ∧
    bankWord? Params.default 0x10008 = some ⟨0, 0, true⟩ := by decide

/-- R63: the low byte of 1.5 is at the lowest offset, its high byte at the highest. -/
theorem test_byteOrder :
    (Memory.writeWord [] 0x10000 0x3FF8000000000001#64).readByte 0x10000 = some 0x01#8 ∧
    (Memory.writeWord [] 0x10000 0x3FF8000000000001#64).readByte 0x10007 = some 0x3F#8 := by decide

/-- R131: one length of the incremental counter, as in V-BITREV-2. -/
theorem test_counter : counterBitrev [real d0, real d1, real d2, real d3, real d4, real d5, real d6, real d7] =
    [real d0, real d4, real d2, real d6, real d1, real d5, real d3, real d7] := by decide

/-! ### Witnesses: a state and operands that meet the hypotheses of each statement -/

/-- A completion that reports `e` meets the hypotheses about the first error. -/
theorem firstError_of_run {s t : State} {e : ErrorCode} (h : completionStep s = .next t) (he : t.err = true)
    (hc : t.errCode = e.code) :
    latchedError s e ∧ ∀ e' : ErrorCode, e'.code.toNat < e.code.toNat → ¬ latchedError s e' := by
  rcases completionStep_cases s with ⟨e', p, t', h1, h2, -, h4, h5⟩ | ⟨i, -, -, h3⟩ | ⟨i, t', -, -, h3, h4⟩
  · rw [h] at h4; cases h4
    have : e' = e := by
      rw [h5] at hc
      revert hc
      cases e <;> cases e' <;> simp [ErrorCode.code]
    exact this ▸ ⟨h1, h2⟩
  · rw [h] at h3; cases h3
  · rw [h] at h3; cases h3
    obtain ⟨p, u, re, im, zs, ht, -⟩ := h4
    rw [ht] at he; cases he

/-- The elements `[1, 2, 3, 4]` as a function. -/
def oneToFour (k : Nat) : Cplx := [real d1, real d2, real d3, real d4].getD k czero

/-- A state with `[1, 2, 3, 4]` in bank 0 and the word and length latched. -/
def loaded (w : CmdWord) (n : Nat) : State := inFlight w n 0 [real d1, real d2, real d3, real d4]

theorem loaded_holds (w : CmdWord) (n : Nat) (h : n ≤ 4) : BankHolds (loaded w n) 0 n oneToFour := by
  have h4 : ∀ k < 4, (loaded 0#32 4).element 0 k = some (oneToFour k) := by decide
  exact fun k hk => h4 k (by omega)

/-- The state a command leaves, where it completes. -/
def ran (i : Instr) (s : State) : State :=
  match exec i s with
  | .next t => t
  | _ => s

/-- The command completes. -/
def completes (i : Instr) (s : State) : Bool :=
  match exec i s with
  | .next _ => true
  | _ => false

theorem exec_ran {i : Instr} {s : State} (h : completes i s = true) : exec i s = .next (ran i s) := by
  unfold completes at h
  unfold ran
  cases he : exec i s with
  | next t => rfl
  | fault f => rw [he] at h; cases h
  | refused r => rw [he] at h; cases h

theorem witness_DecodeEncodeRoundTrip : Instr.WellFormed (.cmul 15 15 15) ∧ Instr.WellFormed (.twid .inv 63) := by decide

theorem witness_FieldsNotReadDoNotMatter :
    (0x0F00FC01#32 ≠ 0x00000001#32 ∧
      0x0F00FC01#32 &&& readMask (CmdWord.opc 0x00000001#32) = 0x00000001#32 &&& readMask (CmdWord.opc 0x00000001#32)) ∧
    (∃ t, exec .nop State.reset = .next t) ∧ (60 ≤ 60 ∧ ∃ t, exec (.twid .inv 60) State.reset = .next t) :=
  ⟨by decide, ⟨_, rfl⟩, le_refl _, ⟨_, rfl⟩⟩

theorem witness_StepRunsTheLatchedCommand :
    let s := loaded 0x00010001#32 4
    (s.busy = true ∧ s.inReset = false ∧ decode s.cmdl = .ok (.fft .fwd 1 0) ∧ s.turns = []) ∧
    { s with turns := [.engine, .resetAssert] }.turns = .engine :: [.resetAssert] := ⟨by decide, rfl⟩

/-- A host turn of an idle core and of one in reset, an idle core without a turn and with the Engine's, and the turns of the
reset input. -/
theorem witness_StepRunsTheLatchedCommand_turns :
    (∃ ts, { State.reset with turns := hostRd 0x028 }.turns = .host (.read .w64 0x028#64) :: ts) ∧
    State.reset.inReset = false ∧ (assertReset State.reset).inReset = true ∧
    (State.reset.busy = false ∧ State.reset.turns = []) ∧
    { State.reset with turns := [.engine] }.turns = .engine :: [] ∧
    (∃ ts, { State.reset with turns := [.resetAssert, .resetRelease] }.turns = .resetAssert :: ts ∧
      ts = .resetRelease :: []) := ⟨⟨_, rfl⟩, by decide, by decide, by decide, rfl, _, rfl, rfl⟩

theorem witness_UndecodableCommandFails :
    (let s := inFlight 0x0000000A#32 0
     s.busy = true ∧ s.inReset = false ∧ s.turns = [] ∧ 0x0A ≤ (s.cmdl.extractLsb' 0 8).toNat) ∧
    (let s := inFlight 0x00000209#32 0
     s.busy = true ∧ s.turns = [] ∧ (s.cmdl.extractLsb' 0 8).toNat < 0x0A ∧ s.cmdl.getLsbD 9 = true) ∧
    (let s := inFlight 0x80000009#32 0
     s.busy = true ∧ s.turns = [] ∧ (s.cmdl.extractLsb' 0 8).toNat < 0x0A ∧ s.cmdl.extractLsb' 28 4 ≠ 0#4) := by decide

theorem witness_FirstErrorIsReported_each (e : ErrorCode) :
    ∃ s, latchedError s e ∧ ∀ e' : ErrorCode, e'.code.toNat < e.code.toNat → ¬ latchedError s e' := by
  cases e with
  | illegalOpcode => exact ⟨_, firstError_of_run (s := inFlight 0x0000000A#32 4) rfl rfl rfl⟩
  | reservedBits => exact ⟨_, firstError_of_run (s := inFlight 0x00010201#32 4) rfl rfl rfl⟩
  | badBank => exact ⟨_, firstError_of_run (s := inFlight 0x00040001#32 3) rfl rfl rfl⟩
  | inputTooLarge => exact ⟨_, firstError_of_run (s := inFlight 0x00010002#32 0x20000000) rfl rfl rfl⟩
  | length => exact ⟨_, firstError_of_run (s := inFlight 0x00010004#32 3) rfl rfl rfl⟩
  | badK => exact ⟨_, firstError_of_run (s := inFlight 0x00001006#32 8) rfl rfl rfl⟩
  | capacity => exact ⟨_, firstError_of_run (s := inFlight 0x00010007#32 65537) rfl rfl rfl⟩

theorem witness_FirstErrorIsReported_none : ∀ e, ¬ latchedError (inFlight 0x00000000#32 0) e := by
  intro e he
  rw [latchedError_of_decode (i := .nop) (by decide)] at he
  cases e <;> simp [commandError, chirpLength, badLength, badK, readBanks, writeBank?] at he

/-- A failed CZT: it meets the hypotheses about failed commands, PATH and ERR_INFO. -/
theorem witness_FailedCommandRecordsOnlyItsError :
    ∃ t, completionStep (inFlight 0x00010002#32 0x20000000) = .next t ∧ t.err = true := ⟨_, rfl, rfl⟩

theorem witness_PathReportsTheRoute :
    (∃ t, completionStep (inFlight 0x00010003#32 0x20000001) = .next t ∧ t.err = true ∧ t.errCode = 4) ∧
    (let s := inFlight 0x00010003#32 0xFFFFFFFF
     (∃ t, completionStep s = .next t) ∧ decode s.cmdl = .ok (.dft .fwd 1 0) ∧ 1 < s.params.nbanks ∧ 0 < s.params.nbanks ∧
      ¬ IsPow2 s.n ∧ 2 ^ 29 ≤ s.n) ∧
    (let s := inFlight 0x00010003#32 0x20000
     (∃ t, completionStep s = .next t) ∧ IsPow2 s.n ∧ s.params.depth < s.n) := by
  refine ⟨⟨_, rfl, rfl, rfl⟩, ⟨⟨_, rfl⟩, by decide, by decide, by decide, ?_, by decide⟩, ⟨_, rfl⟩, ⟨17, rfl⟩, by decide⟩
  rw [← isPow2_iff]
  decide

theorem witness_ErrInfoHoldsTheFailedCall :
    (∃ t, completionStep (inFlight 0x00001006#32 8) = .next t ∧ t.err = true) ∧
    (∃ t, completionStep (inFlight 0x00000000#32 8) = .next t ∧ t.err = false) := ⟨⟨_, rfl, rfl⟩, _, rfl, rfl⟩

theorem witness_OnlyTwidWritesTheResultRegisters :
    (∃ t, completionStep (inFlight 0x00000C09#32 0) = .next t ∧ t.resRe ≠ State.reset.resRe) ∧
    (∃ t, busAccess (.write .w64 0x038#64 1#64) State.reset = .next t) :=
  ⟨⟨_, rfl, by decide⟩, _, rfl⟩

theorem witness_UninitialisedReadsFault :
    (State.reset.params.legal ∧ State.reset.busy = false ∧ 3 < State.reset.params.nbanks ∧
      65535 < State.reset.params.depth ∧ State.reset.initBit 3 65535 true = false) ∧
    (∃ t, exec (.bitrev 1 0) (loaded 0#32 4) = .next t ∧ t.err = false ∧ writeBank? (.bitrev 1 0) = some 1) :=
  ⟨by decide, _, exec_ran (by decide), by decide, rfl⟩

theorem witness_CommandFrame :
    (∃ t, exec .nop State.reset = .next t ∧ writeBank? .nop = none) ∧
    (∃ t, exec (.bitrev 1 0) (loaded 0#32 4) = .next t ∧ t.err = false ∧ writeBank? (.bitrev 1 0) = some 1) ∧
    (∃ t, exec (.bitrev 1 0) (loaded 0#32 3) = .next t ∧ t.err = true) :=
  ⟨⟨_, rfl, rfl⟩, ⟨_, exec_ran (by decide), by decide, rfl⟩, _, exec_ran (by decide), by decide⟩

theorem witness_TwidReadsTheRom : 60 ≤ 60 ∧ 60 < 61 := by decide

/-- The hypotheses of CMUL, POST and the shortest and longest loaded lengths; banks 3, 0, 0. -/
theorem witness_CmulMultipliesElements :
    let s := loaded 0#32 4
    3 < s.params.nbanks ∧ 0 < s.params.nbanks ∧ s.n ≤ s.params.depth ∧ BankHolds s 0 s.n oneToFour := by
  refine ⟨by decide, by decide, by decide, (loaded_holds 0#32 4 (by decide))⟩

theorem witness_BitrevPermutesElements :
    (let s := loaded 0#32 0
     s.n = 0 ∧ BankHolds s 0 s.n oneToFour) ∧
    (let s := loaded 0#32 4
     3 < s.params.nbanks ∧ 0 < s.params.nbanks ∧ IsPow2 s.n ∧ s.n ≤ s.params.depth ∧ BankHolds s 0 s.n oneToFour ∧
      s.n = 2 ^ 2 ∧ ∀ b < 2, (1 : Nat).testBit b = (2 : Nat).testBit (2 - 1 - b)) := by
  refine ⟨⟨rfl, (loaded_holds 0#32 0 (by decide))⟩, by decide, by decide, ⟨2, rfl⟩, by decide,
    (loaded_holds 0#32 4 (by decide)), rfl, by decide⟩

theorem witness_BitrevTwiceRestores :
    ∃ t u, exec (.bitrev 1 0) (loaded 0#32 4) = .next t ∧ t.err = false ∧ t.lenl = (loaded 0#32 4).lenl ∧
      exec (.bitrev 0 1) t = .next u ∧ u.err = false := 
  ⟨_, _, exec_ran (by decide), by decide, by decide, exec_ran (by decide), by decide⟩

theorem witness_CounterSequencingIsTheReversal :
    ([real d7] : List Cplx).length = 2 ^ 0 ∧ ([real d1, real d2, real d3, real d4] : List Cplx).length = 2 ^ 2 := by decide

theorem witness_Bfly4TransformsGroups :
    let s := loaded 0#32 4
    3 < s.params.nbanks ∧ 0 < s.params.nbanks ∧ IsPow2 s.n ∧ 4 ≤ s.n ∧ s.n ≤ s.params.depth ∧
      BankHolds s 0 s.n oneToFour ∧ 4 * 0 < s.n := by
  refine ⟨by decide, by decide, ⟨2, rfl⟩, by decide, by decide, (loaded_holds 0#32 4 (by decide)), by decide⟩

theorem witness_CombineMergesBlockPairs :
    (let s := loaded 0#32 2
     IsPow2 s.n ∧ 2 ≤ s.n ∧ 1 ≤ 1 ∧ 2 ^ 1 ≤ s.n ∧ s.n ≤ s.params.depth ∧ BankHolds s 0 s.n oneToFour) ∧
    (let s := loaded 0#32 4
     3 < s.params.nbanks ∧ 0 < s.params.nbanks ∧ IsPow2 s.n ∧ 2 ≤ s.n ∧ 1 ≤ 2 ∧ 2 ^ 2 ≤ s.n ∧ s.n ≤ s.params.depth ∧
      BankHolds s 0 s.n oneToFour ∧ 0 % 2 ^ 2 = 0 ∧ 0 < s.n ∧ 1 < 2 ^ (2 - 1)) := by
  refine ⟨⟨⟨1, rfl⟩, by decide, by decide, by decide, by decide, (loaded_holds 0#32 2 (by decide))⟩,
    by decide, by decide, ⟨2, rfl⟩, by decide, by decide, by decide, by decide, (loaded_holds 0#32 4 (by decide)),
    by decide, by decide, by decide⟩

theorem witness_PostScalesAndSnaps :
    let s := loaded 0#32 3
    3 < s.params.nbanks ∧ 0 < s.params.nbanks ∧ s.n ≤ s.params.depth ∧ BankHolds s 0 s.n oneToFour := by
  refine ⟨by decide, by decide, by decide, (loaded_holds 0#32 3 (by decide))⟩

theorem witness_FftOfShortLengths :
    ∀ n ∈ [0, 1, 2],
      let s := loaded 0#32 n
      3 < s.params.nbanks ∧ 0 < s.params.nbanks ∧ s.n = n ∧ s.n ≤ 2 ∧ s.n ≤ s.params.depth ∧ BankHolds s 0 s.n oneToFour := by
  intro n hn
  simp only [List.mem_cons, List.not_mem_nil, or_false] at hn
  rcases hn with rfl | rfl | rfl
  all_goals exact ⟨by decide, by decide, rfl, by decide, by decide, loaded_holds _ _ (by decide)⟩

theorem witness_FftRunsTheStages :
    let s := loaded 0#32 4
    3 < s.params.nbanks ∧ 0 < s.params.nbanks ∧ 2 ≤ 2 ∧ s.n = 2 ^ 2 ∧ s.n ≤ s.params.depth ∧
      BankHolds s 0 s.n oneToFour := by
  refine ⟨by decide, by decide, by decide, by decide, by decide, (loaded_holds 0#32 4 (by decide))⟩

theorem witness_StageSequenceLeavesTheBitsOfFft :
    ∃ t, 2 ≤ 2 ∧ (loaded 0#32 4).n = 2 ^ 2 ∧ exec (.fft .fwd 1 0) (loaded 0#32 4) = .next t ∧ t.err = false ∧
      ∀ k < (loaded 0#32 4).n, ∀ z, t.element 1 k = some z → NoNaN z := by
  refine ⟨_, by decide, rfl, exec_ran (by decide), by decide, fun k hk z hz => ?_⟩
  have hr : ∀ k < 4, ((ran (.fft .fwd 1 0) (loaded 0#32 4)).element 1 k).all fun z =>
      !F64.isNaN z.re && !F64.isNaN z.im := by decide +kernel
  have := hr k hk
  rw [hz] at this
  simpa [NoNaN] using this

theorem witness_CztRunsTheConvolution :
    (let s := loaded 0#32 0
     3 < s.params.nbanks ∧ 0 < s.params.nbanks ∧ s.n = 0) ∧
    (let s := loaded 0#32 1
     s.n < 2 ^ 29 ∧ s.n ≤ s.params.depth ∧ 1 ≤ s.n ∧ BankHolds s 0 s.n oneToFour) ∧
    (let s := loaded 0#32 3
     3 < s.params.nbanks ∧ 0 < s.params.nbanks ∧ s.n < 2 ^ 29 ∧ s.n ≤ s.params.depth ∧ 1 ≤ s.n ∧
      BankHolds s 0 s.n oneToFour) := by
  refine ⟨by decide, ⟨by decide, by decide, by decide, (loaded_holds 0#32 1 (by decide))⟩,
    by decide, by decide, by decide, by decide, by decide, (loaded_holds 0#32 3 (by decide))⟩

theorem witness_ConvolutionLengthBound :
    1 ≤ 2 ^ 29 - 1 ∧ 2 ^ 29 - 1 < 2 ^ 29 ∧ 1 ≤ 1 ∧ 1 ≤ Params.default.depth := by decide

theorem witness_ChirpTableStartsAtOne : Params.default.trigId = 0 ∧ 1 ≤ 1 ∧ 1 < 2 ^ 29 := by decide

theorem not_isPow2_three : ¬ IsPow2 3 := by
  rw [← isPow2_iff]
  decide

theorem witness_DftDispatchesOnLength :
    (loaded 0#32 0).n = 0 ∧ IsPow2 (loaded 0#32 4).n ∧
    (let s := loaded 0#32 3
     s.n ≠ 0 ∧ ¬ IsPow2 s.n ∧ 3 < s.params.nbanks ∧ 0 < s.params.nbanks ∧ s.n ≤ s.params.depth ∧ s.n < 2 ^ 29 ∧
      BankHolds s 0 s.n oneToFour) := by
  refine ⟨rfl, ⟨2, rfl⟩, by decide, not_isPow2_three, by decide, by decide, by decide, by decide,
    (loaded_holds 0#32 3 (by decide))⟩

theorem witness_InPlaceGivesTheSameElements :
    (writeBank? (.bitrev 1 0)).isSome ∧
    ∃ t t', exec (withDst 0 (.bitrev 1 0)) (loaded 0#32 4) = .next t ∧ t.err = false ∧
      exec (withDst 2 (.bitrev 1 0)) (loaded 0#32 4) = .next t' ∧ t'.err = false :=
  ⟨rfl, _, _, exec_ran (by decide), by decide, exec_ran (by decide), by decide⟩

theorem witness_SignOperationsAreExact :
    F64.isNaN 0x7FF8000000000000#64 = true ∧ F64.isFinite 0x7FEFFFFFFFFFFFFF#64 = true ∧
    F64.isFinite 0x8000000000000000#64 = true ∧ 63 < 64 ∧
    (F64.isNaN 0xFFF0000000000000#64 = false ∧ F64.isNaN 0x7FF0000000000000#64 = false) := by decide

theorem witness_SumAndProductCommute :
    F64.isNaN 0x7FF0000000000000#64 = false ∧ F64.isNaN d0 = false ∧ NoNaN ⟨0xFFF0000000000000#64, d1⟩ ∧
    NoNaN (real d0) := by
  unfold NoNaN
  decide

theorem witness_NaNResultsAreQuietDraws :
    F64.isNaN 0x7FF0000000000001#64 = true ∧ F64.isNaN (fmul [] 0x7FF0000000000000#64 d0) = true ∧
    F64.isNaN (fadd [] d1 d2) = false := by
  refine ⟨by decide, ?_, by decide +kernel⟩
  rw [show fmul [] 0x7FF0000000000000#64 d0 = nanAt [] from rfl]
  exact nanAt_isNaN []

/-- A tie of each operation, with the value on the other side of it. -/
theorem witness_OperationsRoundToNearestEven :
    (F64.isFinite d1 = true ∧ F64.isFinite 0x3CA0000000000000#64 = true ∧ F64.isFinite 0x3FF0000000000001#64 = true ∧
      fadd [] d1 0x3CA0000000000000#64 = d1) ∧
    fsub [] d1 0x3C90000000000000#64 = d1 ∧
    fmul [] 0x3FF0000000000001#64 0x3FF8000000000000#64 = 0x3FF8000000000002#64 ∧
    (F64.isZero d2 = false ∧ fdiv [] 0x0000000000000001#64 d2 = d0) := by decide +kernel

theorem witness_DivisionByPowerOfTwoIsExactScaling : 0 ≤ 63 ∧ 63 ≤ 63 := by decide

theorem witness_SnapClearsSmallMagnitudes :
    0 < Params.default.tol.toNat ∧ Params.default.tol.toNat ≤ infBits ∧ F64.isNaN 0xFFFFFFFFFFFFFFFF#64 = true ∧
    F64.isInf 0xFFF0000000000000#64 = true ∧
    (F64.isNaN 0xBCC3FFFFFFFFFFFF#64 = false ∧ (0xBCC3FFFFFFFFFFFF#64).toNat % 2 ^ 63 < Params.default.tol.toNat) ∧
    (F64.isNaN 0xBCC4000000000000#64 = false ∧ Params.default.tol.toNat ≤ (0xBCC4000000000000#64).toNat % 2 ^ 63) := by
  decide

theorem witness_DataWindowDecode :
    (3 < Params.default.nbanks ∧ 65535 < Params.default.depth) ∧
    (0x10008 % 8 = 0 ∧ bankWord? Params.default 0x10008 = some ⟨0, 0, true⟩) ∧
    (bankWord? Params.default 0xFFF8 = none ∧ bankWord? Params.default (windowEnd Params.default) = none ∧
      (bankWord? Params.default (windowEnd Params.default - 8)).isSome) := by decide

theorem witness_MalformedAccessIsRefused : Width.w32 ≠ .w64 ∧ (0x01C#64).toNat % 8 ≠ 0 := by decide

theorem witness_BusyAccessesAreRefused :
    (loaded 0#32 4).busy = true ∧
    ((0x10000#64).toNat % 8 = 0 ∧ 0x10000 ≤ (0x10000#64).toNat ∧ (0x10000#64).toNat < windowEnd Params.default) ∧
    ((0x40FFF8#64).toNat % 8 = 0 ∧ (0x40FFF8#64).toNat = windowEnd Params.default - 8) ∧
    ((3#64).getLsbD 0 = true ∧ (2#64).getLsbD 0 = false) ∧
    ((0xFFF8#64).toNat % 8 = 0 ∧ (0xFFF8#64).toNat < 0x10000) := by decide

theorem witness_ReadsHaveNoSideEffect :
    (∃ t, busRead .w64 0x028#64 State.reset = .next t ∧ (0x028#64).toNat % 8 = 0 ∧ State.reset.busy = false) ∧
    ((0x030#64).toNat % 8 = 0 ∧ (0x030#64).toNat < 0x10000 ∧ 0x030#64 ∉ [0x010#64, 0x018#64, 0x020#64, 0x028#64]) :=
  ⟨⟨_, rfl, rfl, rfl⟩, by decide⟩

theorem witness_UnmappedOffsetsReadZero :
    (0x050 ≤ (0x050#64).toNat ∧ (0x050#64).toNat < 0x10000) ∧ (0xFFF8#64).toNat < 0x10000 ∧
    windowEnd State.reset.params ≤ (0x410000#64).toNat ∧ (0x410000#64).toNat % 8 = 0 := by decide

theorem witness_BankWordsReadBack :
    State.reset.params.legal ∧ State.reset.busy = false ∧ 3 < State.reset.params.nbanks ∧
    65535 < State.reset.params.depth ∧
    wordOffset State.reset.params ⟨3, 65535, true⟩ + 8 = windowEnd State.reset.params := by decide

theorem witness_CommandRegistersReadBack : State.reset.busy = false := rfl

theorem witness_StartStepLatchesTheCommand :
    (1#64).getLsbD 0 = true ∧ (loaded 0#32 4).busy = true ∧ State.reset.busy = false ∧ (2#64).getLsbD 0 = false := by decide

theorem witness_InterruptFollowsDone :
    (∃ t, completionStep (inFlight 0#32 0) = .next t) ∧ ((1#64).getLsbD 0 = true ∧ State.reset.busy = false) ∧
    (2#64).getLsbD 1 = true ∧ (2#64).getLsbD 0 = false := ⟨⟨_, rfl⟩, by decide⟩

/-- A state with a command in flight meets the invariant. -/
theorem inFlight_inv (w : CmdWord) (n : Nat) : (inFlight w n).Inv where
  params := by
    change Params.default.legal
    decide
  canonical := List.Pairwise.nil
  whole := fun _ h => by cases h
  flags := ⟨fun _ => rfl, fun _ => rfl, fun _ => rfl, fun h => by cases h⟩
  quiet := fun h => by cases h

theorem witness_BusyHostCannotDisturbTheCommand :
    (inFlight 0x00000C09#32 0).busy = true ∧ (inFlight 0x00000C09#32 0).flagsAgree ∧
    (∃ s', busAccess (.write .w64 0x018#64 5#64) (inFlight 0x00000C09#32 0) = .next s') ∧
    (∃ s', busAccess (.read .w64 0x10000#64) (inFlight 0x00000C09#32 0) = .next s') :=
  ⟨rfl, (inFlight_inv _ _).flags, ⟨_, rfl⟩, _, rfl⟩

theorem witness_RomAndConstantsNeverChange :
    (∃ t, step (inFlight 0#32 0) = .next t) ∧ ∃ t, exec (.twid .fwd 3) State.reset = .next t ∧ t.err = false :=
  ⟨⟨_, rfl⟩, _, rfl, rfl⟩

theorem witness_StepKeepsTheInvariant :
    (inFlight 0#32 0).Inv ∧ ∃ t, step (inFlight 0#32 0) = .next t := ⟨inFlight_inv _ _, _, rfl⟩

/-- A command in flight, with no turn pending; one that faults, too. -/
theorem witness_CommandInFlightCompletes :
    ((inFlight 0#32 0).Inv ∧ (inFlight 0#32 0).busy = true) ∧
    ((inFlight 0x00010001#32 4).Inv ∧ (inFlight 0x00010001#32 4).busy = true) :=
  ⟨⟨inFlight_inv _ _, rfl⟩, inFlight_inv _ _, rfl⟩

/-- The least and the greatest legal parameters. -/
theorem witness_RegistersReadTheirFields :
    (State.resetWith ⟨2, 2, 1#64, .exact, 0#4⟩).params.legal ∧
    (State.resetWith ⟨30, 16, 0x7FF0000000000000#64, .piD, 15#4⟩).params.legal := by
  unfold Params.legal
  decide

/-- The greatest finite value with the least addend that overflows it, and with the value below that one; a product of the
same magnitude; a quotient on either side. -/
theorem witness_OverflowGivesTheSignedInfinity :
    let m : F64 := 0x7FEFFFFFFFFFFFFF#64
    F64.isFinite m = true ∧
    ((overflowUnits : Int) ≤ |F64.toUnits m + F64.toUnits 0x7C90000000000000#64| ∧
      fadd [] m 0x7C90000000000000#64 = 0x7FF0000000000000#64) ∧
    (|F64.toUnits m + F64.toUnits 0x7C8FFFFFFFFFFFFF#64| < (overflowUnits : Int) ∧ fadd [] m 0x7C8FFFFFFFFFFFFF#64 = m) ∧
    ((overflowUnits : Int) ≤ |F64.toUnits (fneg m) - F64.toUnits m| ∧ |F64.toUnits m - F64.toUnits m| < (overflowUnits : Int)) ∧
    (F64.toUnits 0x419FFFFFFC000000#64 * F64.toUnits 0x7E40000002000000#64 = overflowUnits * unitsPerOne ∧
      fmul [] (fneg 0x419FFFFFFC000000#64) 0x7E40000002000000#64 = 0xFFF0000000000000#64) ∧
    |F64.toUnits m * F64.toUnits d1| < (overflowUnits * unitsPerOne : Int) ∧
    (F64.isZero d1 = false ∧ |F64.toUnits m * (unitsPerOne : Int)| < overflowUnits * |F64.toUnits d1|) ∧
    (F64.isZero F64.half = false ∧ overflowUnits * |F64.toUnits F64.half| ≤ |F64.toUnits m * (unitsPerOne : Int)|) := by
  decide +kernel

/-- Results that are no NaN: an infinity with a finite value, in both places; a sum of exact value 0, and one that is not 0; a
product and a quotient of an infinity, and of a zero. -/
theorem witness_SpecialOperandsFollowIeee :
    let p : F64 := 0x7FF0000000000000#64
    (F64.isNaN (fadd [] p d1) = false ∧ F64.isInf p = true ∧ F64.isNaN (fadd [] d1 p) = false) ∧
    (F64.isNaN (fadd [] d1 m1) = false ∧ F64.isFinite d1 = true ∧ F64.isFinite m1 = true ∧
      F64.toUnits d1 + F64.toUnits m1 = 0 ∧ F64.toUnits d1 + F64.toUnits d1 ≠ 0) ∧
    (F64.isNaN (fmul [] p m1) = false ∧ F64.isNaN (fmul [] d0 m1) = false ∧ F64.isZero d0 = true) ∧
    (F64.isNaN (fdiv [] p m1) = false ∧ F64.isNaN (fdiv [] m1 d0) = false ∧ F64.isNaN (fdiv [] d0 m1) = false ∧
      F64.isNaN (fdiv [] m1 p) = false) := by decide +kernel

theorem witness_IntegersConvertExactly : 2 ^ 53 - 1 < 2 ^ 53 ∧ 0 < 2 ^ 53 ∧ ∃ e ≤ 63, 2 ^ 63 = 2 ^ e :=
  ⟨by decide, by decide, 63, le_refl _, rfl⟩

theorem witness_RomHoldsTheTable : (4 ≤ 60 ∧ 4 ∉ [0, 1, 2, 3, 5, 12, 15, 19, 27, 28]) ∧
    (60 ≤ 60 ∧ 60 ∉ [0, 1, 2, 3, 5, 12, 15, 19, 27, 28]) := by decide

end Sys2Proof.Tests
end

section
/-! PROOFS. The arithmetic statements of the scope family (00_scope.md rules R11 to R16): the classes of binary64 values, the
cases of the four operations, the magnitudes as a strictly increasing function of the bits, and the rounding as the nearest
value or, from the overflow threshold on, an infinity. -/

namespace Sys2Proof.Proofs
open Sys2Proof Sys2Proof.Machine

/-! ### Classes, signs and the sign operations -/

theorem isNaN_eq_false_iff {a : F64} : F64.isNaN a = false ↔ F64.absBits a ≤ infBits := by
  simp [F64.isNaN]

theorem isInf_iff {a : F64} : F64.isInf a = true ↔ F64.absBits a = infBits := by
  simp [F64.isInf]

theorem isZero_iff {a : F64} : F64.isZero a = true ↔ F64.absBits a = 0 := by
  simp [F64.isZero]

theorem isFinite_iff {a : F64} : F64.isFinite a = true ↔ F64.absBits a < infBits := by
  simp [F64.isFinite]

theorem isNaN_of_isInf {a : F64} (h : F64.isInf a = true) : F64.isNaN a = false :=
  isNaN_eq_false_iff.2 (isInf_iff.1 h).le

theorem isZero_of_isInf {a : F64} (h : F64.isInf a = true) : F64.isZero a = false := by
  simp [F64.isZero, isInf_iff.1 h, infBits]

theorem isNaN_of_isFinite {a : F64} (h : F64.isFinite a = true) : F64.isNaN a = false :=
  isNaN_eq_false_iff.2 (isFinite_iff.1 h).le

theorem isInf_of_isFinite {a : F64} (h : F64.isFinite a = true) : F64.isInf a = false := by
  simp [F64.isInf, (isFinite_iff.1 h).ne]

/-- Every pattern is a NaN, an infinity or a finite value. -/
theorem isNaN_or_isInf_or_isFinite (a : F64) : F64.isNaN a = true ∨ F64.isInf a = true ∨ F64.isFinite a = true := by
  simp only [F64.isNaN, F64.isInf, F64.isFinite, decide_eq_true_eq, beq_iff_eq]
  omega

theorem eq_of_sign_absBits {a b : F64} (hs : F64.sign a = F64.sign b) (hb : F64.absBits a = F64.absBits b) : a = b := by
  rw [← F64.pack_sign_absBits a, ← F64.pack_sign_absBits b, hs, hb]

theorem sign_eq_getLsbD (a : F64) : F64.sign a = a.getLsbD 63 := by
  have ha := a.isLt
  rw [F64.sign, BitVec.getLsbD, Nat.testBit, Nat.shiftRight_eq_div_pow]
  obtain h | h : a.toNat / 2 ^ 63 = 0 ∨ a.toNat / 2 ^ 63 = 1 := by omega
  all_goals rw [h]; rfl

theorem inf_sign_of_isInf {a : F64} (h : F64.isInf a = true) : F64.inf (F64.sign a) = a := by
  rw [F64.inf, ← isInf_iff.1 h, F64.pack_sign_absBits]

theorem isInf_inf (neg : Bool) : F64.isInf (F64.inf neg) = true := isInf_iff.2 (F64.absBits_inf neg)

theorem sign_inf (neg : Bool) : F64.sign (F64.inf neg) = neg := F64.sign_pack (by decide)

/-- Infinities differ exactly in their signs. -/
theorem sign_ne_iff_of_isInf {a b : F64} (ha : F64.isInf a = true) (hb : F64.isInf b = true) :
    F64.sign a ≠ F64.sign b ↔ a ≠ b := by
  refine not_congr ⟨fun h => eq_of_sign_absBits h ?_, fun h => h ▸ rfl⟩
  rw [isInf_iff.1 ha, isInf_iff.1 hb]

theorem fneg_getLsbD (a : F64) {j : Nat} (hj : j < 64) :
    (fneg a).getLsbD j = if j = 63 then !a.getLsbD j else a.getLsbD j := by
  rw [fneg, show (0x8000000000000000#64) = BitVec.twoPow 64 63 from rfl, BitVec.getLsbD_xor, BitVec.getLsbD_twoPow]
  obtain rfl | h := eq_or_ne j 63
  · simp
  · simp [h, h.symm]

theorem fabs_getLsbD (a : F64) {j : Nat} (hj : j < 64) :
    (fabs a).getLsbD j = if j = 63 then false else a.getLsbD j := by
  rw [fabs, show (0x7FFFFFFFFFFFFFFF#64) = ~~~ BitVec.twoPow 64 63 from rfl, BitVec.getLsbD_and, BitVec.getLsbD_not,
    BitVec.getLsbD_twoPow]
  obtain rfl | h := eq_or_ne j 63
  · simp
  · simp [h, h.symm, hj]

theorem absBits_fabs (a : F64) : F64.absBits (fabs a) = F64.absBits a := by
  rw [F64.absBits, fabs_toNat, Nat.mod_mod, F64.absBits]

theorem sign_fabs (a : F64) : F64.sign (fabs a) = false := by
  rw [sign_eq_getLsbD, fabs_getLsbD a (by decide), if_pos rfl]

/-! ### The snap (R16) -/

theorem absBits_of_positive {tol : F64} (h : tol.toNat ≤ infBits) : F64.absBits tol = tol.toNat :=
  Nat.mod_eq_of_lt (h.trans_lt (by decide))

theorem sign_of_positive {tol : F64} (h : tol.toNat ≤ infBits) : F64.sign tol = false := by
  rw [F64.sign, Nat.div_eq_of_lt (h.trans_lt (by decide))]
  rfl

/-- The comparison the snap makes with a positive tolerance. -/
theorem flt_fabs_iff {tol v : F64} (h : tol.toNat ≤ infBits) :
    flt (fabs v) tol = true ↔ F64.isNaN v = false ∧ F64.absBits v < tol.toNat := by
  have hn : F64.isNaN tol = false := isNaN_eq_false_iff.2 ((absBits_of_positive h).trans_le h)
  have hv : F64.isNaN (fabs v) = F64.isNaN v := by simp [F64.isNaN, absBits_fabs]
  simp [flt, F64.order, hn, hv, sign_fabs, absBits_fabs, sign_of_positive h, absBits_of_positive h]

theorem snap_of_lt {tol v : F64} (h : tol.toNat ≤ infBits) (hn : F64.isNaN v = false) (hv : F64.absBits v < tol.toNat) :
    snap tol v = 0#64 :=
  if_pos ((flt_fabs_iff h).2 ⟨hn, hv⟩)

theorem snap_of_not_lt {tol v : F64} (h : tol.toNat ≤ infBits) (hv : ¬(F64.isNaN v = false ∧ F64.absBits v < tol.toNat)) :
    snap tol v = v :=
  if_neg (mt (flt_fabs_iff h).1 hv)

/-- Settles O36: the comparison of the snap is one of magnitude bits. -/
theorem snapClearsSmallMagnitudes : Obligations.SnapClearsSmallMagnitudes := by
  intro tol v _ h
  refine ⟨fun hn => snap_of_not_lt h ?_, fun hi => snap_of_not_lt h ?_, snap_of_lt h, fun _ hv => snap_of_not_lt h ?_,
    fun _ => rfl⟩
  · simp [hn]
  · simp [isInf_iff.1 hi, h]
  · rintro ⟨-, hlt⟩
    exact absurd hlt (not_lt.2 hv)

/-! ### The magnitude as a function of the bits, and the comparison (R13) -/

/-- `F64.mag` as a function of the magnitude bits. -/
def magOfBits (n : Nat) : Nat :=
  if n / 2 ^ 52 = 0 then n % 2 ^ 52 else (2 ^ 52 + n % 2 ^ 52) * 2 ^ (n / 2 ^ 52 - 1)

theorem mag_eq_magOfBits (a : F64) : F64.mag a = magOfBits (F64.absBits a) := by
  rw [F64.mag, magOfBits, F64.expo, F64.frac, show F64.absBits a % 2 ^ 52 = a.toNat % 2 ^ 52 by
    simp only [F64.absBits]; omega]

/-- The next pattern has a greater magnitude, whether the exponent stays or the fraction carries into it. -/
theorem magOfBits_lt_succ (n : Nat) : magOfBits n < magOfBits (n + 1) := by
  unfold magOfBits
  obtain ⟨h, hf⟩ | ⟨h, hf, hf'⟩ :
      ((n + 1) / 2 ^ 52 = n / 2 ^ 52 ∧ (n + 1) % 2 ^ 52 = n % 2 ^ 52 + 1) ∨
      ((n + 1) / 2 ^ 52 = n / 2 ^ 52 + 1 ∧ n % 2 ^ 52 = 2 ^ 52 - 1 ∧ (n + 1) % 2 ^ 52 = 0) := by omega
  · rw [h, hf]
    split
    · omega
    · exact Nat.mul_lt_mul_of_pos_right (by omega) (Nat.two_pow_pos _)
  · rw [h, hf, hf', if_neg (Nat.succ_ne_zero _)]
    cases n / 2 ^ 52 with
    | zero => decide
    | succ e =>
      rw [if_neg (Nat.succ_ne_zero _), Nat.add_sub_cancel, Nat.add_sub_cancel, pow_succ]
      have := Nat.two_pow_pos e
      omega

theorem magOfBits_strictMono : StrictMono magOfBits := strictMono_nat_of_lt_succ magOfBits_lt_succ

theorem magOfBits_zero : magOfBits 0 = 0 := rfl

theorem mag_eq_zero_iff {a : F64} : F64.mag a = 0 ↔ F64.isZero a = true := by
  rw [mag_eq_magOfBits, isZero_iff]
  exact magOfBits_strictMono.injective.eq_iff' magOfBits_zero

theorem mag_fneg (a : F64) : F64.mag (fneg a) = F64.mag a := by
  rw [mag_eq_magOfBits, absBits_fneg, mag_eq_magOfBits]

theorem toUnits_fneg (a : F64) : F64.toUnits (fneg a) = -F64.toUnits a := by
  simp only [F64.toUnits, sign_fneg, mag_fneg]
  cases F64.sign a <;> simp

theorem isFinite_fneg (a : F64) : F64.isFinite (fneg a) = F64.isFinite a := by
  simp [F64.isFinite, absBits_fneg]

/-- The magnitudes' order is the bits' order, so the signed values' order is that of `F64.order`. -/
theorem order_lt_order_iff (a b : F64) : F64.order a < F64.order b ↔ F64.toUnits a < F64.toUnits b := by
  have hab := magOfBits_strictMono.lt_iff_lt (a := F64.absBits a) (b := F64.absBits b)
  have hba := magOfBits_strictMono.lt_iff_lt (a := F64.absBits b) (b := F64.absBits a)
  have ha := magOfBits_strictMono.lt_iff_lt (a := 0) (b := F64.absBits a)
  have hb := magOfBits_strictMono.lt_iff_lt (a := 0) (b := F64.absBits b)
  rw [magOfBits_zero] at ha hb
  simp only [F64.order, F64.toUnits, mag_eq_magOfBits]
  split <;> split <;> omega

theorem flt_iff {a b : F64} (ha : F64.isNaN a = false) (hb : F64.isNaN b = false) :
    flt a b = true ↔ F64.order a < F64.order b := by
  simp [flt, ha, hb]

/-- The values that are no NaN lie between the infinities, which only the infinities themselves reach. -/
theorem order_bounds {a : F64} (h : F64.isNaN a = false) :
    -(infBits : Int) ≤ F64.order a ∧ F64.order a ≤ infBits ∧
    (F64.order a = -(infBits : Int) ↔ a = F64.inf true) ∧ (F64.order a = (infBits : Int) ↔ a = F64.inf false) := by
  have hle := isNaN_eq_false_iff.1 h
  have hpos : 0 < infBits := by decide
  have hinf : ∀ neg, a = F64.inf neg ↔ F64.sign a = neg ∧ F64.absBits a = infBits := fun neg =>
    ⟨fun h => h ▸ ⟨sign_inf neg, F64.absBits_inf neg⟩,
      fun ⟨hs, hb⟩ => eq_of_sign_absBits (hs.trans (sign_inf neg).symm) (hb.trans (F64.absBits_inf neg).symm)⟩
  simp only [hinf, F64.order]
  cases F64.sign a <;> simp <;> omega

theorem order_inf (neg : Bool) : F64.order (F64.inf neg) = if neg then -(infBits : Int) else infBits := by
  rw [F64.order, sign_inf, F64.absBits_inf]

/-- Settles O31: the sign operations act on bit 63, and the comparison is that of the exact values. -/
theorem signOperationsAreExact : Obligations.SignOperationsAreExact := by
  refine ⟨fun a j hj => ⟨fneg_getLsbD a hj, fabs_getLsbD a hj⟩, fun a b h => ?_, fun a b ha hb => ?_, fun a ha => ?_⟩
  · obtain h | h := h <;> simp [flt, h]
  · rw [flt_iff (isNaN_of_isFinite ha) (isNaN_of_isFinite hb), order_lt_order_iff]
  · rw [show 0xFFF0000000000000#64 = F64.inf true from rfl, show 0x7FF0000000000000#64 = F64.inf false from rfl,
      ← Bool.not_eq_true, ← Bool.not_eq_true, flt_iff (isNaN_inf _) ha, flt_iff ha (isNaN_inf _),
      flt_iff ha (isNaN_inf _), flt_iff (isNaN_inf _) ha]
    obtain ⟨hlow, hhigh, hneg, hpos⟩ := order_bounds ha
    rw [order_inf, order_inf, if_pos rfl, if_neg (by decide), ne_eq, ne_eq, ← hneg, ← hpos]
    omega

/-! ### The cases of the four operations

The operands that give a NaN (R12, R14) are one predicate for each operation; other operands give one value, whatever the
draw. -/

/-- A NaN operand, or infinities of opposite sign. -/
def SumInvalid (a b : F64) : Prop :=
  F64.isNaN a = true ∨ F64.isNaN b = true ∨ (F64.isInf a = true ∧ F64.isInf b = true ∧ a ≠ b)

/-- A NaN operand, or a zero and an infinity. -/
def ProductInvalid (a b : F64) : Prop :=
  F64.isNaN a = true ∨ F64.isNaN b = true ∨
    (F64.isInf a = true ∧ F64.isZero b = true) ∨ (F64.isZero a = true ∧ F64.isInf b = true)

/-- A NaN operand, or two infinities, or two zeros. -/
def QuotientInvalid (a b : F64) : Prop :=
  F64.isNaN a = true ∨ F64.isNaN b = true ∨
    (F64.isInf a = true ∧ F64.isInf b = true) ∨ (F64.isZero a = true ∧ F64.isZero b = true)

/-- The sign of a product and of a quotient. -/
def signXor (a b : F64) : Bool := F64.sign a != F64.sign b

/-- What a sum can be: a draw, an infinite operand, or the rounded exact sum. -/
inductive SumCase (a b : F64) (f : DrawKey → F64) : Prop
  | drawn (invalid : SumInvalid a b) (value : ∀ κ, f κ = nanAt κ)
  | left (valid : ¬SumInvalid a b) (ha : F64.isInf a = true) (hb : F64.isInf b = true → b = a) (value : ∀ κ, f κ = a)
  | right (valid : ¬SumInvalid a b) (ha : F64.isFinite a = true) (hb : F64.isInf b = true) (value : ∀ κ, f κ = b)
  | rounded (valid : ¬SumInvalid a b) (ha : F64.isFinite a = true) (hb : F64.isFinite b = true)
      (value : ∀ κ, f κ = roundSum (F64.sign a && F64.sign b) (F64.toUnits a + F64.toUnits b))

/-- What a product can be: a draw, an infinity, or the rounded exact product. -/
inductive ProductCase (a b : F64) (f : DrawKey → F64) : Prop
  | drawn (invalid : ProductInvalid a b) (value : ∀ κ, f κ = nanAt κ)
  | infinite (valid : ¬ProductInvalid a b) (ha : F64.isZero a = false) (hb : F64.isZero b = false)
      (value : ∀ κ, f κ = F64.inf (signXor a b))
  | rounded (valid : ¬ProductInvalid a b) (ha : F64.isFinite a = true) (hb : F64.isFinite b = true)
      (value : ∀ κ, f κ = F64.pack (signXor a b) (roundMag (F64.mag a * F64.mag b) unitsPerOne))

/-- What a quotient can be: a draw, an infinity, a zero by an infinite divisor, or the rounded exact quotient. -/
inductive QuotientCase (a b : F64) (f : DrawKey → F64) : Prop
  | drawn (invalid : QuotientInvalid a b) (value : ∀ κ, f κ = nanAt κ)
  | infinite (valid : ¬QuotientInvalid a b) (ha : F64.isZero a = false) (hb : F64.isInf b = false)
      (value : ∀ κ, f κ = F64.inf (signXor a b))
  | zero (valid : ¬QuotientInvalid a b) (ha : F64.isFinite a = true) (hb : F64.isInf b = true)
      (value : ∀ κ, f κ = F64.pack (signXor a b) 0)
  | rounded (valid : ¬QuotientInvalid a b) (ha : F64.isFinite a = true) (hb : F64.isFinite b = true)
      (hz : F64.isZero b = false)
      (value : ∀ κ, f κ = F64.pack (signXor a b) (roundMag (F64.mag a * unitsPerOne) (F64.mag b)))

theorem fadd_of_isFinite (κ : DrawKey) {a b : F64} (ha : F64.isFinite a = true) (hb : F64.isFinite b = true) :
    fadd κ a b = roundSum (F64.sign a && F64.sign b) (F64.toUnits a + F64.toUnits b) := by
  simp [fadd, isNaN_of_isFinite ha, isNaN_of_isFinite hb, isInf_of_isFinite ha, isInf_of_isFinite hb]

theorem fmul_of_isFinite (κ : DrawKey) {a b : F64} (ha : F64.isFinite a = true) (hb : F64.isFinite b = true) :
    fmul κ a b = F64.pack (signXor a b) (roundMag (F64.mag a * F64.mag b) unitsPerOne) := by
  simp [fmul, isNaN_of_isFinite ha, isNaN_of_isFinite hb, isInf_of_isFinite ha, isInf_of_isFinite hb, signXor]

theorem fdiv_of_isFinite (κ : DrawKey) {a b : F64} (ha : F64.isFinite a = true) (hb : F64.isFinite b = true)
    (hz : F64.isZero b = false) :
    fdiv κ a b = F64.pack (signXor a b) (roundMag (F64.mag a * unitsPerOne) (F64.mag b)) := by
  simp [fdiv, isNaN_of_isFinite ha, isNaN_of_isFinite hb, isInf_of_isFinite ha, isInf_of_isFinite hb, hz, signXor]

theorem fadd_case (a b : F64) : SumCase a b (fadd · a b) := by
  obtain ha | ha | ha := isNaN_or_isInf_or_isFinite a
  · exact .drawn (.inl ha) fun κ => by simp [fadd, ha]
  · obtain hb | hb | hb := isNaN_or_isInf_or_isFinite b
    · exact .drawn (.inr (.inl hb)) fun κ => by simp [fadd, hb]
    · by_cases hab : a = b
      · subst hab
        exact .left (by simp [SumInvalid, isNaN_of_isInf ha]) ha (fun _ => rfl) fun κ => by
          simp [fadd, isNaN_of_isInf ha, ha, inf_sign_of_isInf ha]
      · exact .drawn (.inr (.inr ⟨ha, hb, hab⟩)) fun κ => by
          simp [fadd, isNaN_of_isInf ha, isNaN_of_isInf hb, ha, hb, (sign_ne_iff_of_isInf ha hb).2 hab]
    · have hbi := isInf_of_isFinite hb
      exact .left (by simp [SumInvalid, isNaN_of_isInf ha, isNaN_of_isFinite hb, hbi]) ha (by simp [hbi]) fun κ => by
        simp [fadd, isNaN_of_isInf ha, isNaN_of_isFinite hb, ha, hbi, inf_sign_of_isInf ha]
  · have hai := isInf_of_isFinite ha
    have han := isNaN_of_isFinite ha
    obtain hb | hb | hb := isNaN_or_isInf_or_isFinite b
    · exact .drawn (.inr (.inl hb)) fun κ => by simp [fadd, hb]
    · exact .right (by simp [SumInvalid, han, hai, isNaN_of_isInf hb]) ha hb fun κ => by
        simp [fadd, han, hai, isNaN_of_isInf hb, hb, inf_sign_of_isInf hb]
    · exact .rounded (by simp [SumInvalid, han, hai, isNaN_of_isFinite hb]) ha hb fun κ => fadd_of_isFinite κ ha hb

theorem fmul_case (a b : F64) : ProductCase a b (fmul · a b) := by
  obtain ha | ha | ha := isNaN_or_isInf_or_isFinite a
  · exact .drawn (.inl ha) fun κ => by simp [fmul, ha]
  · have han := isNaN_of_isInf ha
    have haz := isZero_of_isInf ha
    obtain hb | hb | hb := isNaN_or_isInf_or_isFinite b
    · exact .drawn (.inr (.inl hb)) fun κ => by simp [fmul, hb]
    · have hbn := isNaN_of_isInf hb
      have hbz := isZero_of_isInf hb
      exact .infinite (by simp [ProductInvalid, han, haz, hbn, hbz]) haz hbz fun κ => by
        simp [fmul, han, haz, hbn, hbz, ha, signXor]
    · have hbn := isNaN_of_isFinite hb
      cases hbz : F64.isZero b
      · exact .infinite (by simp [ProductInvalid, han, haz, hbn, hbz]) haz hbz fun κ => by
          simp [fmul, han, haz, hbn, hbz, ha, signXor]
      · exact .drawn (.inr (.inr (.inl ⟨ha, hbz⟩))) fun κ => by simp [fmul, han, hbn, hbz, ha]
  · have han := isNaN_of_isFinite ha
    have hai := isInf_of_isFinite ha
    obtain hb | hb | hb := isNaN_or_isInf_or_isFinite b
    · exact .drawn (.inr (.inl hb)) fun κ => by simp [fmul, hb]
    · have hbn := isNaN_of_isInf hb
      have hbz := isZero_of_isInf hb
      cases haz : F64.isZero a
      · exact .infinite (by simp [ProductInvalid, han, hai, haz, hbn]) haz hbz fun κ => by
          simp [fmul, han, haz, hbn, hbz, hb, signXor]
      · exact .drawn (.inr (.inr (.inr ⟨haz, hb⟩))) fun κ => by simp [fmul, han, hbn, haz, hb]
    · exact .rounded (by simp [ProductInvalid, han, hai, isNaN_of_isFinite hb, isInf_of_isFinite hb]) ha hb fun κ =>
        fmul_of_isFinite κ ha hb

theorem fdiv_case (a b : F64) : QuotientCase a b (fdiv · a b) := by
  obtain ha | ha | ha := isNaN_or_isInf_or_isFinite a
  · exact .drawn (.inl ha) fun κ => by simp [fdiv, ha]
  · have han := isNaN_of_isInf ha
    have haz := isZero_of_isInf ha
    obtain hb | hb | hb := isNaN_or_isInf_or_isFinite b
    · exact .drawn (.inr (.inl hb)) fun κ => by simp [fdiv, hb]
    · exact .drawn (.inr (.inr (.inl ⟨ha, hb⟩))) fun κ => by simp [fdiv, ha, hb]
    · have hbn := isNaN_of_isFinite hb
      have hbi := isInf_of_isFinite hb
      exact .infinite (by simp [QuotientInvalid, han, haz, hbn, hbi]) haz hbi fun κ => by
        simp [fdiv, han, hbn, hbi, ha, signXor]
  · have han := isNaN_of_isFinite ha
    have hai := isInf_of_isFinite ha
    obtain hb | hb | hb := isNaN_or_isInf_or_isFinite b
    · exact .drawn (.inr (.inl hb)) fun κ => by simp [fdiv, hb]
    · have hbn := isNaN_of_isInf hb
      exact .zero (by simp [QuotientInvalid, han, hai, hbn, isZero_of_isInf hb]) ha hb fun κ => by
        simp [fdiv, han, hai, hbn, hb, signXor]
    · have hbn := isNaN_of_isFinite hb
      have hbi := isInf_of_isFinite hb
      cases hbz : F64.isZero b
      · exact .rounded (by simp [QuotientInvalid, han, hai, hbn, hbz]) ha hb hbz fun κ =>
          fdiv_of_isFinite κ ha hb hbz
      · cases haz : F64.isZero a
        · exact .infinite (by simp [QuotientInvalid, han, hai, hbn, haz]) haz hbi fun κ => by
            simp [fdiv, han, hai, hbn, hbi, haz, hbz, signXor]
        · exact .drawn (.inr (.inr (.inr ⟨haz, hbz⟩))) fun κ => by simp [fdiv, hai, hbi, haz, hbz]

/-! ### What a result owes to its draw (R14) -/

/-- The operation draws its result if its operands are invalid, and otherwise gives one value that is no NaN. -/
structure DrawnIff (invalid : Prop) (f : DrawKey → F64) : Prop where
  drawn : invalid → ∀ κ, f κ = nanAt κ
  fixed : ¬invalid → ∃ r, F64.isNaN r = false ∧ ∀ κ, f κ = r

namespace DrawnIff
variable {invalid : Prop} {f : DrawKey → F64}

theorem of_drawn (h : invalid) (value : ∀ κ, f κ = nanAt κ) : DrawnIff invalid f :=
  ⟨fun _ => value, fun h' => absurd h h'⟩

theorem of_fixed {r : F64} (h : ¬invalid) (hr : F64.isNaN r = false) (value : ∀ κ, f κ = r) : DrawnIff invalid f :=
  ⟨fun h' => absurd h' h, fun _ => ⟨r, hr, value⟩⟩

theorem isNaN_iff (h : DrawnIff invalid f) (κ : DrawKey) : F64.isNaN (f κ) = true ↔ invalid := by
  by_cases hi : invalid
  · simp [h.drawn hi, hi]
  · obtain ⟨r, hr, hf⟩ := h.fixed hi
    simp [hf, hr, hi]

theorem isQuietNaN (h : DrawnIff invalid f) {κ : DrawKey} (hn : F64.isNaN (f κ) = true) :
    F64.isQuietNaN (f κ) = true := by
  rw [h.drawn ((h.isNaN_iff κ).1 hn)]
  exact nanAt_isQuietNaN κ

theorem draw_free (h : DrawnIff invalid f) {κ : DrawKey} (hn : F64.isNaN (f κ) = false) (κ' : DrawKey) :
    f κ' = f κ := by
  obtain ⟨r, -, hf⟩ := h.fixed fun hi => by simp [(h.isNaN_iff κ).2 hi] at hn
  rw [hf, hf]

end DrawnIff

theorem isNaN_roundSum (zeroNeg : Bool) (t : Int) : F64.isNaN (roundSum zeroNeg t) = false := by
  unfold roundSum
  split
  · cases zeroNeg <;> decide
  · exact isNaN_pack_roundMag _ _ _

theorem fadd_drawnIff (a b : F64) : DrawnIff (SumInvalid a b) (fadd · a b) := by
  obtain ⟨h, hf⟩ | ⟨h, ha, -, hf⟩ | ⟨h, -, hb, hf⟩ | ⟨h, -, -, hf⟩ := fadd_case a b
  · exact .of_drawn h hf
  · exact .of_fixed h (isNaN_of_isInf ha) hf
  · exact .of_fixed h (isNaN_of_isInf hb) hf
  · exact .of_fixed h (isNaN_roundSum _ _) hf

theorem fmul_drawnIff (a b : F64) : DrawnIff (ProductInvalid a b) (fmul · a b) := by
  obtain ⟨h, hf⟩ | ⟨h, -, -, hf⟩ | ⟨h, -, -, hf⟩ := fmul_case a b
  · exact .of_drawn h hf
  · exact .of_fixed h (isNaN_inf _) hf
  · exact .of_fixed h (isNaN_pack_roundMag _ _ _) hf

theorem fdiv_drawnIff (a b : F64) : DrawnIff (QuotientInvalid a b) (fdiv · a b) := by
  obtain ⟨h, hf⟩ | ⟨h, -, -, hf⟩ | ⟨h, -, -, hf⟩ | ⟨h, -, -, -, hf⟩ := fdiv_case a b
  · exact .of_drawn h hf
  · exact .of_fixed h (isNaN_inf _) hf
  · exact .of_fixed h (by cases signXor a b <;> decide) hf
  · exact .of_fixed h (isNaN_pack_roundMag _ _ _) hf

/-- The clauses of O33 for an operation whose invalid operands include the NaNs. -/
theorem DrawnIff.nan_results {f : DrawKey → F64} {a b : F64} {invalid : Prop} (h : DrawnIff invalid f)
    (hnan : F64.isNaN a = true ∨ F64.isNaN b = true → invalid) (κ κ' : DrawKey) :
    (F64.isNaN (f κ) = true → F64.isQuietNaN (f κ) = true) ∧
    (F64.isNaN a = true ∨ F64.isNaN b = true → F64.isNaN (f κ) = true) ∧
    (F64.isNaN (f κ) = false → f κ' = f κ) :=
  ⟨h.isQuietNaN, fun hab => (h.isNaN_iff κ).2 (hnan hab), fun hn => h.draw_free hn κ'⟩

/-- Settles O33: invalid operands give a draw, which is a quiet NaN, and others one value for every draw. -/
theorem naNResultsAreQuietDraws : Obligations.NaNResultsAreQuietDraws := by
  intro f hf κ κ' a b
  simp only [List.mem_cons, List.not_mem_nil, or_false] at hf
  obtain rfl | rfl | rfl | rfl := hf
  · exact (fadd_drawnIff a b).nan_results (fun h => h.imp_right .inl) κ κ'
  · rw [← isNaN_fneg b]
    exact (fadd_drawnIff a (fneg b)).nan_results (fun h => h.imp_right .inl) κ κ'
  · exact (fmul_drawnIff a b).nan_results (fun h => h.imp_right .inl) κ κ'
  · exact (fdiv_drawnIff a b).nan_results (fun h => h.imp_right .inl) κ κ'

/-! ### Commutation (R13, R15) -/

/-- Of two infinities either both orders give a draw or the infinities are one. -/
theorem fadd_comm (κ : DrawKey) (a b : F64) : fadd κ a b = fadd κ b a := by
  simp only [fadd, Bool.or_comm (F64.isNaN b), Bool.and_comm (F64.sign b), Int.add_comm (F64.toUnits b)]
  by_cases hi : F64.isInf a = true ∧ F64.isInf b = true
  · obtain ⟨ha, hb⟩ := hi
    simp only [ha, hb]
    cases F64.sign a <;> cases F64.sign b <;> rfl
  · cases ha : F64.isInf a with
    | false => simp
    | true => simp [show F64.isInf b = false by simpa [ha] using hi]

theorem fmul_comm (κ : DrawKey) (a b : F64) : fmul κ a b = fmul κ b a := by
  simp only [fmul, Bool.or_comm, Nat.mul_comm, bne_comm]

/-- A sum does not see the draws of the products it adds: a product that is a draw makes the sum one. -/
theorem fadd_fmul_draw_free (κ κ₁ κ₂ κ₁' κ₂' : DrawKey) (a b c d : F64) :
    fadd κ (fmul κ₁ a b) (fmul κ₂ c d) = fadd κ (fmul κ₁' a b) (fmul κ₂' c d) := by
  have hnan : ∀ {a b}, ProductInvalid a b → ∀ κ, F64.isNaN (fmul κ a b) = true := fun h κ =>
    ((fmul_drawnIff _ _).isNaN_iff κ).2 h
  have hsame : ∀ {a b}, ¬ProductInvalid a b → ∀ κ κ', fmul κ a b = fmul κ' a b := fun h κ κ' => by
    obtain ⟨r, -, hf⟩ := (fmul_drawnIff _ _).fixed h
    exact (hf κ).trans (hf κ').symm
  by_cases hab : ProductInvalid a b
  · rw [(fadd_drawnIff _ _).drawn (.inl (hnan hab _)), (fadd_drawnIff _ _).drawn (.inl (hnan hab _))]
  · by_cases hcd : ProductInvalid c d
    · rw [(fadd_drawnIff _ _).drawn (.inr (.inl (hnan hcd _))), (fadd_drawnIff _ _).drawn (.inr (.inl (hnan hcd _)))]
    · rw [hsame hab κ₁ κ₁', hsame hcd κ₂ κ₂']

theorem cmul_comm (κ : DrawKey) (x y : Cplx) : cmul κ x y = cmul κ y x := by
  unfold cmul
  rw [fmul_comm _ y.re x.re, fmul_comm _ y.im x.im, fmul_comm _ y.re x.im, fmul_comm _ y.im x.re, fadd_comm (5 :: κ),
    fadd_fmul_draw_free (5 :: κ) (3 :: κ) (2 :: κ) (2 :: κ) (3 :: κ)]

/-- Settles O32: the operations commute for all operands, NaNs included. -/
theorem sumAndProductCommute : Obligations.SumAndProductCommute :=
  ⟨fun κ a b _ _ => ⟨fadd_comm κ a b, fmul_comm κ a b⟩, fun κ x y _ _ => cmul_comm κ x y⟩

/-! ### Special operands (R12, R13) -/

theorem sign_pack_roundMag (neg : Bool) (num den : Nat) : F64.sign (F64.pack neg (roundMag num den)) = neg :=
  F64.sign_pack ((roundMag_le num den).trans_lt (by decide))

theorem sign_pack_zero (neg : Bool) : F64.sign (F64.pack neg 0) = neg := F64.sign_pack (by decide)

theorem isZero_pack_zero (neg : Bool) : F64.isZero (F64.pack neg 0) = true := isZero_iff.2 (F64.absBits_pack (by decide))

theorem roundMag_zero (den : Nat) : roundMag 0 den = 0 := by
  simp [roundMag, roundQuot]

theorem signXor_eq (a b : F64) : signXor a b = (a.getLsbD 63 ^^ b.getLsbD 63) := by
  rw [← sign_eq_getLsbD, ← sign_eq_getLsbD, signXor, Bool.bne_eq_xor]

theorem not_isInf_of_isFinite {a : F64} (ha : F64.isFinite a = true) : ¬F64.isInf a = true := by
  simp [isInf_of_isFinite ha]

theorem not_isFinite_of_isInf {a : F64} (ha : F64.isInf a = true) : ¬F64.isFinite a = true :=
  fun h => not_isInf_of_isFinite h ha

theorem roundSum_of_eq_zero (zeroNeg : Bool) {t : Int} (h : t = 0) : roundSum zeroNeg t = F64.pack zeroNeg 0 :=
  if_pos h

theorem roundSum_of_ne_zero (zeroNeg : Bool) {t : Int} (h : t ≠ 0) :
    roundSum zeroNeg t = F64.pack (t < 0) (roundMag t.natAbs 1) :=
  if_neg h

/-- The sums that are no NaN: an infinite operand, or a rounding with the sign of the exact sum. -/
theorem fadd_of_not_isNaN {κ : DrawKey} {a b : F64} (hn : F64.isNaN (fadd κ a b) = false) :
    (F64.isInf a = true → fadd κ a b = a) ∧ (F64.isInf b = true → fadd κ a b = b) ∧
    (F64.isFinite a = true → F64.isFinite b = true →
      (F64.toUnits a + F64.toUnits b = 0 →
        fadd κ a b = if a.getLsbD 63 && b.getLsbD 63 then 0x8000000000000000#64 else 0#64) ∧
      (F64.toUnits a + F64.toUnits b ≠ 0 →
        ((fadd κ a b).getLsbD 63 = true ↔ F64.toUnits a + F64.toUnits b < 0))) := by
  obtain ⟨-, hf⟩ | ⟨-, ha, hb, hf⟩ | ⟨-, ha, hb, hf⟩ | ⟨-, ha, hb, hf⟩ := fadd_case a b
  · simp [hf] at hn
  · exact ⟨fun _ => hf κ, fun h => (hf κ).trans (hb h).symm, fun h => absurd h (not_isFinite_of_isInf ha)⟩
  · exact ⟨fun h => absurd ha (not_isFinite_of_isInf h), fun _ => hf κ, fun _ h => absurd h (not_isFinite_of_isInf hb)⟩
  · refine ⟨fun h => absurd ha (not_isFinite_of_isInf h), fun h => absurd hb (not_isFinite_of_isInf h), fun _ _ =>
      ⟨fun h => ?_, fun h => ?_⟩⟩
    · rw [hf, roundSum_of_eq_zero _ h, sign_eq_getLsbD, sign_eq_getLsbD]
      cases a.getLsbD 63 && b.getLsbD 63 <;> rfl
    · rw [hf, roundSum_of_ne_zero _ h, ← sign_eq_getLsbD, sign_pack_roundMag, decide_eq_true_eq]

theorem fmul_of_not_isNaN {κ : DrawKey} {a b : F64} (hn : F64.isNaN (fmul κ a b) = false) :
    F64.sign (fmul κ a b) = signXor a b ∧
    (F64.isInf a = true ∨ F64.isInf b = true → F64.isInf (fmul κ a b) = true) ∧
    (F64.isZero a = true ∨ F64.isZero b = true → F64.isZero (fmul κ a b) = true) := by
  obtain ⟨-, hf⟩ | ⟨-, ha, hb, hf⟩ | ⟨-, ha, hb, hf⟩ := fmul_case a b
  · simp [hf] at hn
  · exact ⟨by rw [hf, sign_inf], fun _ => by rw [hf, isInf_inf], by simp [ha, hb]⟩
  · refine ⟨by rw [hf, sign_pack_roundMag], by simp [isInf_of_isFinite ha, isInf_of_isFinite hb], fun h => ?_⟩
    have h0 : F64.mag a * F64.mag b = 0 := Nat.mul_eq_zero.2 (h.imp mag_eq_zero_iff.2 mag_eq_zero_iff.2)
    rw [hf, h0, roundMag_zero, isZero_pack_zero]

theorem fdiv_of_not_isNaN {κ : DrawKey} {a b : F64} (hn : F64.isNaN (fdiv κ a b) = false) :
    F64.sign (fdiv κ a b) = signXor a b ∧
    (F64.isInf a = true ∨ F64.isZero b = true → F64.isInf (fdiv κ a b) = true) ∧
    (F64.isZero a = true ∨ F64.isInf b = true → F64.isZero (fdiv κ a b) = true) := by
  obtain ⟨-, hf⟩ | ⟨-, ha, hb, hf⟩ | ⟨-, ha, hb, hf⟩ | ⟨-, ha, hb, hz, hf⟩ := fdiv_case a b
  · simp [hf] at hn
  · exact ⟨by rw [hf, sign_inf], fun _ => by rw [hf, isInf_inf], by simp [ha, hb]⟩
  · exact ⟨by rw [hf, sign_pack_zero], by simp [isInf_of_isFinite ha, isZero_of_isInf hb],
      fun _ => by rw [hf, isZero_pack_zero]⟩
  · refine ⟨by rw [hf, sign_pack_roundMag], by simp [isInf_of_isFinite ha, hz], fun h => ?_⟩
    have h0 : F64.mag a = 0 := mag_eq_zero_iff.2 (h.resolve_right (by simp [isInf_of_isFinite hb]))
    rw [hf, h0, Nat.zero_mul, roundMag_zero, isZero_pack_zero]

/-- Settles O57: the invalid operands are those of the cases, and each valid case gives its own result and sign. -/
theorem specialOperandsFollowIeee : Obligations.SpecialOperandsFollowIeee := by
  intro κ a b
  refine ⟨rfl, (fadd_drawnIff a b).isNaN_iff κ, (fmul_drawnIff a b).isNaN_iff κ, (fdiv_drawnIff a b).isNaN_iff κ,
    fadd_of_not_isNaN, fun hn => ?_, fun hn => ?_⟩
  · rw [← sign_eq_getLsbD, ← signXor_eq]
    exact fmul_of_not_isNaN hn
  · rw [← sign_eq_getLsbD, ← signXor_eq]
    exact fdiv_of_not_isNaN hn

/-! ### Exact values and overflow (R12) -/

theorem unitsPerOne_pos : 0 < unitsPerOne := by
  rw [unitsPerOne]
  positivity

theorem natAbs_toUnits (a : F64) : (F64.toUnits a).natAbs = F64.mag a := by
  unfold F64.toUnits
  split <;> simp

theorem abs_toUnits (a : F64) : |F64.toUnits a| = F64.mag a := by
  rw [Int.abs_eq_natAbs, natAbs_toUnits]

/-- The number with a sign and a magnitude. -/
def signed (neg : Bool) (num : Nat) : Int := if neg then -(num : Int) else num

theorem signed_false (num : Nat) : signed false num = num := rfl

theorem signed_true (num : Nat) : signed true num = -(num : Int) := rfl

theorem signed_mul (neg : Bool) (k den : Nat) : signed neg k * (den : Int) = signed neg (k * den) := by
  cases neg <;> simp [signed]

theorem signed_not (neg : Bool) (num : Nat) : signed (!neg) num = -signed neg num := by
  cases neg <;> simp [signed]

theorem signed_zero (neg : Bool) : signed neg 0 = 0 := by cases neg <;> rfl

theorem toUnits_eq_signed (a : F64) : F64.toUnits a = signed (F64.sign a) (F64.mag a) := rfl

theorem abs_signed (neg : Bool) (num : Nat) : |signed neg num| = num := by
  cases neg <;> simp [signed]

theorem signed_neg_iff {neg : Bool} {num : Nat} (h : 0 < num) : signed neg num < 0 ↔ neg = true := by
  cases neg <;> simp [signed, h]

theorem signed_decide_natAbs (t : Int) : signed (decide (t < 0)) t.natAbs = t := by
  simp only [signed, decide_eq_true_eq]
  split <;> omega

/-- The exact product as a sign and a magnitude. -/
theorem toUnits_mul_toUnits (a b : F64) :
    F64.toUnits a * F64.toUnits b = signed (signXor a b) (F64.mag a * F64.mag b) := by
  rw [toUnits_eq_signed, toUnits_eq_signed, signXor]
  cases F64.sign a <;> cases F64.sign b <;> simp [signed]

theorem isFinite_pack_roundMag {neg : Bool} {num den : Nat} (hd : 0 < den) :
    F64.isFinite (F64.pack neg (roundMag num den)) = true ↔ num < overflowUnits * den := by
  rw [isFinite_iff, F64.absBits_pack ((roundMag_le num den).trans_lt (by decide)), roundMag_lt_infBits_iff hd]

theorem pack_roundMag_of_overflow {num den : Nat} (neg : Bool) (hd : 0 < den) (h : overflowUnits * den ≤ num) :
    F64.pack neg (roundMag num den) = F64.inf neg := by
  have hge := not_lt.1 (mt (roundMag_lt_infBits_iff hd).1 (not_lt.2 h))
  rw [F64.inf, le_antisymm (roundMag_le num den) hge]

theorem inf_eq_ite (neg : Bool) :
    F64.inf neg = if neg = true then 0xFFF0000000000000#64 else 0x7FF0000000000000#64 := by
  cases neg <;> rfl

/-- From the threshold on, rounding the magnitude `num / den` gives the infinity with the sign of `x`. -/
theorem pack_roundMag_eq_inf_of_sign {num den : Nat} {neg : Bool} {x : Int} (hd : 0 < den)
    (h : overflowUnits * den ≤ num) (hx : x < 0 ↔ neg = true) :
    F64.pack neg (roundMag num den) = if x < 0 then 0xFFF0000000000000#64 else 0x7FF0000000000000#64 := by
  rw [pack_roundMag_of_overflow neg hd h, inf_eq_ite]
  simp only [hx]

theorem isFinite_roundSum_iff (zeroNeg : Bool) (t : Int) :
    F64.isFinite (roundSum zeroNeg t) = true ↔ |t| < overflowUnits := by
  obtain rfl | ht := eq_or_ne t 0
  · rw [roundSum_of_eq_zero _ rfl, isFinite_iff, F64.absBits_pack (by decide), abs_zero]
    exact iff_of_true (by decide) (by exact_mod_cast overflowUnits_pos)
  · rw [roundSum_of_ne_zero _ ht, isFinite_pack_roundMag Nat.one_pos, mul_one, Int.abs_eq_natAbs, Int.ofNat_lt]

theorem roundSum_of_overflow (zeroNeg : Bool) {t : Int} (h : (overflowUnits : Int) ≤ |t|) :
    roundSum zeroNeg t = if t < 0 then 0xFFF0000000000000#64 else 0x7FF0000000000000#64 := by
  have hpos := overflowUnits_pos
  have ht : t ≠ 0 := by
    rintro rfl
    rw [abs_zero] at h
    omega
  rw [Int.abs_eq_natAbs, Int.ofNat_le] at h
  rw [roundSum_of_ne_zero _ ht]
  exact pack_roundMag_eq_inf_of_sign Nat.one_pos (by rwa [mul_one]) (by simp)

theorem abs_toUnits_mul (a b : F64) : |F64.toUnits a * F64.toUnits b| = ((F64.mag a * F64.mag b : Nat) : Int) := by
  rw [toUnits_mul_toUnits, abs_signed]

theorem abs_toUnits_scaled (a : F64) : |F64.toUnits a * (unitsPerOne : Int)| = ((F64.mag a * unitsPerOne : Nat) : Int) := by
  rw [abs_mul, abs_toUnits, Nat.abs_cast, Nat.cast_mul]

theorem mag_pos_of_isZero {b : F64} (h : F64.isZero b = false) : 0 < F64.mag b :=
  Nat.pos_of_ne_zero fun h0 => by simp [mag_eq_zero_iff.1 h0] at h

/-- The sign of the exact product, where it is not 0, is the sign a product or quotient gets. -/
theorem toUnits_mul_neg_iff {a b : F64} (ha : 0 < F64.mag a) (hb : 0 < F64.mag b) :
    F64.toUnits a * F64.toUnits b < 0 ↔ signXor a b = true := by
  rw [toUnits_mul_toUnits, signed_neg_iff (Nat.mul_pos ha hb)]

theorem fmul_of_overflow {κ : DrawKey} {a b : F64} (ha : F64.isFinite a = true) (hb : F64.isFinite b = true)
    (h : overflowUnits * unitsPerOne ≤ F64.mag a * F64.mag b) :
    fmul κ a b = if F64.toUnits a * F64.toUnits b < 0 then 0xFFF0000000000000#64 else 0x7FF0000000000000#64 := by
  have hpos := (Nat.mul_pos overflowUnits_pos unitsPerOne_pos).trans_le h
  rw [fmul_of_isFinite κ ha hb]
  exact pack_roundMag_eq_inf_of_sign unitsPerOne_pos h
    (toUnits_mul_neg_iff (Nat.pos_of_mul_pos_right hpos) (Nat.pos_of_mul_pos_left hpos))

theorem fdiv_of_overflow {κ : DrawKey} {a b : F64} (ha : F64.isFinite a = true) (hb : F64.isFinite b = true)
    (hz : F64.isZero b = false) (h : overflowUnits * F64.mag b ≤ F64.mag a * unitsPerOne) :
    fdiv κ a b = if F64.toUnits a * F64.toUnits b < 0 then 0xFFF0000000000000#64 else 0x7FF0000000000000#64 := by
  have hb0 := mag_pos_of_isZero hz
  have hpos := (Nat.mul_pos overflowUnits_pos hb0).trans_le h
  rw [fdiv_of_isFinite κ ha hb hz]
  exact pack_roundMag_eq_inf_of_sign hb0 h (toUnits_mul_neg_iff (Nat.pos_of_mul_pos_right hpos) hb0)

/-- Settles O56: each operation rounds its exact magnitude, which overflows exactly from the threshold on. -/
theorem overflowGivesTheSignedInfinity : Obligations.OverflowGivesTheSignedInfinity := by
  intro κ a b ha hb
  have hb' : F64.isFinite (fneg b) = true := (isFinite_fneg b).trans hb
  refine ⟨?_, ?_, ?_, ?_, ?_, ?_, fun hz => ⟨?_, ?_⟩⟩
  · rw [fadd_of_isFinite κ ha hb, isFinite_roundSum_iff]
    exact id
  · rw [fadd_of_isFinite κ ha hb]
    exact roundSum_of_overflow _
  · rw [fsub, fadd_of_isFinite κ ha hb', isFinite_roundSum_iff, toUnits_fneg, Int.sub_eq_add_neg]
    exact id
  · rw [fsub, fadd_of_isFinite κ ha hb', toUnits_fneg, Int.sub_eq_add_neg]
    exact roundSum_of_overflow _
  · rw [abs_toUnits_mul, fmul_of_isFinite κ ha hb, isFinite_pack_roundMag unitsPerOne_pos]
    exact fun h => by exact_mod_cast h
  · rw [abs_toUnits_mul]
    exact fun h => fmul_of_overflow ha hb (by exact_mod_cast h)
  · rw [abs_toUnits_scaled, abs_toUnits, fdiv_of_isFinite κ ha hb hz, isFinite_pack_roundMag (mag_pos_of_isZero hz)]
    exact fun h => by exact_mod_cast h
  · rw [abs_toUnits_scaled, abs_toUnits]
    exact fun h => fdiv_of_overflow ha hb hz (by exact_mod_cast h)

/-! ### Integers (R11) -/

/-- A number of at most 53 significant bits is its own rounding. -/
theorem mag_pack_roundMag_exact {neg : Bool} {m t : Nat} (hm : m < 2 ^ 53) (h : m * 2 ^ t < overflowUnits) :
    F64.mag (F64.pack neg (roundMag (m * 2 ^ t) 1)) = m * 2 ^ t := by
  rw [mag_pack_roundMag ((roundMag_lt_infBits_iff Nat.one_pos).2 (by rwa [mul_one])), Nat.div_one, one_mul]
  obtain ⟨d, hd⟩ : ∃ d, t = d + ((m * 2 ^ t).log2 - 52) := by
    have hlog : m * 2 ^ t ≠ 0 → (m * 2 ^ t).log2 < 53 + t := fun h0 => by
      rw [Nat.log2_lt h0, pow_add]
      exact Nat.mul_lt_mul_of_pos_right hm (Nat.two_pow_pos t)
    obtain h0 | h0 := eq_or_ne (m * 2 ^ t) 0
    · exact ⟨t, by simp [h0]⟩
    · exact ⟨t - ((m * 2 ^ t).log2 - 52), by have := hlog h0; omega⟩
  generalize (m * 2 ^ t).log2 - 52 = s at *
  rw [hd, pow_add, ← mul_assoc, roundQuot_exact _ (Nat.two_pow_pos s)]

theorem units_lt_overflowUnits {j : Nat} (h : j < 2 ^ 64) : j * unitsPerOne < overflowUnits := by
  calc j * unitsPerOne < 2 ^ 64 * unitsPerOne := Nat.mul_lt_mul_of_pos_right h unitsPerOne_pos
    _ = 2 ^ (64 + 1074) := by rw [unitsPerOne, pow_add]
    _ ≤ 2 ^ (53 + 2044) := pow_le_pow_right₀ one_le_two (by decide)
    _ = 2 ^ 53 * 2 ^ 2044 := pow_add ..
    _ ≤ overflowUnits := le_overflowUnits

theorem mag_u64ToF64 {j : Nat} (h : j < 2 ^ 53 ∨ ∃ e ≤ 63, j = 2 ^ e) : F64.mag (u64ToF64 j) = j * unitsPerOne := by
  obtain hj | ⟨e, he, rfl⟩ := h
  · exact mag_pack_roundMag_exact hj (units_lt_overflowUnits (hj.trans (by decide)))
  · have hlt := units_lt_overflowUnits (Nat.pow_lt_pow_right (by decide : 1 < 2) (by omega : e < 64))
    have hpow : 2 ^ e * unitsPerOne = 1 * 2 ^ (e + 1074) := by rw [unitsPerOne, one_mul, pow_add]
    rw [hpow] at hlt
    rw [u64ToF64, hpow]
    exact mag_pack_roundMag_exact (by decide) hlt

theorem sign_u64ToF64 (j : Nat) : F64.sign (u64ToF64 j) = false := sign_pack_roundMag _ _ _

/-- Settles O58: the integers have at most 53 significant bits and stay below the overflow threshold. -/
theorem integersConvertExactly : Obligations.IntegersConvertExactly := by
  intro j hj
  have hlt : j < 2 ^ 64 := by
    obtain h | ⟨e, he, rfl⟩ := hj
    · exact h.trans (by decide)
    · exact Nat.pow_lt_pow_right (by decide) (by omega)
  refine ⟨?_, by rw [← sign_eq_getLsbD, sign_u64ToF64], ?_⟩
  · rw [u64ToF64, isFinite_pack_roundMag Nat.one_pos, mul_one]
    exact units_lt_overflowUnits hlt
  · rw [toUnits_eq_signed, sign_u64ToF64, mag_u64ToF64 hj]
    exact Nat.cast_mul _ _

/-! ### The nearest value (R12) -/

/-- The magnitudes from `2^(52+s)` on are whole numbers of spacings `2^s`. -/
theorem two_pow_dvd_magOfBits_or_lt (s n : Nat) : 2 ^ s ∣ magOfBits n ∨ magOfBits n < 2 ^ 52 * 2 ^ s := by
  unfold magOfBits
  have hf : n % 2 ^ 52 < 2 ^ 52 := Nat.mod_lt _ (by decide)
  have hs := Nat.two_pow_pos s
  split
  · exact .inr (hf.trans_le (Nat.le_mul_of_pos_right _ hs))
  · obtain h | h := Nat.lt_or_ge (n / 2 ^ 52 - 1) s
    · refine .inr ?_
      calc (2 ^ 52 + n % 2 ^ 52) * 2 ^ (n / 2 ^ 52 - 1)
          < 2 ^ 53 * 2 ^ (n / 2 ^ 52 - 1) := Nat.mul_lt_mul_of_pos_right (by omega) (Nat.two_pow_pos _)
        _ = 2 ^ 52 * 2 ^ (n / 2 ^ 52 - 1 + 1) := by rw [pow_succ _ (n / 2 ^ 52 - 1)]; ring
        _ ≤ 2 ^ 52 * 2 ^ s := Nat.mul_le_mul_left _ (Nat.pow_le_pow_right (by decide) h)
    · exact .inl (Dvd.dvd.mul_left (pow_dvd_pow 2 h) _)

/-- Among the whole numbers of spacings `D` the rounded quotient is nearest, and even where another one is as near. -/
theorem roundQuot_nearest (num : Nat) {D : Nat} (hD : 0 < D) (k : Nat) :
    |(num : Int) - roundQuot num D * D| ≤ |(num : Int) - k * D| ∧
    (|(num : Int) - roundQuot num D * D| = |(num : Int) - k * D| → k ≠ roundQuot num D → roundQuot num D % 2 = 0) := by
  obtain ⟨h1, h2, heven⟩ := roundQuot_near num hD
  generalize roundQuot num D = q at *
  rw [show (2 * q + 1) * D = 2 * (q * D) + D by ring, show 2 * q * D = 2 * (q * D) by ring] at *
  have hk : k = q ∨ k * D + D ≤ q * D ∨ q * D + D ≤ k * D := by
    obtain h | h | h := Nat.lt_trichotomy k q
    · exact .inr (.inl (by simpa [add_mul] using Nat.mul_le_mul_right D h))
    · exact .inl h
    · exact .inr (.inr (by simpa [add_mul] using Nat.mul_le_mul_right D h))
  rw [← Nat.cast_mul, ← Nat.cast_mul]
  obtain rfl | hk := hk
  · exact ⟨le_rfl, fun _ h => absurd rfl h⟩
  · generalize q * D = x at *
    generalize k * D = y at *
    rw [Int.abs_eq_natAbs, Int.abs_eq_natAbs]
    exact ⟨by omega, fun h _ => heven (by omega)⟩

/-- The magnitude bits `bits` are worth the magnitude nearest `num / den`, and are even where another one is as near. -/
def NearestMag (num den bits : Nat) : Prop :=
  ∀ n, |(num : Int) - magOfBits bits * den| ≤ |(num : Int) - magOfBits n * den| ∧
    (|(num : Int) - magOfBits bits * den| = |(num : Int) - magOfBits n * den| → magOfBits n ≠ magOfBits bits →
      bits % 2 = 0)

theorem magOfBits_roundMag {num den : Nat} (h : roundMag num den < infBits) :
    magOfBits (roundMag num den) =
      roundQuot num (den * 2 ^ ((num / den).log2 - 52)) * 2 ^ ((num / den).log2 - 52) := by
  rw [← mag_pack_roundMag (neg := false) h, mag_eq_magOfBits, F64.absBits_pack (h.trans (by decide))]

theorem roundMag_mod_two {num den : Nat} (h : roundMag num den < infBits) :
    roundMag num den % 2 = roundQuot num (den * 2 ^ ((num / den).log2 - 52)) % 2 := by
  simp only [roundMag] at h ⊢
  omega

/-- Where the spacing is above the least, the exact value has a full significand. -/
theorem full_significand_le {num den : Nat} (hd : 0 < den) (h : 0 < (num / den).log2 - 52) :
    2 ^ 52 * (den * 2 ^ ((num / den).log2 - 52)) ≤ num := by
  have h0 : num / den ≠ 0 := by
    rintro h0
    simp [h0] at h
  have hle := Nat.log2_self_le h0
  rw [Nat.le_div_iff_mul_le hd] at hle
  calc 2 ^ 52 * (den * 2 ^ ((num / den).log2 - 52)) = 2 ^ (52 + ((num / den).log2 - 52)) * den := by rw [pow_add]; ring
    _ = 2 ^ (num / den).log2 * den := by rw [show 52 + ((num / den).log2 - 52) = (num / den).log2 by omega]
    _ ≤ num := hle

/-- A rounding that does not overflow is the nearest magnitude: another whole number of spacings is no nearer, and a magnitude
between them lies below the least full significand, itself a whole number of spacings that is no greater than the exact value. -/
theorem roundMag_nearest {num den : Nat} (hd : 0 < den) (h : roundMag num den < infBits) :
    NearestMag num den (roundMag num den) := by
  intro n
  have hfull := full_significand_le (num := num) hd
  rw [magOfBits_roundMag h, roundMag_mod_two h]
  generalize (num / den).log2 - 52 = s at *
  have hD : 0 < den * 2 ^ s := Nat.mul_pos hd (Nat.two_pow_pos s)
  have hscale : ∀ k : Nat, ((k * 2 ^ s : Nat) : Int) * den = k * ((den * 2 ^ s : Nat) : Int) := fun k => by
    push_cast
    ring
  rw [hscale]
  by_cases hdvd : 2 ^ s ∣ magOfBits n
  · obtain ⟨k, hk⟩ := hdvd
    rw [hk, mul_comm (2 ^ s) k, hscale]
    obtain ⟨hle, heven⟩ := roundQuot_nearest num hD k
    exact ⟨hle, fun ht hne => heven ht fun h => hne (h ▸ rfl)⟩
  · have hlt := (two_pow_dvd_magOfBits_or_lt s n).resolve_left hdvd
    have hs : 0 < s := Nat.pos_of_ne_zero fun h0 => hdvd (by simp [h0])
    have hgrid := (roundQuot_nearest num hD (2 ^ 52)).1
    have hlow : magOfBits n * den < 2 ^ 52 * (den * 2 ^ s) := by
      calc magOfBits n * den < 2 ^ 52 * 2 ^ s * den := Nat.mul_lt_mul_of_pos_right hlt hd
        _ = 2 ^ 52 * (den * 2 ^ s) := by ring
    have hnear : |(num : Int) - roundQuot num (den * 2 ^ s) * ((den * 2 ^ s : Nat) : Int)| <
        |(num : Int) - magOfBits n * den| := by
      refine hgrid.trans_lt ?_
      have hfull' := hfull hs
      rw [← Nat.cast_mul, ← Nat.cast_mul, Int.abs_eq_natAbs, Int.abs_eq_natAbs]
      omega
    exact ⟨hnear.le, fun ht => absurd ht hnear.ne⟩

/-! ### The nearest signed value -/

/-- No finite value is nearer to `num / den` than `r`, and the last bit of `r` is 0 where another one is as near. -/
def NearestEven (num den : Int) (r : F64) : Prop :=
  ∀ c, F64.isFinite c = true →
    |num - F64.toUnits r * den| ≤ |num - F64.toUnits c * den| ∧
    (|num - F64.toUnits r * den| = |num - F64.toUnits c * den| → F64.toUnits c ≠ F64.toUnits r → r.getLsbD 0 = false)

theorem NearestEven.neg {num den : Int} {r : F64} (h : NearestEven num den r) : NearestEven (-num) (-den) r := by
  intro c hc
  have hflip : ∀ t : Int, |-num - t * -den| = |num - t * den| := fun t => by
    rw [← abs_neg]
    ring_nf
  rw [hflip, hflip]
  exact h c hc

theorem getLsbD_zero_pack (neg : Bool) {bits : Nat} (h : bits % 2 = 0) : (F64.pack neg bits).getLsbD 0 = false := by
  have hnat : (F64.pack neg bits).toNat % 2 = 0 := by
    simp only [F64.pack, BitVec.toNat_ofNat]
    split <;> omega
  simp [BitVec.getLsbD, hnat]

/-- The distance of two numbers of one sign is that of their magnitudes, and of two of opposite sign the sum. -/
theorem abs_signed_sub_signed (neg neg' : Bool) (x c : Nat) :
    |signed neg x - signed neg' c| = if neg = neg' then |(x : Int) - c| else (x : Int) + c := by
  simp only [Int.abs_eq_natAbs, signed]
  cases neg <;> cases neg' <;> simp only [reduceIte, Bool.false_eq_true, Bool.true_eq_false] <;> omega

/-- What is nearest among the magnitudes, 0 included, is nearest among the signed numbers: one on the other side of 0 is no
nearer than 0. -/
theorem signed_nearest {x r c : Nat} {even : Prop} (neg neg' : Bool) (hzero : |(x : Int) - r| ≤ |(x : Int)|)
    (hle : |(x : Int) - r| ≤ |(x : Int) - c|) (heven : |(x : Int) - r| = |(x : Int) - c| → c ≠ r → even) :
    |signed neg x - signed neg r| ≤ |signed neg x - signed neg' c| ∧
    (|signed neg x - signed neg r| = |signed neg x - signed neg' c| → signed neg' c ≠ signed neg r → even) := by
  rw [abs_signed_sub_signed neg neg, if_pos rfl, abs_signed_sub_signed neg neg']
  split
  · next h =>
    subst h
    exact ⟨hle, fun ht hne => heven ht fun h => hne (h ▸ rfl)⟩
  · have hfar : |(x : Int) - c| ≤ x + c := by
      simp only [Int.abs_eq_natAbs]
      omega
    refine ⟨hle.trans hfar, fun ht hne => heven (le_antisymm hle (hfar.trans_eq ht.symm)) fun h => hne ?_⟩
    subst h
    obtain rfl : c = 0 := by
      simp only [Int.abs_eq_natAbs] at *
      omega
    rw [signed_zero, signed_zero]

/-- A rounding of a magnitude that gives a finite value is the nearest signed one. -/
theorem pack_roundMag_nearestEven {neg : Bool} {num den : Nat} (hd : 0 < den)
    (hfin : F64.isFinite (F64.pack neg (roundMag num den)) = true) :
    NearestEven (signed neg num) den (F64.pack neg (roundMag num den)) := by
  intro c _
  have h := (roundMag_lt_infBits_iff hd).2 ((isFinite_pack_roundMag hd).1 hfin)
  have hzero := (roundMag_nearest hd h 0).1
  obtain ⟨hle, heven⟩ := roundMag_nearest hd h (F64.absBits c)
  have hb : roundMag num den < 2 ^ 63 := h.trans (by decide)
  rw [toUnits_eq_signed, toUnits_eq_signed, F64.sign_pack hb, mag_eq_magOfBits, mag_eq_magOfBits, F64.absBits_pack hb,
    signed_mul, signed_mul]
  simp only [magOfBits_zero, Nat.cast_zero, zero_mul, sub_zero, ← Nat.cast_mul] at hzero hle heven
  obtain ⟨hle', heven'⟩ := signed_nearest neg (F64.sign c) hzero hle
    fun ht hne => getLsbD_zero_pack neg (heven ht fun h => hne (h ▸ rfl))
  refine ⟨hle', fun ht hne => heven' ht fun h => hne ?_⟩
  rw [← signed_mul, ← signed_mul] at h
  exact mul_right_cancel₀ (Int.natCast_ne_zero.2 hd.ne') h

theorem toUnits_pack_zero (neg : Bool) : F64.toUnits (F64.pack neg 0) = 0 := by cases neg <;> decide

/-- An exact zero is its own value, which no other value reaches. -/
theorem pack_zero_nearestEven (neg : Bool) : NearestEven 0 1 (F64.pack neg 0) := by
  intro c _
  rw [toUnits_pack_zero]
  refine ⟨by simp, fun ht hne => absurd ?_ hne⟩
  simpa using ht.symm

theorem roundSum_nearestEven (zeroNeg : Bool) (t : Int) (h : F64.isFinite (roundSum zeroNeg t) = true) :
    NearestEven t 1 (roundSum zeroNeg t) := by
  obtain rfl | ht := eq_or_ne t 0
  · rw [roundSum_of_eq_zero _ rfl]
    exact pack_zero_nearestEven zeroNeg
  · rw [roundSum_of_ne_zero _ ht] at h ⊢
    have := pack_roundMag_nearestEven Nat.one_pos h
    rwa [signed_decide_natAbs] at this

theorem fadd_nearestEven {κ : DrawKey} {a b : F64} (ha : F64.isFinite a = true) (hb : F64.isFinite b = true)
    (hr : F64.isFinite (fadd κ a b) = true) : NearestEven (F64.toUnits a + F64.toUnits b) 1 (fadd κ a b) := by
  rw [fadd_of_isFinite κ ha hb] at hr ⊢
  exact roundSum_nearestEven _ _ hr

theorem fsub_nearestEven {κ : DrawKey} {a b : F64} (ha : F64.isFinite a = true) (hb : F64.isFinite b = true)
    (hr : F64.isFinite (fsub κ a b) = true) : NearestEven (F64.toUnits a - F64.toUnits b) 1 (fsub κ a b) := by
  rw [Int.sub_eq_add_neg, ← toUnits_fneg]
  exact fadd_nearestEven ha ((isFinite_fneg b).trans hb) hr

theorem fmul_nearestEven {κ : DrawKey} {a b : F64} (ha : F64.isFinite a = true) (hb : F64.isFinite b = true)
    (hr : F64.isFinite (fmul κ a b) = true) :
    NearestEven (F64.toUnits a * F64.toUnits b) unitsPerOne (fmul κ a b) := by
  rw [fmul_of_isFinite κ ha hb] at hr ⊢
  rw [toUnits_mul_toUnits]
  exact pack_roundMag_nearestEven unitsPerOne_pos hr

/-- A quotient is rounded by the divisor's magnitude; a negative divisor changes the sign of both sides. -/
theorem fdiv_nearestEven {κ : DrawKey} {a b : F64} (ha : F64.isFinite a = true) (hb : F64.isFinite b = true)
    (hz : F64.isZero b = false) (hr : F64.isFinite (fdiv κ a b) = true) :
    NearestEven (F64.toUnits a * unitsPerOne) (F64.toUnits b) (fdiv κ a b) := by
  rw [fdiv_of_isFinite κ ha hb hz] at hr ⊢
  have h := pack_roundMag_nearestEven (mag_pos_of_isZero hz) hr
  rw [toUnits_eq_signed a, toUnits_eq_signed b, signed_mul]
  rw [signXor] at h ⊢
  cases hs : F64.sign b with
  | false =>
    rw [hs, Bool.bne_false] at h
    rw [Bool.bne_false, signed_false]
    exact h
  | true =>
    have hneg := h.neg
    rw [hs, Bool.bne_true, signed_not, neg_neg] at hneg
    rw [Bool.bne_true, signed_true]
    exact hneg

/-- Settles O34: each operation rounds its exact value once, to the nearest. -/
theorem operationsRoundToNearestEven : Obligations.OperationsRoundToNearestEven := by
  intro κ a b c ha hb hc
  refine ⟨?_, ?_, ?_, ?_⟩
  · rintro r rfl hr
    simpa using fadd_nearestEven ha hb hr c hc
  · rintro r rfl hr
    simpa using fsub_nearestEven ha hb hr c hc
  · rintro r rfl hr
    exact fmul_nearestEven ha hb hr c hc
  · rintro hz r rfl hr
    exact fdiv_nearestEven ha hb hz hr c hc

end Sys2Proof.Proofs
end

section
/-! PROOFS. The state family (10_state.md): what an answered bus access, command or completion step leaves, as one lemma
each; the invariant of the reachable states; and the registers, flags and INIT bits that the rules of the family name. -/

namespace Sys2Proof.Proofs
open Sys2Proof Sys2Proof.Machine

/-! ### What an answered access, command or completion step leaves -/

/-- A write of STATUS as one update of the state (R38). -/
theorem writeStatus_eq (s : State) (v : Word) :
    s.writeStatus v = { s with
      done := if v.getLsbD 1 = true ∧ s.done = true then false else s.done
      err := if v.getLsbD 1 = true ∧ s.done = true then false else s.err
      errCode := if v.getLsbD 1 = true ∧ s.done = true then 0 else s.errCode
      accessErr := if v.getLsbD 3 = true then false else s.accessErr } := by
  simp only [State.writeStatus, State.acknowledge, ← ite_and]
  split_ifs <;> rfl

/-- An answered bus access returned a value, was refused, or was a write. -/
theorem busAccess_next {a : BusAccess} {s t : State} (h : busAccess a s = .next t) :
    (∃ v, t = s.returns v) ∨ t = s.refuseAccess.returns 0 ∨ ∃ v, BusWriteCase s v t := by
  cases a with
  | read width offset =>
    change busRead width offset s = .next t at h
    rcases busRead_cases width offset s with ⟨v, hr⟩ | hr | ⟨-, hr⟩
    all_goals rw [hr] at h; cases h
    · exact .inl ⟨v, rfl⟩
    · exact .inr (.inl rfl)
  | write width offset v =>
    cases h
    exact .inr (.inr ⟨v, busWrite_cases width offset v s⟩)

/-- A command that answers a state failed with its first error, or succeeded with none. -/
theorem exec_next {i : Instr} {s t : State} (h : exec i s = .next t) :
    (∃ e p, FailedFrom s t e p) ∨ (∀ e, ¬commandError s i e) ∧ SucceededFrom s t i := by
  rcases exec_cases i s with ⟨e, p, t', -, -, hr, hf⟩ | ⟨-, -, hr⟩ | ⟨t', hn, -, hr, hf⟩
  all_goals rw [hr] at h; cases h
  · exact .inl ⟨e, p, hf⟩
  · exact .inr ⟨hn, hf⟩

/-- A completion step that answers a state failed, or succeeded as a command to which no error applies. -/
theorem completionStep_next {s t : State} (h : completionStep s = .next t) :
    (∃ e p, FailedFrom s t e p) ∨
      ∃ i, decode s.cmdl = .ok i ∧ (∀ e, ¬commandError s i e) ∧ SucceededFrom s t i := by
  rcases completionStep_cases s with ⟨e, p, t', -, -, -, hr, hf⟩ | ⟨i, -, -, hr⟩ | ⟨i, t', hd, hn, hr, hf⟩
  all_goals rw [hr] at h; cases h
  · exact .inl ⟨e, p, hf⟩
  · exact .inr ⟨i, hd, fun e => mt (latchedError_of_decode hd e).2 (hn e), hf⟩

/-- NOP and TWID, which have no destination bank, leave the memory. -/
theorem mem_of_succeededFrom_none {s t : State} {i : Instr} (h : SucceededFrom s t i) (hw : writeBank? i = none) :
    t.mem = s.mem := by
  obtain ⟨p, u, re, im, zs, rfl, -⟩ := h
  simp only [hw]

/-- A successful command writes `n` elements of its destination bank. -/
theorem mem_of_succeededFrom_some {s t : State} {i : Instr} {d : Nat} (h : SucceededFrom s t i)
    (hw : writeBank? i = some d) :
    ∃ zs : List Cplx, zs.length = s.n ∧ t.mem = s.mem.writeElems (elemOffset s.params d 0) zs := by
  obtain ⟨p, u, re, im, zs, rfl, -, hl, -⟩ := h
  exact ⟨zs, hl, by simp only [hw]⟩

/-- What a failed and a successful completion step share: the registers they keep, and BUSY and DONE. -/
structure EndedFrom (s t : State) : Prop where
  params : t.params = s.params
  cmd : t.cmd = s.cmd
  len : t.len = s.len
  irqEn : t.irqEn = s.irqEn
  accessErr : t.accessErr = s.accessErr
  cmdl : t.cmdl = s.cmdl
  lenl : t.lenl = s.lenl
  inReset : t.inReset = s.inReset
  rdata : t.rdata = s.rdata
  turns : t.turns = s.turns
  busy : t.busy = false
  done : t.done = true

theorem endedFrom_of_failedFrom {s t : State} {e : ErrorCode} {p : Bool} (h : FailedFrom s t e p) : EndedFrom s t := by
  cases h
  constructor <;> rfl

theorem endedFrom_of_succeededFrom {s t : State} {i : Instr} (h : SucceededFrom s t i) : EndedFrom s t := by
  obtain ⟨p, u, re, im, zs, rfl, -⟩ := h
  constructor <;> rfl

theorem endedFrom_of_exec {i : Instr} {s t : State} (h : exec i s = .next t) : EndedFrom s t := by
  obtain ⟨e, p, hf⟩ | ⟨-, hs⟩ := exec_next h
  · exact endedFrom_of_failedFrom hf
  · exact endedFrom_of_succeededFrom hs

theorem endedFrom_of_completionStep {s t : State} (h : completionStep s = .next t) : EndedFrom s t := by
  obtain ⟨e, p, hf⟩ | ⟨i, -, -, hs⟩ := completionStep_next h
  · exact endedFrom_of_failedFrom hf
  · exact endedFrom_of_succeededFrom hs

/-! ### The invariant -/

theorem memoryWhole_congr {s t : State} (h : s.memoryWhole) (hp : t.params = s.params) (hm : t.mem = s.mem) :
    t.memoryWhole := by
  unfold State.memoryWhole
  rw [hp, hm]
  exact h

theorem resetQuiet_of_released {s : State} (h : s.inReset = false) : s.resetQuiet :=
  fun hr => absurd hr (by simp [h])

/-- The flags of a state in which a command has been acknowledged or none has been completed. -/
theorem flagsAgree_of_cleared {s : State} (hd : s.done = false) (he : s.err = false) (hc : s.errCode = 0) :
    s.flagsAgree :=
  ⟨fun _ => hd, fun _ => he, fun _ => hc, fun h => absurd h (by simp [he])⟩

theorem flagsAgree_of_failedFrom {s t : State} {e : ErrorCode} {p : Bool} (h : FailedFrom s t e p) : t.flagsAgree := by
  cases h
  exact ⟨nofun, nofun, nofun, fun _ => ⟨e, rfl⟩⟩

theorem flagsAgree_of_succeededFrom {s t : State} {i : Instr} (h : SucceededFrom s t i) : t.flagsAgree := by
  obtain ⟨p, u, re, im, zs, rfl, -⟩ := h
  exact ⟨nofun, nofun, fun _ => rfl, nofun⟩

theorem flagsAgree_writeStatus {s : State} (h : s.flagsAgree) (v : Word) : (s.writeStatus v).flagsAgree := by
  rw [writeStatus_eq]
  by_cases hc : v.getLsbD 1 = true ∧ s.done = true
  · exact flagsAgree_of_cleared (if_pos hc) (if_pos hc) (if_pos hc)
  · simp only [if_neg hc]
    exact h

/-- The destination bank of a command to which no error applies exists, and holds its length (R201). -/
theorem writeBank_fits {s : State} {i : Instr} {d : Nat} (h : ∀ e, ¬commandError s i e) (hw : writeBank? i = some d) :
    d < s.params.nbanks ∧ s.n ≤ s.params.depth := by
  constructor
  · by_contra hd
    exact h .badBank ⟨d, by simp [hw], by omega⟩
  · by_contra hn
    exact h .capacity ⟨by simp [hw], by omega⟩

/-- A successful command keeps the form of the memory. -/
theorem memory_of_succeededFrom {s t : State} {i : Instr} (hc : s.mem.wf) (hm : s.memoryWhole)
    (hn : ∀ e, ¬commandError s i e) (h : SucceededFrom s t i) : t.mem.wf ∧ t.memoryWhole := by
  have hp := (endedFrom_of_succeededFrom h).params
  cases hw : writeBank? i with
  | none =>
    have ht := mem_of_succeededFrom_none h hw
    exact ⟨ht ▸ hc, memoryWhole_congr hm hp ht⟩
  | some d =>
    obtain ⟨zs, hl, ht⟩ := mem_of_succeededFrom_some h hw
    obtain ⟨hd, hf⟩ := writeBank_fits hn hw
    exact ⟨ht ▸ Memory.writeElems_wf hc _ _, memoryWhole_writeElems hm hp ht hd (hl ▸ hf)⟩

theorem inv_completionStep {s t : State} (h : s.Inv) (hr : s.inReset = false) (hs : completionStep s = .next t) :
    t.Inv := by
  have he := endedFrom_of_completionStep hs
  have hl : t.params.legal := he.params ▸ h.params
  have hq : t.resetQuiet := resetQuiet_of_released (he.inReset.trans hr)
  obtain ⟨e, p, hf⟩ | ⟨i, -, hn, hf⟩ := completionStep_next hs
  · have hm : t.mem = s.mem := by rw [hf]
    exact ⟨hl, hm ▸ h.canonical, memoryWhole_congr h.whole he.params hm, flagsAgree_of_failedFrom hf, hq⟩
  · obtain ⟨hc, hw⟩ := memory_of_succeededFrom h.canonical h.whole hn hf
    exact ⟨hl, hc, hw, flagsAgree_of_succeededFrom hf, hq⟩

theorem inv_busWriteCase {s t : State} {v : Word} (h : s.Inv) (hr : s.inReset = false) (hw : BusWriteCase s v t) :
    t.Inv := by
  cases hw with
  | refused | ignored | command | length | enable => exact ⟨h.params, h.canonical, h.whole, h.flags, h.quiet⟩
  | start => exact ⟨h.params, h.canonical, h.whole, flagsAgree_of_cleared rfl rfl rfl, resetQuiet_of_released hr⟩
  | status =>
    refine ⟨?_, ?_, ?_, flagsAgree_writeStatus h.flags v, ?_⟩ <;> rw [writeStatus_eq]
    exacts [h.params, h.canonical, h.whole, resetQuiet_of_released hr]
  | word w _ hb he =>
    obtain ⟨h1, h2, h8⟩ := wordOffset_bounds hb he
    exact ⟨h.params, Memory.writeWord_wf h.canonical _ _, memoryWhole_writeWord h.whole rfl rfl h8 h1 h2, h.flags,
      resetQuiet_of_released hr⟩

theorem inv_busAccess {a : BusAccess} {s t : State} (h : s.Inv) (hr : s.inReset = false)
    (ha : busAccess a s = .next t) : t.Inv := by
  obtain ⟨v, rfl⟩ | rfl | ⟨v, hw⟩ := busAccess_next ha
  · exact ⟨h.params, h.canonical, h.whole, h.flags, h.quiet⟩
  · exact ⟨h.params, h.canonical, h.whole, h.flags, h.quiet⟩
  · exact inv_busWriteCase h hr hw

/-- A core with no bank word written and its flags clear meets the invariant, in reset or not. -/
theorem inv_of_quiet {s : State} (hp : s.params.legal) (hm : s.mem = []) (hb : s.busy = false) (hd : s.done = false)
    (he : s.err = false) (hc : s.errCode = 0) : s.Inv :=
  ⟨hp, by simp [hm], fun a ha => by simp [hm] at ha, flagsAgree_of_cleared hd he hc, fun _ => ⟨hb, hd, hm⟩⟩

theorem inv_assertReset {s : State} (h : s.Inv) : (assertReset s).Inv := inv_of_quiet h.params rfl rfl rfl rfl rfl

theorem inv_releaseReset {s : State} (h : s.Inv) : (releaseReset s).Inv := by
  unfold releaseReset
  split
  · exact inv_of_quiet h.params rfl rfl rfl rfl rfl
  · exact h

theorem inv_engineTurn {s t : State} (h : s.Inv) (ht : engineTurn s = .next t) : t.Inv := by
  unfold engineTurn at ht
  split at ht
  · rename_i hen
    exact inv_completionStep h (by simp_all [State.engineEnabled]) ht
  · cases ht
    exact h

theorem inv_hostTurn {a : BusAccess} {s t : State} (h : s.Inv) (ht : hostTurn a s = .next t) : t.Inv := by
  unfold hostTurn at ht
  split at ht
  · cases ht
    exact h
  · rename_i hr
    exact inv_busAccess h (by simpa using hr) ht

theorem inv_takeTurn {τ : Turn} {s t : State} (h : s.Inv) (ht : takeTurn τ s = .next t) : t.Inv := by
  cases τ with
  | host a => exact inv_hostTurn h ht
  | engine => exact inv_engineTurn h ht
  | resetAssert => cases ht; exact inv_assertReset h
  | resetRelease => cases ht; exact inv_releaseReset h

/-- Settles O53: each agent's turn keeps the invariant, which does not speak of the turns still pending. -/
theorem stepKeepsTheInvariant : Obligations.StepKeepsTheInvariant := by
  intro s t h hs
  unfold step at hs
  split at hs
  · exact inv_engineTurn h hs
  · rename_i τ ts _
    have h' : ({ s with turns := ts } : State).Inv := ⟨h.params, h.canonical, h.whole, h.flags, h.quiet⟩
    exact inv_takeTurn h' hs

/-! ### Aligned accesses -/

theorem accessMalformed_of_aligned {offset : BitVec 64} (h : offset.toNat % 8 = 0) :
    accessMalformed .w64 offset = false := by
  simp [accessMalformed, h]

/-- An aligned read below the data window reads a register. -/
theorem busRead_register {offset : BitVec 64} (s : State) (h8 : offset.toNat % 8 = 0) (hw : offset.toNat < windowBase) :
    busRead .w64 offset s = .next (s.returns (s.readRegister offset.toNat)) := by
  simp [busRead, accessMalformed_of_aligned h8, hw]

/-- An aligned write below the data window writes a register. -/
theorem busWrite_register {offset : BitVec 64} (s : State) (v : Word) (h8 : offset.toNat % 8 = 0)
    (hw : offset.toNat < windowBase) : busWrite .w64 offset v s = s.writeRegister offset.toNat v := by
  simp [busWrite, accessMalformed_of_aligned h8, hw]

theorem busRead_cmd (s : State) : busRead .w64 0x010#64 s = .next (s.returns (s.cmd.setWidth 64)) :=
  busRead_register s (by decide) (by decide)

theorem busRead_len (s : State) : busRead .w64 0x018#64 s = .next (s.returns (s.len.setWidth 64)) :=
  busRead_register s (by decide) (by decide)

theorem busRead_status (s : State) : busRead .w64 0x028#64 s = .next (s.returns s.statusWord) :=
  busRead_register s (by decide) (by decide)

theorem busRead_errInfo (s : State) : busRead .w64 0x030#64 s = .next (s.returns s.errInfo) :=
  busRead_register s (by decide) (by decide)

theorem busWrite_cmd {s : State} (v : Word) (h : s.busy = false) :
    busWrite .w64 0x010#64 v s = { s with cmd := v.setWidth 32 } := by
  have hw : busWrite .w64 0x010#64 v s = if s.busy then s.refuseAccess else { s with cmd := v.setWidth 32 } :=
    busWrite_register s v (by decide) (by decide)
  simpa [h] using hw

theorem busWrite_len {s : State} (v : Word) (h : s.busy = false) :
    busWrite .w64 0x018#64 v s = { s with len := v.setWidth 32 } := by
  have hw : busWrite .w64 0x018#64 v s = if s.busy then s.refuseAccess else { s with len := v.setWidth 32 } :=
    busWrite_register s v (by decide) (by decide)
  simpa [h] using hw

theorem busWrite_ctrl (s : State) (v : Word) : busWrite .w64 0x020#64 v s = s.writeCtrl v :=
  busWrite_register s v (by decide) (by decide)

theorem busWrite_status (s : State) (v : Word) : busWrite .w64 0x028#64 v s = s.writeStatus v :=
  busWrite_register s v (by decide) (by decide)

theorem busWrite_errInfo (s : State) (v : Word) : busWrite .w64 0x030#64 v s = s :=
  busWrite_register s v (by decide) (by decide)

/-! ### The data window -/

/-- The window's decode inverts the offset of every bank word that exists (R62). -/
theorem bankWord?_wordOffset {p : Params} {w : BankWord} (hb : w.bank < p.nbanks) (he : w.elem < p.depth) :
    bankWord? p (wordOffset p w) = some w := by
  obtain ⟨b, k, im⟩ := w
  have hd : 0 < p.depth := Nat.two_pow_pos _
  have hi : im.toNat ≤ 1 := im.toNat_le
  have hq : (wordOffset p ⟨b, k, im⟩ - windowBase) / 8 = 2 * (b * p.depth + k) + im.toNat := by
    cases im <;> simp only [wordOffset, elemOffset, Bool.toNat_true, Bool.toNat_false, if_true, Bool.false_eq_true,
      if_false] <;> omega
  have hh : (2 * (b * p.depth + k) + im.toNat) / 2 = b * p.depth + k := by omega
  have hbank : (2 * (b * p.depth + k) + im.toNat) / (2 * p.depth) = b := by
    rw [← Nat.div_div_eq_div_mul, hh, Nat.mul_comm, Nat.mul_add_div hd, Nat.div_eq_of_lt he, Nat.add_zero]
  have helem : (b * p.depth + k) % p.depth = k := by
    rw [Nat.mul_comm, Nat.mul_add_mod, Nat.mod_eq_of_lt he]
  have him : ((2 * (b * p.depth + k) + im.toNat) % 2 == 1) = im := by
    rw [Nat.mul_add_mod]; cases im <;> rfl
  have hlow : ¬wordOffset p ⟨b, k, im⟩ < windowBase := Nat.not_lt.2 (wordOffset_bounds hb he).1
  simp only [bankWord?, hlow, if_false, hq, hbank, hh, helem, him]
  exact if_pos hb

/-- An offset at or past the end of the window is no bank word (R71). -/
theorem bankWord?_of_windowEnd_le {p : Params} {a : Nat} (h : windowEnd p ≤ a) : bankWord? p a = none := by
  have hd : 0 < p.depth := Nat.two_pow_pos _
  have he : windowEnd p = windowBase + p.nbanks * p.depth * 16 := rfl
  have hbank : p.nbanks ≤ (a - windowBase) / 8 / (2 * p.depth) := by
    rw [Nat.le_div_iff_mul_le (by omega), Nat.mul_left_comm]
    omega
  unfold bankWord?
  rw [if_neg (by omega)]
  exact if_neg (by omega)

/-- The data window of a legal core ends inside the 64-bit offsets. -/
theorem windowEnd_lt {p : Params} (h : p.legal) : windowEnd p < 2 ^ 64 := by
  obtain ⟨-, hd, -, hb, -⟩ := h
  have hp : p.nbanks * p.depth ≤ 16 * 2 ^ 30 := Nat.mul_le_mul hb (Nat.pow_le_pow_right (by omega) hd)
  have hw : windowEnd p = 0x10000 + p.nbanks * p.depth * 16 := rfl
  omega

/-- The offset of a bank word of a legal core, as the bus carries it. -/
theorem toNat_wordOffset {p : Params} {w : BankWord} (hp : p.legal) (hb : w.bank < p.nbanks) (he : w.elem < p.depth) :
    (BitVec.ofNat 64 (wordOffset p w)).toNat = wordOffset p w := by
  have hend := windowEnd_lt hp
  obtain ⟨-, h2, -⟩ := wordOffset_bounds hb he
  exact BitVec.toNat_ofNat _ _ ▸ Nat.mod_eq_of_lt (by omega)

/-- A host read of a bank word with INIT 0, with BUSY = 0, is UNINIT_READ (R44). -/
theorem busRead_bankWord_uninit {s : State} {w : BankWord} (hp : s.params.legal) (hi : s.busy = false)
    (hb : w.bank < s.params.nbanks) (he : w.elem < s.params.depth)
    (hw : s.mem.readWord (wordOffset s.params w) = none) :
    busRead .w64 (BitVec.ofNat 64 (wordOffset s.params w)) s = .fault .uninitRead := by
  have hn := toNat_wordOffset hp hb he
  obtain ⟨h1, -, h8⟩ := wordOffset_bounds hb he
  simp [busRead, accessMalformed_of_aligned (hn ▸ h8), hn, Nat.not_lt.2 h1, bankWord?_wordOffset hb he, hi, hw]

/-- A host write of a bank word, with BUSY = 0 (R69). -/
theorem busWrite_bankWord {s : State} {w : BankWord} (v : Word) (hp : s.params.legal) (hi : s.busy = false)
    (hb : w.bank < s.params.nbanks) (he : w.elem < s.params.depth) :
    busWrite .w64 (BitVec.ofNat 64 (wordOffset s.params w)) v s =
      { s with mem := s.mem.writeWord (wordOffset s.params w) v } := by
  have hn := toNat_wordOffset hp hb he
  obtain ⟨h1, -, h8⟩ := wordOffset_bounds hb he
  simp [busWrite, accessMalformed_of_aligned (hn ▸ h8), hn, Nat.not_lt.2 h1, bankWord?_wordOffset hb he, hi]

/-! ### ERR_INFO and the result registers -/

/-- Settles O10: a failed completion step writes ERR_INFO whole, a successful one keeps it. -/
theorem errInfoHoldsTheFailedCall : Obligations.ErrInfoHoldsTheFailedCall := by
  refine ⟨rfl, fun s t h => ?_, fun s v => ⟨busRead_errInfo s, busWrite_errInfo s v⟩⟩
  obtain ⟨e, p, rfl⟩ | ⟨i, -, -, p, u, re, im, zs, rfl, -⟩ := completionStep_next h
  · exact ⟨fun _ => ⟨BitVec.extractLsb'_append_eq_right, BitVec.extractLsb'_append_eq_left⟩, nofun⟩
  · exact ⟨nofun, fun _ => rfl⟩

theorem results_of_busAccess {a : BusAccess} {s t : State} (h : busAccess a s = .next t) :
    t.resRe = s.resRe ∧ t.resIm = s.resIm := by
  obtain ⟨v, rfl⟩ | rfl | ⟨v, hw⟩ := busAccess_next h
  · exact ⟨rfl, rfl⟩
  · exact ⟨rfl, rfl⟩
  · cases hw with
    | status => rw [writeStatus_eq]; exact ⟨rfl, rfl⟩
    | _ => exact ⟨rfl, rfl⟩

/-- Settles O11: a failed command and a command other than TWID keep both registers, and so does every bus access. -/
theorem onlyTwidWritesTheResultRegisters : Obligations.OnlyTwidWritesTheResultRegisters := by
  refine ⟨rfl, rfl, fun s t h hne => ?_, fun s t a => results_of_busAccess⟩
  obtain ⟨e, p, rfl⟩ | ⟨i, hd, -, p, u, re, im, zs, rfl, -, -, hres⟩ := completionStep_next h
  · simp at hne
  · refine ⟨rfl, ?_⟩
    by_contra hno
    obtain ⟨rfl, rfl⟩ := hres fun dir k hi => hno ⟨dir, k, hi ▸ hd⟩
    simp at hne

/-! ### The INIT bits -/

theorem initBit_reset (b k : Nat) (im : Bool) : State.reset.initBit b k im = false := rfl

/-- An INIT bit is that of the word at its offset (R44, R62). -/
theorem initBit_eq_false_iff {s : State} {b k : Nat} {im : Bool} :
    s.initBit b k im = false ↔ s.mem.readWord (wordOffset s.params ⟨b, k, im⟩) = none :=
  Option.isSome_eq_false_iff.trans Option.isNone_iff_eq_none

/-- A command faults exactly where no error applies and its read set holds a word with INIT 0 (R44, R211). -/
theorem exec_eq_fault_iff (i : Instr) (s : State) :
    exec i s = .fault .uninitRead ↔
      (∀ e, ¬commandError s i e) ∧ ∃ b ∈ readBanks i, ∃ k < s.n, ∃ im, s.initBit b k im = false := by
  rcases exec_cases i s with ⟨e, p, t, hf, -, hr, -⟩ | ⟨hn, hu, hr⟩ | ⟨t, -, hi, hr, -⟩ <;> rw [hr]
  · exact ⟨nofun, fun h => absurd hf.1 (h.1 e)⟩
  · exact ⟨fun _ => ⟨hn, hu⟩, fun _ => rfl⟩
  · refine ⟨nofun, ?_⟩
    rintro ⟨-, b, hb, k, hk, im, h0⟩
    simp [hi b hb k hk im] at h0

/-- A successful command sets the INIT bits of the elements it writes. -/
theorem initBit_of_succeededFrom {s t : State} {i : Instr} {d : Nat} (h : SucceededFrom s t i)
    (hw : writeBank? i = some d) {k : Nat} (hk : k < s.n) (im : Bool) : t.initBit d k im = true := by
  obtain ⟨zs, hl, hm⟩ := mem_of_succeededFrom_some h hw
  have he := State.element_of_writeElems (endedFrom_of_succeededFrom h).params hm (hl ▸ hk)
  by_contra h0
  rw [State.element_eq_none.2 ⟨im, by simpa using h0⟩] at he
  cases he

/-- Settles O12: reset and the host's accesses by the memory's laws, the commands by what `exec` can do. -/
theorem uninitialisedReadsFault : Obligations.UninitialisedReadsFault := by
  refine ⟨initBit_reset, ?_, fun s i => exec_eq_fault_iff i s, ?_, ?_⟩
  · intro s b k im hp hi hb hk h0
    exact busRead_bankWord_uninit (w := ⟨b, k, im⟩) hp hi hb hk (initBit_eq_false_iff.1 h0)
  · intro s b k im v hp hi hb hk
    have hw := busWrite_bankWord (w := ⟨b, k, im⟩) v hp hi hb hk
    have hr := Memory.readWord_writeWord_same s.mem (wordOffset s.params ⟨b, k, im⟩) v
    change (busWrite .w64 (BitVec.ofNat 64 (wordOffset s.params ⟨b, k, im⟩)) v s).initBit b k im = true
    rw [hw]
    exact Option.isSome_of_eq_some hr
  · intro s t i d h ht hw k hk im
    obtain ⟨e, p, rfl⟩ | ⟨-, hs⟩ := exec_next h
    · cases ht
    · exact initBit_of_succeededFrom hs hw hk im

/-! ### The frame of a command -/

/-- Settles O13: the shared registers by `EndedFrom`, the rest by whether the command failed or succeeded. -/
theorem commandFrame : Obligations.CommandFrame := by
  intro i s t h
  obtain ⟨params, cmd, len, irqEn, accessErr, cmdl, lenl, inReset, rdata, turns, busy, done⟩ := endedFrom_of_exec h
  refine ⟨params, cmd, len, irqEn, accessErr, cmdl, lenl, inReset, rdata, turns, busy, done, ?_⟩
  obtain ⟨e, p, rfl⟩ | ⟨-, hs⟩ := exec_next h
  · exact ⟨nofun, fun _ => ⟨rfl, rfl⟩, fun _ _ => rfl, fun _ _ _ _ => rfl, fun _ _ => rfl⟩
  · refine ⟨?_, ?_, fun hw a => by rw [mem_of_succeededFrom_none hs hw], fun d hw => ?_, ?_⟩
    · obtain ⟨p, u, re, im, zs, rfl, -⟩ := hs
      exact fun _ => ⟨rfl, rfl⟩
    · obtain ⟨p, u, re, im, zs, rfl, -, -, hres⟩ := hs
      exact hres
    · obtain ⟨zs, hl, hm⟩ := mem_of_succeededFrom_some hs hw
      exact onlyElementsWritten_of_writeElems hm hl.le
    · obtain ⟨p, u, re, im, zs, rfl, -⟩ := hs
      exact nofun

/-! ### Unmapped offsets -/

/-- The registers' offsets end below 0x050 (R48, R61). -/
theorem readRegister_of_unmapped (s : State) {a : Nat} (h : 0x050 ≤ a) : s.readRegister a = 0 := by
  have hne : ∀ o < 0x050, a ≠ o := fun o ho => by omega
  simp [State.readRegister, hne, offID, offCAPS, offCMD, offLEN, offCTRL, offSTATUS, offERRINFO, offRESRE, offRESIM,
    offTOL]

theorem writeRegister_of_unmapped (s : State) (v : Word) {a : Nat} (h : 0x050 ≤ a) : s.writeRegister a v = s := by
  have hne : ∀ o < 0x050, a ≠ o := fun o ho => by omega
  simp [State.writeRegister, hne, offCMD, offLEN, offCTRL, offSTATUS]

/-- Settles O41: past the registers no offset is mapped, and past the window none decodes. -/
theorem unmappedOffsetsReadZero : Obligations.UnmappedOffsetsReadZero := by
  rintro s offset v h8 (⟨h1, h2⟩ | hend)
  · rw [busRead_register s h8 h2, busWrite_register s v h8 h2, readRegister_of_unmapped s h1,
      writeRegister_of_unmapped s v h1]
    exact ⟨rfl, rfl⟩
  · have hlow : ¬offset.toNat < windowBase := by
      have : windowEnd s.params = windowBase + s.params.nbanks * s.params.depth * 16 := rfl
      omega
    have hm := accessMalformed_of_aligned h8
    have hn := bankWord?_of_windowEnd_le hend
    exact ⟨by simp [busRead, hm, hlow, hn, State.returns], by simp [busWrite, hm, hlow, hn]⟩

/-! ### The interrupt -/

/-- Settles O47: the level is IRQ_EN and DONE, and each of these turns says what becomes of the two. -/
theorem interruptFollowsDone : Obligations.InterruptFollowsDone := by
  refine ⟨rfl, fun s t h => ?_, fun s v hv hb => ?_, fun s v hv => ?_, fun s v hv => ?_⟩
  · have he := endedFrom_of_completionStep h
    simp [State.irq, he.irqEn, he.done]
  · simp [busWrite_ctrl, State.writeCtrl, hv, hb, State.irq]
  · rw [busWrite_status, writeStatus_eq]
    cases hd : s.done <;> simp [State.irq, hv]
  · rw [busWrite_ctrl, State.writeCtrl, if_neg (by simpa using hv)]
    rfl

/-! ### CMD, LEN and STATUS -/

/-- A word cut to 32 bits and read back is the word with its upper half masked (R34, R35). -/
theorem setWidth_setWidth_low (v : Word) : (v.setWidth 32).setWidth 64 = v &&& 0x00000000FFFFFFFF#64 := by
  apply BitVec.eq_of_toNat_eq
  have hm : v.toNat &&& 0xFFFFFFFF = v.toNat % 2 ^ 32 := Nat.and_two_pow_sub_one_eq_mod v.toNat 32
  simp only [BitVec.toNat_setWidth, BitVec.toNat_and, BitVec.toNat_ofNat, hm]
  omega

/-- Settles O43: each write keeps the low half, and each read extends it with zeros. -/
theorem commandRegistersReadBack : Obligations.CommandRegistersReadBack := by
  intro s v hb
  rw [busWrite_cmd v hb, busWrite_len v hb, busRead_cmd, busRead_len, ← BitVec.setWidth_eq_extractLsb' (by decide),
    ← setWidth_setWidth_low]
  exact ⟨rfl, rfl⟩

/-- Settles O45: a write of offset 0x028 is the write of STATUS, as one update. -/
theorem statusWriteClears : Obligations.StatusWriteClears := fun s v =>
  (busWrite_status s v).trans (writeStatus_eq s v)

theorem flagBit_eq (b : Bool) (pos : Nat) : flagBit b pos = b.toNat * 2 ^ pos := by
  cases b <;> simp [flagBit]

theorem statusFields_bounds (s : State) :
    s.busy.toNat ≤ 1 ∧ s.done.toNat ≤ 1 ∧ s.err.toNat ≤ 1 ∧ s.accessErr.toNat ≤ 1 ∧ s.path.toNat ≤ 1 ∧
      s.errCode.toNat < 256 :=
  ⟨s.busy.toNat_le, s.done.toNat_le, s.err.toNat_le, s.accessErr.toNat_le, s.path.toNat_le, s.errCode.isLt⟩

/-- STATUS as a number, each flag at its weight (R37). -/
theorem statusWord_toNat (s : State) :
    s.statusWord.toNat = s.busy.toNat + s.done.toNat * 2 + s.err.toNat * 4 + s.accessErr.toNat * 8 +
      s.path.toNat * 16 + s.errCode.toNat * 256 := by
  have hb := statusFields_bounds s
  simp only [State.statusWord, flagBit_eq, BitVec.toNat_ofNat]
  omega

/-- A bit of a word by division. -/
theorem getLsbD_eq_of_div {v : Word} {j : Nat} {b : Bool} (h : v.toNat / 2 ^ j % 2 = b.toNat) : v.getLsbD j = b := by
  rw [BitVec.getLsbD, Nat.testBit_eq_decide_div_mod_eq, h]
  cases b <;> rfl

/-- A field of a word by division. -/
theorem extractLsb'_eq_of_div {v : Word} {lo n : Nat} {f : BitVec n} (h : v.toNat / 2 ^ lo % 2 ^ n = f.toNat) :
    v.extractLsb' lo n = f := by
  apply BitVec.eq_of_toNat_eq
  rw [BitVec.extractLsb'_toNat, Nat.shiftRight_eq_div_pow, h]

/-- Settles O46: STATUS is the sum of its fields at their weights, so each field is a quotient and a remainder of it. -/
theorem statusReadsItsFields : Obligations.StatusReadsItsFields := by
  intro s
  have hw := statusWord_toNat s
  have hb := statusFields_bounds s
  have h3 : (0#3).toNat = 0 := rfl
  have h48 : (0#48).toNat = 0 := rfl
  refine ⟨s.statusWord, busRead_status s, getLsbD_eq_of_div ?_, getLsbD_eq_of_div ?_, getLsbD_eq_of_div ?_,
    getLsbD_eq_of_div ?_, getLsbD_eq_of_div ?_, extractLsb'_eq_of_div ?_, extractLsb'_eq_of_div ?_,
    extractLsb'_eq_of_div ?_⟩
  all_goals rw [hw]; omega

end Sys2Proof.Proofs
end

section
/-! PROOFS. The memory family (20_memory.md): the data window's decode, the refused accesses, reads and writes of registers
and bank words, what a command writes whatever its destination, and the completion step as the host's accesses leave it. -/

namespace Sys2Proof.Proofs
open Sys2Proof Sys2Proof.Machine

/-! ### The data window's decode -/

/-- Exactly the offsets outside the data window decode to no bank word (R62, R71). -/
theorem bankWord?_eq_none_iff {p : Params} {a : Nat} :
    bankWord? p a = none ↔ a < windowBase ∨ windowEnd p ≤ a := by
  refine ⟨fun h => ?_, ?_⟩
  · by_contra hc
    obtain ⟨hlow, hend⟩ := not_or.1 hc
    have he : windowEnd p = windowBase + p.nbanks * p.depth * 16 := rfl
    have hbank : (a - windowBase) / 8 / (2 * p.depth) < p.nbanks := by
      have hm : p.nbanks * (2 * p.depth) = 2 * (p.nbanks * p.depth) := Nat.mul_left_comm ..
      exact Nat.div_lt_of_lt_mul (by rw [Nat.mul_comm, hm]; omega)
    simp [bankWord?, hlow, hbank] at h
  · rintro (hlow | hend)
    · simp [bankWord?, hlow]
    · exact bankWord?_of_windowEnd_le hend

/-- An offset of the data window decodes to a bank word. -/
theorem exists_bankWord?_of_window {p : Params} {a : Nat} (h1 : windowBase ≤ a) (h2 : a < windowEnd p) :
    ∃ w, bankWord? p a = some w :=
  Option.ne_none_iff_exists'.1 fun h => by
    have := bankWord?_eq_none_iff.1 h
    omega

/-- Settles O37: the decode inverts `wordOffset`, and answers exactly inside the window. -/
theorem dataWindowDecode : Obligations.DataWindowDecode := by
  refine fun p => ⟨fun w hb he => bankWord?_wordOffset hb he, fun a w h8 h => ?_, fun a _ => bankWord?_eq_none_iff⟩
  obtain ⟨hb, he, ho, -⟩ := bankWord?_some h8 h
  exact ⟨hb, he, ho⟩

/-! ### Refused accesses -/

theorem accessMalformed_iff {width : Width} {offset : BitVec 64} :
    accessMalformed width offset = true ↔ width ≠ .w64 ∨ offset.toNat % 8 ≠ 0 := by
  simp [accessMalformed]

/-- Settles O38: both accesses ask first whether they are malformed. -/
theorem malformedAccessIsRefused : Obligations.MalformedAccessIsRefused := by
  intro s width offset v h
  have hm := accessMalformed_iff.2 h
  constructor
  · simp [busAccess, busRead, hm, State.refuseAccess, State.returns]
  · simp [busAccess, busWrite, hm, State.refuseAccess]

/-- An aligned read of the data window while BUSY = 1 (R67). -/
theorem busRead_window_of_busy {s : State} {offset : BitVec 64} (hb : s.busy = true) (h8 : offset.toNat % 8 = 0)
    (h1 : windowBase ≤ offset.toNat) (h2 : offset.toNat < windowEnd s.params) :
    busRead .w64 offset s = .next (s.refuseAccess.returns 0) := by
  obtain ⟨w, hw⟩ := exists_bankWord?_of_window h1 h2
  simp [busRead, accessMalformed_of_aligned h8, Nat.not_lt.2 h1, hw, hb]

/-- An aligned write of the data window while BUSY = 1 (R67). -/
theorem busWrite_window_of_busy {s : State} {offset : BitVec 64} (v : Word) (hb : s.busy = true)
    (h8 : offset.toNat % 8 = 0) (h1 : windowBase ≤ offset.toNat) (h2 : offset.toNat < windowEnd s.params) :
    busWrite .w64 offset v s = s.refuseAccess := by
  obtain ⟨w, hw⟩ := exists_bankWord?_of_window h1 h2
  simp [busWrite, accessMalformed_of_aligned h8, Nat.not_lt.2 h1, hw, hb]

theorem busWrite_cmd_of_busy {s : State} (v : Word) (h : s.busy = true) :
    busWrite .w64 0x010#64 v s = s.refuseAccess :=
  (busWrite_register s v (by decide) (by decide)).trans (if_pos h)

theorem busWrite_len_of_busy {s : State} (v : Word) (h : s.busy = true) :
    busWrite .w64 0x018#64 v s = s.refuseAccess :=
  (busWrite_register s v (by decide) (by decide)).trans (if_pos h)

/-- Settles O39: the window and the four writable registers, each by its own rule. -/
theorem busyAccessesAreRefused : Obligations.BusyAccessesAreRefused := by
  refine fun s v hb => ⟨fun offset h8 h1 h2 =>
    ⟨busRead_window_of_busy hb h8 h1 h2, busWrite_window_of_busy v hb h8 h1 h2⟩, busWrite_cmd_of_busy v hb,
    busWrite_len_of_busy v hb, fun hv => ?_, fun hv => ?_, busWrite_status s v, fun offset h8 h => busRead_register s h8 h⟩
  · rw [busWrite_ctrl, State.writeCtrl, if_pos hv, if_pos hb]
    rfl
  · rw [busWrite_ctrl, State.writeCtrl, if_neg (ne_true_of_eq_false hv)]

/-! ### Reads, and the writes that are ignored -/

/-- With BUSY = 0 an aligned read is not refused: it returns a value or is UNINIT_READ (R65, R67). -/
theorem busRead_of_idle {s : State} {offset : BitVec 64} (hb : s.busy = false) (h8 : offset.toNat % 8 = 0) :
    (∃ v, busRead .w64 offset s = .next (s.returns v)) ∨ busRead .w64 offset s = .fault .uninitRead := by
  have hm := accessMalformed_of_aligned h8
  by_cases hlow : offset.toNat < windowBase
  · exact .inl ⟨_, busRead_register s h8 hlow⟩
  · cases hd : bankWord? s.params offset.toNat with
    | none => exact .inl ⟨0, by simp [busRead, hm, hlow, hd]⟩
    | some w =>
      cases hw : s.mem.readWord (wordOffset s.params w) with
      | none => exact .inr (by simp [busRead, hm, hlow, hd, hb, hw])
      | some v => exact .inl ⟨v, by simp [busRead, hm, hlow, hd, hb, hw]⟩

/-- Only CMD, LEN, CTRL and STATUS take a write (R66). -/
theorem writeRegister_of_readOnly (s : State) (v : Word) {a : Nat}
    (h : a ≠ offCMD ∧ a ≠ offLEN ∧ a ≠ offCTRL ∧ a ≠ offSTATUS) : s.writeRegister a v = s := by
  obtain ⟨h1, h2, h3, h4⟩ := h
  simp [State.writeRegister, h1, h2, h3, h4]

/-- Settles O40: a read returns a value, after a refusal or not; a write outside the four writable registers is ignored. -/
theorem readsHaveNoSideEffect : Obligations.ReadsHaveNoSideEffect := by
  refine ⟨fun s t width offset h => ⟨?_, ?_⟩, fun s v offset h8 hlow hne => ?_⟩
  · obtain ⟨v, hr⟩ | hr | ⟨-, hr⟩ := busRead_cases width offset s <;> cases hr.symm.trans h <;> rfl
  · rintro rfl h8 hb
    obtain ⟨v, hr⟩ | hr := busRead_of_idle hb h8 <;> cases hr.symm.trans h
    rfl
  · have hoff : ∀ o : BitVec 64, offset ≠ o → offset.toNat ≠ o.toNat := fun o => mt BitVec.eq_of_toNat_eq
    simp only [List.mem_cons, List.not_mem_nil, or_false, not_or] at hne
    obtain ⟨h1, h2, h3, h4⟩ := hne
    rw [busWrite_register s v h8 hlow]
    exact writeRegister_of_readOnly s v ⟨hoff _ h1, hoff _ h2, hoff _ h3, hoff _ h4⟩

/-! ### Bank words -/

/-- A host read of a written bank word, with BUSY = 0 (R68). -/
theorem busRead_bankWord {s : State} {w : BankWord} {v : Word} (hp : s.params.legal) (hi : s.busy = false)
    (hb : w.bank < s.params.nbanks) (he : w.elem < s.params.depth)
    (hw : s.mem.readWord (wordOffset s.params w) = some v) :
    busRead .w64 (BitVec.ofNat 64 (wordOffset s.params w)) s = .next (s.returns v) := by
  have hn := toNat_wordOffset hp hb he
  obtain ⟨h1, -, h8⟩ := wordOffset_bounds hb he
  simp [busRead, accessMalformed_of_aligned (hn ▸ h8), hn, Nat.not_lt.2 h1, bankWord?_wordOffset hb he, hi, hw]

theorem toNat_extractLsb'_div (v : Word) (lo n : Nat) : (v.extractLsb' lo n).toNat = v.toNat / 2 ^ lo % 2 ^ n := by
  rw [BitVec.extractLsb'_toNat, Nat.shiftRight_eq_div_pow]

/-- Byte lane `t` is bits `8t+7 : 8t` of the word (R63). -/
theorem lane_eq_extractLsb' (v : Word) (t : Nat) : lane v t = v.extractLsb' (8 * t) 8 := by
  apply BitVec.eq_of_toNat_eq
  rw [lane, BitVec.toNat_ofNat, toNat_extractLsb'_div]

/-- Settles O42: the write is one `writeWord`, whose bytes and word the memory's laws give. -/
theorem bankWordsReadBack : Obligations.BankWordsReadBack := by
  intro s w v hp hi hb he
  have hr := Memory.readWord_writeWord_same s.mem (wordOffset s.params w) v
  rw [busWrite_bankWord v hp hi hb he]
  refine ⟨busRead_bankWord (s := { s with mem := s.mem.writeWord (wordOffset s.params w) v }) hp hi hb he hr, rfl,
    fun j hj => ?_, fun a ha => ?_⟩
  · rw [Memory.readByte_writeWord, if_pos (by omega), Nat.add_sub_cancel_left, lane_eq_extractLsb']
  · rw [Memory.readByte_writeWord, if_neg (by omega)]

/-! ### What a command writes -/

/-- The elements a command computes for its destination bank, if its read set is initialised. -/
def commandResult (s : State) : Instr → Option (List Cplx)
  | .nop => none
  | .fft dir _ srca => (s.snapshot srca s.n).map (fftSeq s.params s.key dir)
  | .czt dir _ srca => (s.snapshot srca s.n).map (cztSeq s.params s.key dir)
  | .dft dir _ srca => (s.snapshot srca s.n).map (dftSeq s.params s.key dir)
  | .bitrev _ srca => (s.snapshot srca s.n).map bitrevSeq
  | .bfly4 dir _ srca => (s.snapshot srca s.n).map (bfly4Seq s.key dir)
  | .combine dir _ srca k => (s.snapshot srca s.n).map (combineSeq s.params s.key dir k)
  | .post dir _ srca => (s.snapshot srca s.n).map (postSeq s.params s.key dir)
  | .cmul _ srca srcb =>
    (s.snapshot srca s.n).bind fun a => (s.snapshot srcb s.n).map (cmulSeq s.key a)
  | .twid _ _ => none

@[simp] theorem commandResult_withDst (s : State) (d : Nat) (i : Instr) :
    commandResult s (withDst d i) = commandResult s i := by
  cases i <;> rfl

theorem writeBank?_withDst {i : Instr} (h : (writeBank? i).isSome) (d : Nat) : writeBank? (withDst d i) = some d := by
  cases i with
  | nop | twid => cases h
  | _ => rfl

theorem length_of_map_snapshot {s : State} {b n : Nat} {f : List Cplx → List Cplx} {zs : List Cplx}
    (h : (s.snapshot b n).map f = some zs) (hf : ∀ x : List Cplx, x.length = n → (f x).length = x.length) :
    zs.length = n := by
  obtain ⟨x, hx, rfl⟩ := Option.map_eq_some_iff.1 h
  obtain ⟨hl, -⟩ := State.snapshot_eq_some hx
  exact (hf x hl).trans hl

/-- A command that no error applies to computes one element for each of its length. -/
theorem length_of_commandResult {s : State} {i : Instr} {zs : List Cplx} (hn : ∀ e, ¬commandError s i e)
    (h : commandResult s i = some zs) : zs.length = s.n := by
  have hlen : ¬badLength s.n i := hn .length
  have hk : ¬badK s.n i := hn .badK
  cases i with
  | nop | twid => cases h
  | fft =>
    have hpow : s.n = 0 ∨ IsPow2 s.n := by simpa [badLength, or_iff_not_imp_left] using hlen
    exact length_of_map_snapshot h fun x hx => fftSeq_length (hx ▸ hpow)
  | czt => exact length_of_map_snapshot h fun x _ => cztSeq_length _ _ _ x
  | dft => exact length_of_map_snapshot h fun x _ => dftSeq_length _ _ _ x
  | bitrev => exact length_of_map_snapshot h fun x _ => bitrevSeq_length x
  | bfly4 =>
    obtain ⟨hpow, h4⟩ := not_not.1 hlen
    exact length_of_map_snapshot h fun x hx => bfly4Seq_length (hx ▸ hpow.dvd (k := 2) h4)
  | combine dir dst srca k =>
    obtain ⟨hpow, -⟩ := not_not.1 hlen
    obtain ⟨h1, hle⟩ := not_or.1 hk
    exact length_of_map_snapshot h fun x hx => combineSeq_length (Nat.not_lt.1 h1) (hx ▸ hpow.dvd (Nat.not_lt.1 hle))
  | post => exact length_of_map_snapshot h fun x _ => postSeq_length _ _ _ x
  | cmul =>
    obtain ⟨a, ha, h⟩ := Option.bind_eq_some_iff.1 h
    obtain ⟨hla, -⟩ := State.snapshot_eq_some ha
    refine length_of_map_snapshot h fun b hb => ?_
    rw [cmulSeq, zipAt_length, hla, hb, Nat.min_self]

/-- A bank-to-bank command that succeeds at a length above 0 writes the result of its function. -/
theorem mem_of_bankCommand {p u : Bool} {cs : List Check} {d a : Nat} {f : List Cplx → List Cplx} {s t : State}
    (h : bankCommand p u cs d a f s = .next t) (ht : t.err = false) (hn : s.n ≠ 0) :
    ∃ zs, (s.snapshot a s.n).map f = some zs ∧ t.mem = s.mem.writeElems (elemOffset s.params d 0) zs := by
  obtain ⟨e, -, hb⟩ | ⟨-, hz, -⟩ | ⟨-, -, -, hb⟩ | ⟨x, -, -, hx, hb⟩ := bankCommand_cases p u cs d a f s
  · cases hb.symm.trans h
    cases ht
  · exact absurd hz hn
  · cases hb.symm.trans h
  · obtain ⟨t', ht', -, hm⟩ := succeed_completedFrom p u d (f x) s
    cases ht'.symm.trans (hb.symm.trans h)
    exact ⟨f x, by rw [hx]; rfl, hm⟩

theorem mem_of_execCmul {d a b : Nat} {s t : State} (h : execCmul d a b s = .next t) (ht : t.err = false) :
    ∃ zs, commandResult s (.cmul d a b) = some zs ∧ t.mem = s.mem.writeElems (elemOffset s.params d 0) zs := by
  unfold execCmul at h
  split at h
  · cases h
    cases ht
  · split at h
    · rename_i x y hx hy
      cases h
      exact ⟨cmulSeq s.key x y, by simp [commandResult, hx, hy], rfl⟩
    · cases h

/-- A command that succeeds at a length above 0 writes its result from element 0 of its destination on (R79). -/
theorem mem_of_exec {i : Instr} {d : Nat} {s t : State} (h : exec i s = .next t) (ht : t.err = false)
    (hw : writeBank? i = some d) (hn : s.n ≠ 0) :
    ∃ zs, commandResult s i = some zs ∧ t.mem = s.mem.writeElems (elemOffset s.params d 0) zs := by
  cases i with
  | nop | twid => cases hw
  | cmul => cases hw; exact mem_of_execCmul h ht
  | _ => cases hw; exact mem_of_bankCommand h ht hn

/-- The elements a successful command leaves in its destination are those it computed. -/
theorem element_of_exec {i : Instr} {d k : Nat} {s t : State} (h : exec i s = .next t) (ht : t.err = false)
    (hw : writeBank? i = some d) (hk : k < s.n) : t.element d k = (commandResult s i).bind (·[k]?) := by
  obtain ⟨e, p, rfl⟩ | ⟨hne, -⟩ := exec_next h
  · cases ht
  · obtain ⟨zs, hz, hm⟩ := mem_of_exec h ht hw (by omega)
    have hl := length_of_commandResult hne hz
    rw [State.element_of_writeElems (endedFrom_of_exec h).params hm (hl ▸ hk), hz, Option.bind_some,
      List.getElem?_eq_getElem]

/-- Settles O30: the elements written are the command's result, which its destination is no part of. -/
theorem inPlaceGivesTheSameElements : Obligations.InPlaceGivesTheSameElements := by
  intro i d d' s t t' hw h ht h' ht' k hk
  rw [element_of_exec h ht (writeBank?_withDst hw d) hk, element_of_exec h' ht' (writeBank?_withDst hw d') hk,
    commandResult_withDst, commandResult_withDst]

/-! ### The completion step under host accesses -/

/-- The three fields a host access can change while a command is in flight, at given values. -/
def withHostFields (irqEn accessErr : Bool) (rdata : Word) (s : State) : State :=
  { s with irqEn := irqEn, accessErr := accessErr, rdata := rdata }

theorem cmdl_withHostFields (q e : Bool) (v : Word) (s : State) : (withHostFields q e v s).cmdl = s.cmdl := rfl

theorem n_withHostFields (q e : Bool) (v : Word) (s : State) : (withHostFields q e v s).n = s.n := rfl

theorem snapshot_withHostFields (q e : Bool) (v : Word) (s : State) (b n : Nat) :
    (withHostFields q e v s).snapshot b n = s.snapshot b n := rfl

theorem bankExists_withHostFields (q e : Bool) (v : Word) (s : State) (b : Nat) :
    (withHostFields q e v s).bankExists b = s.bankExists b := rfl

theorem fitsBank_withHostFields (q e : Bool) (v : Word) (s : State) : (withHostFields q e v s).fitsBank = s.fitsBank := rfl

/-- The outcome with its next state, if there is one, mapped. -/
def mapNext (g : State → State) : Host.Outcome State Fault Refusal → Host.Outcome State Fault Refusal
  | .next s => .next (g s)
  | .fault f => .fault f
  | .refused r => .refused r

theorem bankCommand_withHostFields (q e : Bool) (v : Word) (p u : Bool) (cs : List Check) (d a : Nat)
    (f : List Cplx → List Cplx) (s : State) :
    bankCommand p u cs d a f (withHostFields q e v s) = mapNext (withHostFields q e v) (bankCommand p u cs d a f s) := by
  unfold bankCommand
  rw [n_withHostFields, snapshot_withHostFields]
  cases firstError cs with
  | some => rfl
  | none =>
    by_cases h0 : s.n = 0
    · simp only [h0, if_true]; rfl
    · simp only [h0, if_false]
      cases s.snapshot a s.n with
      | none => rfl
      | some x => cases u <;> rfl

theorem execCmul_withHostFields (q e : Bool) (v : Word) (d a b : Nat) (s : State) :
    execCmul d a b (withHostFields q e v s) = mapNext (withHostFields q e v) (execCmul d a b s) := by
  unfold execCmul
  simp only [bankExists_withHostFields, fitsBank_withHostFields, n_withHostFields, snapshot_withHostFields]
  generalize firstError _ = r
  cases r with
  | some => rfl
  | none => cases s.snapshot a s.n <;> cases s.snapshot b s.n <;> rfl

theorem execTwid_withHostFields (q e : Bool) (v : Word) (dir : Dir) (k : Nat) (s : State) :
    execTwid dir k (withHostFields q e v s) = mapNext (withHostFields q e v) (execTwid dir k s) := by
  unfold execTwid
  cases firstError [(decide (k ≤ 60), ErrorCode.badK)] <;> rfl

/-- No command reads a field that a host access can change. -/
theorem exec_withHostFields (q e : Bool) (v : Word) (i : Instr) (s : State) :
    exec i (withHostFields q e v s) = mapNext (withHostFields q e v) (exec i s) := by
  cases i with
  | nop => rfl
  | cmul => exact execCmul_withHostFields ..
  | twid => exact execTwid_withHostFields ..
  | _ => exact bankCommand_withHostFields ..

theorem completionStep_withHostFields (q e : Bool) (v : Word) (s : State) :
    completionStep (withHostFields q e v s) = mapNext (withHostFields q e v) (completionStep s) := by
  unfold completionStep
  rw [cmdl_withHostFields]
  cases decode s.cmdl with
  | error err => cases err <;> rfl
  | ok i => exact exec_withHostFields q e v i s

/-- A bus access while a command is in flight changes at most the three fields (R67, R74). -/
theorem busAccess_of_busy {a : BusAccess} {s t : State} (hb : s.busy = true) (hd : s.done = false)
    (h : busAccess a s = .next t) : t = withHostFields t.irqEn t.accessErr t.rdata s := by
  obtain ⟨v, rfl⟩ | rfl | ⟨v, hw⟩ := busAccess_next h
  · rfl
  · rfl
  · cases hw with
    | refused | ignored | enable => rfl
    | status => simp [writeStatus_eq, hd, withHostFields]
    | command idle | length idle | start idle | word _ idle => cases hb.symm.trans idle

/-- Settles O48: the access changes the host's fields only, and the completion step reads none of them. -/
theorem busyHostCannotDisturbTheCommand : Obligations.BusyHostCannotDisturbTheCommand := by
  intro s s' a hb hf h
  have hs := busAccess_of_busy hb (hf.1 hb) h
  have hc := completionStep_withHostFields s'.irqEn s'.accessErr s'.rdata s
  rw [← hs] at hc
  refine ⟨hs ▸ hb, ?_⟩
  rw [hc]
  rcases completionStep_cases s with ⟨-, -, t, -, -, -, hr, -⟩ | ⟨-, -, -, hr⟩ | ⟨-, t, -, -, hr, -⟩ <;> rw [hr] <;> rfl

/-! ### What the registers read -/

/-- CAPS as a number, each field at its weight (R33). -/
theorem capsWord_toNat {p : Params} (h : p.legal) :
    (capsWord p).toNat = p.log2Depth + p.nbanks * 2 ^ 8 + 61 * 2 ^ 16 +
      (decide (p.romVariant = .piD)).toNat * 2 ^ 24 + p.trigId.toNat * 2 ^ 28 := by
  obtain ⟨-, hd, -, hb, -⟩ := h
  have ht := p.trigId.isLt
  cases hv : p.romVariant <;> simp [capsWord, hv] <;> omega

theorem ctrlWord_toNat (s : State) : s.ctrlWord.toNat = s.irqEn.toNat * 2 := by
  have := s.irqEn.toNat_le
  simp only [State.ctrlWord, flagBit_eq, BitVec.toNat_ofNat]
  omega

/-- A 32-bit register's word is the register below 32 zeros. -/
theorem extractLsb'_setWidth (r : BitVec 32) :
    (r.setWidth 64).extractLsb' 0 32 = r ∧ (r.setWidth 64).extractLsb' 32 32 = 0#32 := by
  have hr := r.isLt
  have h0 : (0#32).toNat = 0 := rfl
  constructor <;> refine extractLsb'_eq_of_div ?_ <;> rw [BitVec.toNat_setWidth] <;> omega

theorem busRead_caps (s : State) : busRead .w64 0x008#64 s = .next (s.returns (capsWord s.params)) :=
  busRead_register s (by decide) (by decide)

theorem busRead_ctrl (s : State) : busRead .w64 0x020#64 s = .next (s.returns s.ctrlWord) :=
  busRead_register s (by decide) (by decide)

/-- The fields of CAPS, at every bit (R33). -/
theorem capsWord_fields {p : Params} (h : p.legal) :
    ((capsWord p).extractLsb' 0 5).toNat = p.log2Depth ∧ (capsWord p).extractLsb' 5 3 = 0#3 ∧
      ((capsWord p).extractLsb' 8 5).toNat = p.nbanks ∧ (capsWord p).extractLsb' 13 3 = 0#3 ∧
      (capsWord p).extractLsb' 16 6 = 61#6 ∧ (capsWord p).extractLsb' 22 2 = 0#2 ∧
      ((capsWord p).getLsbD 24 = true ↔ p.romVariant = .piD) ∧ (capsWord p).extractLsb' 25 3 = 0#3 ∧
      (capsWord p).extractLsb' 28 4 = p.trigId ∧ (capsWord p).extractLsb' 32 32 = 0#32 := by
  have hw := capsWord_toNat h
  have hv := (decide (p.romVariant = .piD)).toNat_le
  have ht := p.trigId.isLt
  obtain ⟨-, hd, -, hb, -⟩ := h
  have h2 : (0#2).toNat = 0 := rfl
  have h3 : (0#3).toNat = 0 := rfl
  have h6 : (61#6).toNat = 61 := rfl
  have h32 : (0#32).toNat = 0 := rfl
  have hrom : (capsWord p).getLsbD 24 = decide (p.romVariant = .piD) := getLsbD_eq_of_div (by rw [hw]; omega)
  refine ⟨(toNat_extractLsb'_div _ _ _).trans ?_, extractLsb'_eq_of_div ?_, (toNat_extractLsb'_div _ _ _).trans ?_,
    extractLsb'_eq_of_div ?_, extractLsb'_eq_of_div ?_, extractLsb'_eq_of_div ?_, by rw [hrom, decide_eq_true_iff],
    extractLsb'_eq_of_div ?_, extractLsb'_eq_of_div ?_, extractLsb'_eq_of_div ?_⟩
  all_goals rw [hw]; omega

/-- The fields of CTRL, at every bit (R36). -/
theorem ctrlWord_fields (s : State) :
    s.ctrlWord.getLsbD 0 = false ∧ s.ctrlWord.getLsbD 1 = s.irqEn ∧ s.ctrlWord.extractLsb' 2 62 = 0#62 := by
  have hw := ctrlWord_toNat s
  have hi := s.irqEn.toNat_le
  have h0 : false.toNat = 0 := rfl
  have h62 : (0#62).toNat = 0 := rfl
  refine ⟨getLsbD_eq_of_div ?_, getLsbD_eq_of_div ?_, extractLsb'_eq_of_div ?_⟩
  all_goals rw [hw]; omega

/-- Settles O55: each aligned read returns its register, and the fields of that word are known. -/
theorem registersReadTheirFields : Obligations.RegistersReadTheirFields := fun s =>
  ⟨busRead_register s (by decide) (by decide),
   fun hp => ⟨capsWord s.params, busRead_caps s, capsWord_fields hp⟩,
   ⟨_, busRead_cmd s, extractLsb'_setWidth s.cmd⟩,
   ⟨_, busRead_len s, extractLsb'_setWidth s.len⟩,
   ⟨_, busRead_ctrl s, ctrlWord_fields s⟩,
   busRead_register s (by decide) (by decide),
   busRead_register s (by decide) (by decide),
   busRead_register s (by decide) (by decide)⟩

end Sys2Proof.Proofs
end

section
/-! PROOFS. The encoding family (30_encoding.md): the decoder against the encoder, the partition of the 32-bit values, the
fields a command does not read, and the words that are no command. -/

namespace Sys2Proof.Proofs
open Sys2Proof Sys2Proof.Machine

/-! ### The word of a command -/

/-- The direction bit of R92 read back. -/
theorem dir_of_field {w : CmdWord} {d : Dir} (h : w.field 8 1 = d.bit) : w.dir = d := by
  unfold CmdWord.dir
  rw [h]
  cases d <;> rfl

/-- An assembled word decodes to the command that the opcode map gives every word with its fields (R95, R100). -/
theorem decode_assemble {opc k dst srca srcb : Nat} {d : Dir} {i : Instr} (ho : opc < 2 ^ 8) (hk : k < 2 ^ 6)
    (h1 : dst < 2 ^ 4) (h2 : srca < 2 ^ 4) (h3 : srcb < 2 ^ 4)
    (row : ∀ w : CmdWord, w.opc = opc → w.dir = d → w.k = k → w.dst = dst → w.srca = srca → w.srcb = srcb →
      w.command? = some i) :
    decode (assemble opc d.bit k dst srca srcb) = .ok i := by
  obtain ⟨opcode, dirBit, kField, dstField, srcaField, srcbField, clear⟩ := assemble_fields ho d.bit_lt hk h1 h2 h3
  exact decode_eq_ok.2 ⟨row _ opcode (dir_of_field dirBit) kField dstField srcaField srcbField, clear⟩

/-- Settles O1: each command's word is an assembled one, and its row of the opcode map reads back the fields it carries. -/
theorem decodeEncodeRoundTrip : Obligations.DecodeEncodeRoundTrip := by
  intro i hi
  cases i with
  | nop => decide
  | fft d dst srca | czt d dst srca | dft d dst srca | bfly4 d dst srca | post d dst srca =>
    obtain ⟨hdst, hsrca⟩ := hi
    refine decode_assemble (d := d) (by decide) (by decide) hdst hsrca (by decide) fun w ho hd _ h1 h2 _ => ?_
    simp [CmdWord.command?, ho, hd, h1, h2]
  | bitrev dst srca =>
    obtain ⟨hdst, hsrca⟩ := hi
    refine decode_assemble (d := .fwd) (by decide) (by decide) hdst hsrca (by decide) fun w ho _ _ h1 h2 _ => ?_
    simp [CmdWord.command?, ho, h1, h2]
  | combine d dst srca k =>
    obtain ⟨hdst, hsrca, hk⟩ := hi
    refine decode_assemble (d := d) (by decide) hk hdst hsrca (by decide) fun w ho hd hk h1 h2 _ => ?_
    simp [CmdWord.command?, ho, hd, hk, h1, h2]
  | cmul dst srca srcb =>
    obtain ⟨hdst, hsrca, hsrcb⟩ := hi
    refine decode_assemble (d := .fwd) (by decide) (by decide) hdst hsrca hsrcb fun w ho _ _ h1 h2 h3 => ?_
    simp [CmdWord.command?, ho, h1, h2, h3]
  | twid d k =>
    refine decode_assemble (d := d) (by decide) hi (by decide) (by decide) (by decide) fun w ho hd hk _ _ _ => ?_
    simp [CmdWord.command?, ho, hd, hk]

/-- Settles O4: each of the six words is the encoding of the command beside it (R100). -/
theorem workedEncodingsDecode : Obligations.WorkedEncodingsDecode := by
  have decodes {i : Instr} {w : CmdWord} (he : encode i = w) (hi : i.WellFormed) : decode w = .ok i :=
    he ▸ decodeEncodeRoundTrip i hi
  exact ⟨decodes rfl (by decide), decodes rfl (by decide), decodes rfl (by decide), decodes rfl (by decide),
    decodes rfl (by decide), decodes rfl (by decide)⟩

/-! ### The partition of the 32-bit values -/

/-- A reserved bit is set exactly if the decoder's check of them fails (R97). -/
theorem reservedClear_eq_false_iff (w : CmdWord) :
    w.reservedClear = false ↔ w.getLsbD 9 = true ∨ w.extractLsb' 28 4 ≠ 0#4 := by
  rw [← Bool.not_eq_true, w.reservedClear_iff, not_and_or, Bool.not_eq_false]

/-- A word decodes to a command exactly if its opcode is listed and its reserved bits are clear. -/
theorem exists_decode_eq_ok_iff {w : CmdWord} :
    (∃ i, decode w = .ok i ∧ i.WellFormed) ↔ w.opc < 0x0A ∧ w.reservedClear = true := by
  rw [← w.command?_isSome, Option.isSome_iff_exists]
  constructor
  · rintro ⟨i, hd, -⟩
    obtain ⟨hc, hr⟩ := decode_eq_ok.1 hd
    exact ⟨⟨i, hc⟩, hr⟩
  · rintro ⟨⟨i, hc⟩, hr⟩
    exact ⟨i, decode_eq_ok.2 ⟨hc, hr⟩, CmdWord.wellFormed_of_command? hc⟩

/-- Settles O2: the decoder's three answers, with its fields read as bits of the word. -/
theorem everyWordHasOneDecoding : Obligations.EveryWordHasOneDecoding := by
  intro w
  rw [w.opc_eq_extract, ← reservedClear_eq_false_iff, ← w.reservedClear_iff]
  exact ⟨decode_eq_illegalOpcode, decode_eq_reservedBits, exists_decode_eq_ok_iff⟩

/-! ### The fields a command does not read -/

/-- Two words that agree under a mask agree on every field the mask covers. -/
theorem field_eq_of_agree {w w' m : CmdWord} (h : w' &&& m = w &&& m) {lo len : Nat}
    (covers : m.extractLsb' lo len = BitVec.allOnes len) : w'.field lo len = w.field lo len := by
  have extract (v : CmdWord) : v.field lo len = ((v &&& m).extractLsb' lo len).toNat := by
    rw [BitVec.extractLsb'_and, covers, BitVec.and_allOnes, BitVec.extractLsb'_toNat, Nat.shiftRight_eq_div_pow]
    rfl
  rw [extract, extract, h]

/-- Every mask covers the opcode and the reserved bits (R97, R98). -/
theorem readMask_covers (opc : Nat) :
    (readMask opc).extractLsb' 0 8 = BitVec.allOnes 8 ∧ (readMask opc).extractLsb' 9 1 = BitVec.allOnes 1 ∧
      (readMask opc).extractLsb' 28 4 = BitVec.allOnes 4 := by
  unfold readMask
  split <;> decide

/-- Words that agree on what the row of one of them reads select the same command: each field of the row lies under its
mask (R95, R96). -/
theorem command?_eq_of_agree {w w' : CmdWord} (h : w' &&& readMask w.opc = w &&& readMask w.opc) :
    w'.command? = w.command? := by
  obtain ⟨hopc, -⟩ := readMask_covers w.opc
  have ho : w'.opc = w.opc := field_eq_of_agree h hopc
  unfold CmdWord.command?
  rw [ho]
  split
  case h_1 | h_11 => rfl
  all_goals
    rename_i row
    rw [row] at h
    simp [CmdWord.dir, CmdWord.k, CmdWord.dst, CmdWord.srca, CmdWord.srcb, field_eq_of_agree h, readMask]

/-- The decoder sees the opcode, the reserved bits and the fields its row reads, and no other bit (R96). -/
theorem decode_eq_of_agree {w w' : CmdWord} (h : w' &&& readMask w.opc = w &&& readMask w.opc) :
    decode w' = decode w := by
  obtain ⟨-, h9, h28⟩ := readMask_covers w.opc
  have hr : w'.reservedClear = w.reservedClear := by
    unfold CmdWord.reservedClear
    rw [field_eq_of_agree h h9, field_eq_of_agree h h28]
  unfold decode
  rw [command?_eq_of_agree h, hr]

/-- The successful end of a command keeps the latched length, whatever it is. -/
theorem succeed_withLength {p : Bool} {s t : State} (n : BitVec 32) (h : succeed p s = .next t) :
    succeed p { s with lenl := n } = .next { t with lenl := n } := by
  cases h
  rfl

/-- A TWID with a legal `K` succeeds in every state (R114). -/
theorem exec_twid_of_le (dir : Dir) {k : Nat} (hk : k ≤ 60) (s : State) :
    exec (.twid dir k) s = succeed false (s.writeResult (twiddle s.params.romVariant dir k)) := by
  simp [exec, execTwid, hk]

/-- Settles O3: the mask covers every field the opcode's row reads, and NOP and a legal TWID end in `succeed`. -/
theorem fieldsNotReadDoNotMatter : Obligations.FieldsNotReadDoNotMatter := by
  refine ⟨fun w w' h => decode_eq_of_agree h, fun s t n h => succeed_withLength n h, fun dir k s t n hk h => ?_⟩
  rw [exec_twid_of_le dir hk] at h ⊢
  exact succeed_withLength n h

/-! ### The words that are no command -/

/-- With no turn pending, a step of a command in flight is its completion step (R207). -/
theorem step_eq_completionStep {s : State} (hb : s.busy = true) (hr : s.inReset = false) (ht : s.turns = []) :
    step s = completionStep s := by
  simp [step, ht, engineTurn, State.engineEnabled, hb, hr]

/-- Settles O6: the decode error picks the failed completion step, which writes the error's registers only. -/
theorem undecodableCommandFails : Obligations.UndecodableCommandFails := by
  intro s hb hr ht
  rw [step_eq_completionStep hb hr ht, s.cmdl.opc_eq_extract, ← reservedClear_eq_false_iff, completionStep]
  constructor
  · intro ho
    rw [decode_eq_illegalOpcode.2 ho]
    exact failCommand_failedFrom _ _ s
  · intro ho hc
    rw [decode_eq_reservedBits.2 ⟨ho, hc⟩]
    exact failCommand_failedFrom _ _ s

end Sys2Proof.Proofs
end

section
/-! PROOFS. The twiddle ROM family (41_twiddle_rom.md): the table of both variants, TWID as one update of the state, and that
no agent's turn changes the parameters, from which the ROM and the constant registers are read. -/

namespace Sys2Proof.Proofs
open Sys2Proof Sys2Proof.Machine

/-! ### What no step changes -/

theorem params_of_busAccess {a : BusAccess} {s t : State} (h : busAccess a s = .next t) : t.params = s.params := by
  obtain ⟨v, rfl⟩ | rfl | ⟨v, hw⟩ := busAccess_next h
  · rfl
  · rfl
  · cases hw with
    | status => rw [writeStatus_eq]
    | _ => rfl

theorem params_of_hostTurn {a : BusAccess} {s t : State} (h : hostTurn a s = .next t) : t.params = s.params := by
  unfold hostTurn at h
  split at h
  · cases h
    rfl
  · exact params_of_busAccess h

theorem params_of_engineTurn {s t : State} (h : engineTurn s = .next t) : t.params = s.params := by
  unfold engineTurn at h
  split at h
  · exact (endedFrom_of_completionStep h).params
  · cases h
    rfl

theorem params_releaseReset (s : State) : (releaseReset s).params = s.params := by
  unfold releaseReset
  split <;> rfl

theorem params_of_takeTurn {τ : Turn} {s t : State} (h : takeTurn τ s = .next t) : t.params = s.params := by
  cases τ with
  | host a => exact params_of_hostTurn h
  | engine => exact params_of_engineTurn h
  | resetAssert => cases h; rfl
  | resetRelease => cases h; exact params_releaseReset s

/-- The parameters of R6 are constants of the core (log entry 8). -/
theorem params_of_step {s t : State} (h : step s = .next t) : t.params = s.params := by
  unfold step at h
  split at h
  · exact params_of_engineTurn h
  · exact (params_of_takeTurn h).trans rfl

theorem readRegister_id (s : State) : s.readRegister 0x000 = idWord := rfl

theorem readRegister_caps (s : State) : s.readRegister 0x008 = capsWord s.params := rfl

theorem readRegister_tol (s : State) : s.readRegister 0x048 = s.params.tol := rfl

/-! ### TWID -/

/-- The twiddle of a direction by its parts (R114). -/
theorem twiddle_eq (v : RomVariant) (dir : Dir) (k : Nat) :
    twiddle v dir k = ⟨(romEntry v k).re, if dir = .inv then fneg (romEntry v k).im else (romEntry v k).im⟩ := by
  cases dir <;> rfl

/-- A TWID whose `K` has no ROM entry fails in every state (R114). -/
theorem exec_twid_of_lt (dir : Dir) {k : Nat} (hk : 60 < k) (s : State) :
    exec (.twid dir k) s = failCommand .badK false s := by
  simp [exec, execTwid, Nat.not_le.2 hk]

/-- Settles O15: a legal `K` ends in `succeed` with the result registers written, any other in `failCommand`. -/
theorem twidReadsTheRom : Obligations.TwidReadsTheRom := by
  refine fun dir k s => ⟨fun hk => ?_, fun hk => ?_⟩
  · rw [exec_twid_of_le dir hk, twiddle_eq]
    rfl
  · rw [exec_twid_of_lt dir hk]
    exact failCommand_failedFrom _ _ s

/-- Settles O51: the ROM and the constant registers are read from the parameters, which every step keeps; a TWID that
succeeds had a legal `K`, for which O15 gives the whole next state. -/
theorem romAndConstantsNeverChange : Obligations.RomAndConstantsNeverChange := by
  constructor
  · intro s t h
    simp only [readRegister_id, readRegister_caps, readRegister_tol, params_of_step h, implies_true, and_self]
  · intro dir k s t h he
    obtain ⟨hok, hbad⟩ := twidReadsTheRom dir k s
    by_cases hk : k ≤ 60
    · rw [hok hk] at h
      cases h
      rfl
    · obtain ⟨t', ht', hf⟩ := hbad (by omega)
      cases ht'.symm.trans h
      rw [hf] at he
      cases he

/-! ### The table -/

/-- The `PI_D` ROM holds the `EXACT` value at every entry that the last column of R111 leaves blank. -/
theorem romEntry_piD_of_notMem {i : Nat} (h : i ∉ romPiDDiffs.map Prod.fst) : romEntry .piD i = romEntry .exact i := by
  have hl : romPiDDiffs.lookup i = none := by
    rw [List.lookup_eq_none_iff]
    exact fun z hz => bne_iff_ne.2 (ne_of_mem_of_not_mem (List.mem_map_of_mem (f := Prod.fst) hz) h).symm
  simp only [romEntry, hl]

/-- Settles O59: the listed entries are read off the two tables; the unmarked ones have no `PI_D` difference. -/
theorem romHoldsTheTable : Obligations.RomHoldsTheTable :=
  ⟨rfl, rfl, rfl, rfl, rfl, rfl, rfl, rfl, rfl, rfl, rfl, rfl, rfl, rfl, fun _ _ h => romEntry_piD_of_notMem h⟩

end Sys2Proof.Proofs
end

section
/-! PROOFS. The pointwise multiply family (42_pointwise_multiply.md): CMUL as one commit of the element-wise product, and the
product of one pair of elements in the terms of claims. -/

namespace Sys2Proof.Proofs
open Sys2Proof Sys2Proof.Machine

theorem isCmul_cmul (κ : DrawKey) (a b : Cplx) : IsCmul (cmul κ a b) a b := ⟨(· :: κ), rfl⟩

theorem length_cmulSeq (κ : DrawKey) (a b : List Cplx) : (cmulSeq κ a b).length = min a.length b.length :=
  zipAt_length ..

/-- Each element of the element-wise product is the complex product of the elements at its index (R120). -/
theorem exists_isCmul_of_cmulSeq {κ : DrawKey} {a b : List Cplx} {k : Nat} {u v : Cplx} (ha : a[k]? = some u)
    (hb : b[k]? = some v) : ∃ z, (cmulSeq κ a b)[k]? = some z ∧ IsCmul z u v :=
  ⟨_, zipAt_getElem? κ cmul 0 ha hb, isCmul_cmul ..⟩

/-- A CMUL of three existing banks whose length fits a bank and whose read sets are initialised commits the element-wise
product (R120). -/
theorem execCmul_of_snapshots {dst srca srcb : Nat} {s : State} {a b : List Cplx} (hd : dst < s.params.nbanks)
    (hsa : srca < s.params.nbanks) (hsb : srcb < s.params.nbanks) (hn : s.n ≤ s.params.depth)
    (ha : s.snapshot srca s.n = some a) (hb : s.snapshot srcb s.n = some b) :
    execCmul dst srca srcb s = succeed false (s.commit dst (cmulSeq s.key a b)) := by
  have hc : firstError [(s.bankExists srca && s.bankExists srcb && s.bankExists dst, .badBank),
      (s.fitsBank, .capacity)] = none := by
    simp [bankExists_iff.2 hd, bankExists_iff.2 hsa, bankExists_iff.2 hsb, fitsBank_iff.2 hn]
  simp only [execCmul, hc, ha, hb]

/-- A commit of `n` elements that ends a command leaves those elements in its destination and every other byte as before. -/
theorem succeed_commit_completes {d : Nat} {s : State} {zs : List Cplx} (hl : zs.length = s.n) :
    ∃ t, succeed false (s.commit d zs) = .next t ∧ CompletedFrom s t false false ∧ OnlyElementsWritten s t d s.n ∧
      ∀ k < s.n, t.element d k = zs[k]? := by
  obtain ⟨t, ht, hf, hm⟩ := succeed_completedFrom false false d zs s
  refine ⟨t, ht, hf, onlyElementsWritten_of_writeElems hm hl.le, fun k hk => ?_⟩
  have hp : t.params = s.params := by rw [hf]
  rw [State.element_of_writeElems hp hm (by omega), List.getElem?_eq_getElem]

/-- Settles O16: the checks pass and both snapshots exist, so the command commits the element-wise product of the sources'
elements, of length `n`. -/
theorem cmulMultipliesElements : Obligations.CmulMultipliesElements := by
  intro dst srca srcb s x y hd hsa hsb hn hx hy
  have hrun := execCmul_of_snapshots hd hsa hsb hn (State.snapshot_of_bankHolds hx) (State.snapshot_of_bankHolds hy)
  obtain ⟨t, ht, hf, hw, he⟩ := succeed_commit_completes (d := dst) (s := s)
    (zs := cmulSeq s.key ((List.range s.n).map x) ((List.range s.n).map y)) (by simp [length_cmulSeq])
  refine ⟨t, hrun.trans ht, hf, hw, fun k hk => ?_⟩
  rw [he k hk]
  exact exists_isCmul_of_cmulSeq (by simp [hk]) (by simp [hk])

end Sys2Proof.Proofs
end

section
/-! PROOFS. The bit-reversal family (43_bit_reverse.md): the bits of a reversed index, BITREV's destination by those indices,
and the incremental counter of R131 as a run of swaps, each of which completes one pair of the permutation. -/

namespace Sys2Proof.Proofs
open Sys2Proof Sys2Proof.Machine

/-! ### The reversed index -/

/-- Bit `b` of the reversed index is bit `L-1-b` of the index (R11). -/
theorem testBit_rev {L i b : Nat} (hb : b < L) : (rev L i).testBit b = i.testBit (L - 1 - b) := by
  induction L generalizing i with
  | zero => omega
  | succ L ih =>
    rw [rev, Nat.mul_comm, Nat.testBit_two_pow_mul_add _ (rev_lt L _)]
    split
    · next hlt =>
      rw [ih hlt, Nat.testBit_div_two]
      congr 1
      omega
    · obtain rfl : b = L := by omega
      simp

/-- The reversed index is the only one of `L` bits that has the reversed bits. -/
theorem eq_rev_of_testBit {L j k : Nat} (hj : j < 2 ^ L) (h : ∀ b < L, j.testBit b = k.testBit (L - 1 - b)) :
    j = rev L k := by
  refine Nat.eq_of_testBit_eq fun b => ?_
  by_cases hb : b < L
  · rw [h b hb, testBit_rev hb]
  · have hle : 2 ^ L ≤ 2 ^ b := Nat.pow_le_pow_right (by decide) (Nat.not_lt.1 hb)
    rw [Nat.testBit_lt_two_pow (hj.trans_le hle), Nat.testBit_lt_two_pow ((rev_lt L k).trans_le hle)]

theorem rev_rev {L k : Nat} (hk : k < 2 ^ L) : rev L (rev L k) = k := by
  refine (eq_rev_of_testBit hk fun b hb => ?_).symm
  rw [testBit_rev (by omega)]
  congr 1
  omega

@[simp] theorem rev_zero (L : Nat) : rev L 0 = 0 := by
  induction L with
  | zero => rfl
  | succ L ih => simp [rev, ih]

/-! ### BITREV -/

/-- A BITREV whose banks exist, whose length it can take and whose source is initialised completes (R130). -/
theorem exec_bitrev_completes {dst srca : Nat} {s : State} {x : Nat → Cplx} (hd : dst < s.params.nbanks)
    (ha : srca < s.params.nbanks) (hn : s.n = 0 ∨ IsPow2 s.n) (hf : s.n ≤ s.params.depth) (hx : BankHolds s srca s.n x) :
    ∃ t, exec (.bitrev dst srca) s = .next t ∧ CompletedFrom s t false false ∧ OnlyElementsWritten s t dst s.n := by
  have hc : firstError [(s.bankExists srca && s.bankExists dst, .badBank), (s.n == 0 || isPow2 s.n, .length),
      (s.fitsBank, .capacity)] = none := by
    simp [bankExists_iff.2 hd, bankExists_iff.2 ha, fitsBank_iff.2 hf, isPow2_iff, hn]
  by_cases h0 : s.n = 0
  · obtain ⟨t, ht, hs, hm⟩ := bankCommand_zero (p := false) (u := false) (d := dst) (a := srca) (f := bitrevSeq) hc h0
    exact ⟨t, ht, hs, fun a _ => by rw [hm]⟩
  · obtain ⟨t, ht, hs, hw, -⟩ :=
      bankCommand_completes (p := false) (u := false) (d := dst) (f := bitrevSeq) hc hx h0 (by simp)
    exact ⟨t, ht, hs, hw⟩

/-- A BITREV of `2^L` elements that succeeds leaves in element `k` of its destination the element of the reversed index
(R130). -/
theorem element_of_exec_bitrev {dst srca L k : Nat} {s t : State} (h : exec (.bitrev dst srca) s = .next t)
    (ht : t.err = false) (hn : s.n = 2 ^ L) (hk : k < s.n) : t.element dst k = s.element srca (rev L k) := by
  obtain ⟨zs, hzs, -⟩ := mem_of_exec h ht rfl (by omega)
  obtain ⟨x, hx, -⟩ := Option.map_eq_some_iff.1 hzs
  obtain ⟨hl, he⟩ := State.snapshot_eq_some hx
  have hr : rev L k < x.length := (rev_lt L k).trans_eq (hl.trans hn).symm
  calc t.element dst k = (bitrevSeq x)[k]? := by rw [element_of_exec h ht rfl hk, commandResult, hx]; rfl
    _ = x[rev L k]? := bitrevSeq_getElem? (hl.trans hn) (hn ▸ hk)
    _ = s.element srca (rev L k) := by rw [he _ hr, List.getElem?_eq_getElem hr]

/-- A BITREV that succeeds has length 0 or a power of two. -/
theorem powLength_of_exec_bitrev {dst srca : Nat} {s t : State} (h : exec (.bitrev dst srca) s = .next t)
    (ht : t.err = false) : s.n = 0 ∨ IsPow2 s.n := by
  obtain ⟨e, p, rfl⟩ | ⟨hne, -⟩ := exec_next h
  · cases ht
  · have hlen : ¬badLength s.n (.bitrev dst srca) := hne .length
    simpa [badLength, or_iff_not_imp_left] using hlen

/-- Settles O17: the command completes, and the index whose bits are those of `k` reversed is `rev L k`. -/
theorem bitrevPermutesElements : Obligations.BitrevPermutesElements := by
  intro dst srca s x hd ha hn hf hx
  obtain ⟨t, ht, hs, hw⟩ := exec_bitrev_completes hd ha hn hf hx
  refine ⟨t, ht, hs, hw, fun L hL j k hj hk hb => ?_⟩
  have herr : t.err = false := by rw [hs]
  rw [element_of_exec_bitrev ht herr hL hk, ← eq_rev_of_testBit (hL ▸ hj) hb, hx j hj]

/-- Settles O18: the second command reverses the index that the first one reversed. -/
theorem bitrevTwiceRestores : Obligations.BitrevTwiceRestores := by
  intro dst dst' srca s t u h ht hl h' hu k hk
  obtain ⟨L, hL⟩ := (powLength_of_exec_bitrev h ht).resolve_left (by omega)
  have htn : t.n = s.n := congrArg BitVec.toNat hl
  have hr : rev L k < s.n := hL ▸ rev_lt L k
  calc u.element dst' k = t.element dst (rev L k) := element_of_exec_bitrev h' hu (htn.trans hL) (htn ▸ hk)
    _ = s.element srca (rev L (rev L k)) := element_of_exec_bitrev h ht hL hr
    _ = s.element srca k := by rw [rev_rev (hL ▸ hk)]

/-! ### The incremental counter -/

/-- The counter's inner loop takes the reversal of an index to the reversal of the next one (R131). -/
theorem counterStep_rev (L i : Nat) : counterStep L (rev L i) = rev L (i + 1) := by
  induction L generalizing i with
  | zero => rfl
  | succ L ih =>
    have hlt := rev_lt L (i / 2)
    rcases Nat.mod_two_eq_zero_or_one i with h | h
    · have hd : (i + 1) / 2 = i / 2 := by omega
      have hm : (i + 1) % 2 = 1 := by omega
      simp only [rev, counterStep, h, hd, hm]
      rw [if_neg (by omega)]
      omega
    · have hd : (i + 1) / 2 = i / 2 + 1 := by omega
      have hm : (i + 1) % 2 = 0 := by omega
      simp [rev, counterStep, h, hd, hm, ih]

theorem getElem?_swapElems {x : List Cplx} {i j : Nat} (hi : i < x.length) (hj : j < x.length) (k : Nat) :
    (swapElems x i j)[k]? = if k = j then x[i]? else if k = i then x[j]? else x[k]? := by
  simp only [swapElems, List.getD_eq_getElem x czero hi, List.getD_eq_getElem x czero hj, List.getElem?_set,
    List.length_set, hi, hj, if_true, List.getElem?_eq_getElem, eq_comm (b := k)]

/-- The index of the source element that place `k` holds after `i` turns of the outer loop of R131: its pair is exchanged
once the smaller of its two indices has had its turn. -/
def counterIndex (L i k : Nat) : Nat := if k < i ∨ rev L k < i then rev L k else k

/-- `y` is what `i` turns of the outer loop leave of `x`, a sequence of `2^L` elements. -/
def PairsDone (L : Nat) (x : List Cplx) (i : Nat) (y : List Cplx) : Prop :=
  y.length = 2 ^ L ∧ ∀ k < 2 ^ L, y[k]? = x[counterIndex L i k]?

theorem counterIndex_of_lt {L i k : Nat} (h : k < i ∨ rev L k < i) : counterIndex L i k = rev L k := if_pos h

theorem counterIndex_of_le {L i k : Nat} (hk : i ≤ k) (hr : i ≤ rev L k) : counterIndex L i k = k := if_neg (by omega)

/-- Turn `i` changes what the two places of its own pair hold, and no other place. -/
theorem counterIndex_succ_of_ne {L i k : Nat} (hk : k ≠ i) (hr : rev L k ≠ i) :
    counterIndex L (i + 1) k = counterIndex L i k := by
  have hiff : k < i + 1 ∨ rev L k < i + 1 ↔ k < i ∨ rev L k < i := by omega
  simp only [counterIndex, hiff]

/-- At an index whose reversal is not above it, the turn has nothing to exchange. -/
theorem counterIndex_succ_of_rev_le {L i k : Nat} (hi : rev L i ≤ i) (hk : k < 2 ^ L) :
    counterIndex L (i + 1) k = counterIndex L i k := by
  by_cases hki : k = i
  · subst hki
    rw [counterIndex_of_lt (by omega)]
    by_cases hr : rev L k = k
    · rw [hr, counterIndex_of_le le_rfl hr.ge]
    · rw [counterIndex_of_lt (by omega)]
  · by_cases hr : rev L k = i
    · have hle : k ≤ i := by rwa [← hr, rev_rev hk, hr] at hi
      rw [counterIndex_of_lt (by omega), counterIndex_of_lt (by omega)]
    · exact counterIndex_succ_of_ne hki hr

/-- One turn of the outer loop completes the pair of its index, unless an earlier turn has or the index is its own
reversal. -/
theorem PairsDone.turn {L i : Nat} {x y : List Cplx} (h : PairsDone L x i y) (hi : i < 2 ^ L) :
    PairsDone L x (i + 1) (if i < rev L i then swapElems y i (rev L i) else y) := by
  obtain ⟨hl, hy⟩ := h
  have hr : rev L i < 2 ^ L := rev_lt L i
  have hrr : rev L (rev L i) = i := rev_rev hi
  split
  · next hlt =>
    refine ⟨by simpa [swapElems] using hl, fun k hk => ?_⟩
    rw [getElem?_swapElems (hl ▸ hi) (hl ▸ hr)]
    split_ifs with hkr hki
    · rw [hkr, hy i hi, counterIndex_of_le le_rfl hlt.le, counterIndex_of_lt (by omega), hrr]
    · rw [hki, hy _ hr, counterIndex_of_le hlt.le hrr.ge, counterIndex_of_lt (by omega)]
    · have hrk : rev L k ≠ i := fun h => hkr (by rw [← h, rev_rev hk])
      rw [hy k hk, counterIndex_succ_of_ne hki hrk]
  · next hle =>
    exact ⟨hl, fun k hk => by rw [hy k hk, counterIndex_succ_of_rev_le (Nat.not_lt.1 hle) hk]⟩

/-- The rest of the outer loop completes the remaining pairs. -/
theorem PairsDone.loop {L : Nat} {x : List Cplx} (c : Nat) {i : Nat} {y : List Cplx} (h : PairsDone L x i y)
    (hc : i + c = 2 ^ L) : PairsDone L x (2 ^ L) (counterLoop L c i (rev L i) y) := by
  induction c generalizing i y with
  | zero => exact hc ▸ h
  | succ c ih =>
    rw [counterLoop, counterStep_rev]
    exact ih (h.turn (by omega)) (by omega)

/-- Settles O19: the counter is the reversal of the index at every turn, and when all turns are done so is every pair. -/
theorem counterSequencingIsTheReversal : Obligations.CounterSequencingIsTheReversal := by
  intro L x hx
  have hstart : PairsDone L x 0 x := ⟨hx, fun k _ => by rw [counterIndex_of_le (Nat.zero_le _) (Nat.zero_le _)]⟩
  have hend := hstart.loop (2 ^ L) (Nat.zero_add _)
  rw [rev_zero] at hend
  obtain ⟨hl, hy⟩ := hend
  rw [counterBitrev, hx, Nat.log2_two_pow]
  refine List.ext_getElem? fun k => ?_
  by_cases hk : k < 2 ^ L
  · rw [hy k hk, counterIndex_of_lt (.inl hk), bitrevSeq_getElem? hx hk]
  · rw [List.getElem?_eq_none (by omega), List.getElem?_eq_none (by rw [bitrevSeq_length]; omega)]

end Sys2Proof.Proofs
end

section
/-! PROOFS. The butterfly family (44_butterfly.md): the division by a power of two as an exact scaling, and BFLY4, COMBINE and
POST as one commit each, their destinations' elements in the terms of claims. -/

namespace Sys2Proof.Proofs
open Sys2Proof Sys2Proof.Machine

/-! ### Division by a power of two (R147) -/

theorem isZero_eq_false_of_mag_pos {a : F64} (h : 0 < F64.mag a) : F64.isZero a = false := by
  rw [← Bool.not_eq_true, ← mag_eq_zero_iff]
  exact h.ne'

/-- Dividing by a value is multiplying by its exact reciprocal: both round one ratio, or take one draw. -/
theorem fdiv_eq_fmul_of_reciprocal (κ : DrawKey) (v : F64) {b r : F64} (hb : F64.isFinite b = true)
    (hr : F64.isFinite r = true) (hs : F64.sign r = F64.sign b)
    (hm : F64.mag r * F64.mag b = unitsPerOne * unitsPerOne) : fdiv κ v b = fmul κ v r := by
  have hpos : 0 < F64.mag r * F64.mag b := (Nat.mul_pos unitsPerOne_pos unitsPerOne_pos).trans_eq hm.symm
  have hr0 : 0 < F64.mag r := Nat.pos_of_mul_pos_right hpos
  have hbz : F64.isZero b = false := isZero_eq_false_of_mag_pos (Nat.pos_of_mul_pos_left hpos)
  have hrz : F64.isZero r = false := isZero_eq_false_of_mag_pos hr0
  obtain hv | hv | hv := isNaN_or_isInf_or_isFinite v
  · simp [fdiv, fmul, hv]
  · simp [fdiv, fmul, hv, isNaN_of_isInf hv, isZero_of_isInf hv, isNaN_of_isFinite hb, isInf_of_isFinite hb,
      isNaN_of_isFinite hr, hrz, hs]
  · have hround : roundMag (F64.mag v * unitsPerOne) (F64.mag b) = roundMag (F64.mag v * F64.mag r) unitsPerOne := by
      calc roundMag (F64.mag v * unitsPerOne) (F64.mag b)
          = roundMag (F64.mag r * (F64.mag v * unitsPerOne)) (F64.mag r * F64.mag b) := (roundMag_scale hr0 ..).symm
        _ = roundMag (unitsPerOne * (F64.mag v * F64.mag r)) (unitsPerOne * unitsPerOne) := by
          rw [hm, ← mul_assoc (F64.mag r), mul_comm (F64.mag r), mul_comm (F64.mag v * F64.mag r)]
        _ = roundMag (F64.mag v * F64.mag r) unitsPerOne := roundMag_scale unitsPerOne_pos ..
    rw [fdiv_of_isFinite κ hv hb hbz, fmul_of_isFinite κ hv hr, hround, signXor, signXor, hs]

theorem mag_one : F64.mag F64.one = unitsPerOne := by
  rw [F64.mag, unitsPerOne, show F64.expo F64.one = 1023 from rfl, show F64.frac F64.one = 0 from rfl,
    if_neg (by decide), Nat.add_zero, ← pow_add]

/-- The rounded reciprocal of `2^e` is exact: it is the power of two `2^(1074-e)` in units. -/
theorem fdiv_one_two_pow_exact (κ : DrawKey) {e : Nat} (he : e ≤ 63) :
    F64.isFinite (fdiv κ F64.one (u64ToF64 (2 ^ e))) = true ∧
    F64.sign (fdiv κ F64.one (u64ToF64 (2 ^ e))) = false ∧
    F64.mag (fdiv κ F64.one (u64ToF64 (2 ^ e))) * 2 ^ e = unitsPerOne := by
  have hu : unitsPerOne = 2 ^ e * 2 ^ (1074 - e) := by
    rw [unitsPerOne, ← pow_add, Nat.add_sub_cancel' (by omega)]
  have hmag : F64.mag (u64ToF64 (2 ^ e)) = 2 ^ e * unitsPerOne := mag_u64ToF64 (.inr ⟨e, he, rfl⟩)
  have hfin : F64.isFinite (u64ToF64 (2 ^ e)) = true := (integersConvertExactly _ (.inr ⟨e, he, rfl⟩)).1
  have hz : F64.isZero (u64ToF64 (2 ^ e)) = false :=
    isZero_eq_false_of_mag_pos (hmag ▸ Nat.mul_pos (Nat.two_pow_pos e) unitsPerOne_pos)
  have hround : roundMag (unitsPerOne * unitsPerOne) (2 ^ e * unitsPerOne) = roundMag (1 * 2 ^ (1074 - e)) 1 := by
    calc roundMag (unitsPerOne * unitsPerOne) (2 ^ e * unitsPerOne)
        = roundMag (unitsPerOne * unitsPerOne) (unitsPerOne * 2 ^ e) := by rw [Nat.mul_comm (2 ^ e)]
      _ = roundMag unitsPerOne (2 ^ e) := roundMag_scale unitsPerOne_pos ..
      _ = roundMag (2 ^ e * (1 * 2 ^ (1074 - e))) (2 ^ e * 1) := by rw [hu, Nat.one_mul, Nat.mul_one]
      _ = roundMag (1 * 2 ^ (1074 - e)) 1 := roundMag_scale (Nat.two_pow_pos e) ..
  have hlt : 1 * 2 ^ (1074 - e) < overflowUnits := by
    calc 1 * 2 ^ (1074 - e) ≤ 1 * unitsPerOne := by
          rw [hu]; exact Nat.mul_le_mul_left _ (Nat.le_mul_of_pos_left _ (Nat.two_pow_pos e))
      _ < overflowUnits := units_lt_overflowUnits (by decide)
  rw [fdiv_of_isFinite κ (by decide) hfin hz, mag_one, hmag, hround, isFinite_pack_roundMag Nat.one_pos,
    mag_pack_roundMag_exact (by decide) hlt, sign_pack_roundMag, signXor, sign_u64ToF64, Nat.mul_one]
  exact ⟨hlt, by decide, by rw [hu]; ring⟩

/-- Settles O35: the reciprocal of the power of two is exact, so both sides round one ratio. -/
theorem divisionByPowerOfTwoIsExactScaling : Obligations.DivisionByPowerOfTwoIsExactScaling := by
  intro κ κ' v e he
  obtain ⟨hfin, hsign, hmag⟩ := fdiv_one_two_pow_exact κ' he
  have hb := mag_u64ToF64 (.inr ⟨e, he, rfl⟩)
  refine fdiv_eq_fmul_of_reciprocal κ v (integersConvertExactly _ (.inr ⟨e, he, rfl⟩)).1 hfin
    (hsign.trans (sign_u64ToF64 _).symm) ?_
  rw [hb, ← Nat.mul_assoc]
  exact congrArg (· * unitsPerOne) hmag

/-! ### The sums in the terms of claims (R15) -/

theorem isCadd_cadd (κ : DrawKey) (a b : Cplx) : IsCadd (cadd κ a b) a b := ⟨_, _, rfl⟩

theorem isCsub_csub (κ : DrawKey) (a b : Cplx) : IsCsub (csub κ a b) a b := ⟨_, _, rfl⟩

theorem isCscaleDiv_cscaleDiv (κ : DrawKey) (a : Cplx) (n : Nat) : IsCscaleDiv (cscaleDiv κ a n) a n := ⟨_, _, rfl⟩

theorem getElem?_map_range (x : Nat → Cplx) {n k : Nat} (hk : k < n) : ((List.range n).map x)[k]? = some (x k) := by
  simp [hk]

/-! ### BFLY4 -/

/-- A BFLY4 that passes its checks and whose source is initialised leaves its sequence function's result (R140). -/
theorem exec_bfly4_completes (dir : Dir) {dst srca : Nat} {s : State} {x : Nat → Cplx} (hd : dst < s.params.nbanks)
    (ha : srca < s.params.nbanks) (hp : IsPow2 s.n) (h4 : 4 ≤ s.n) (hf : s.n ≤ s.params.depth)
    (hx : BankHolds s srca s.n x) :
    ∃ t, exec (.bfly4 dir dst srca) s = .next t ∧ CompletedFrom s t false false ∧ OnlyElementsWritten s t dst s.n ∧
      ∀ k < s.n, t.element dst k = (bfly4Seq s.key dir ((List.range s.n).map x))[k]? := by
  have hdvd : 4 ∣ ((List.range s.n).map x).length := by simpa using hp.dvd (k := 2) h4
  refine bankCommand_completes ?_ hx (by omega) ((bfly4Seq_length hdvd).trans (by simp))
  simp [bankExists_iff.2 hd, bankExists_iff.2 ha, isPow2_iff.2 hp, h4, fitsBank_iff.2 hf]

/-- Settles O20: group `q` of the result is the butterfly of group `q` of the source. -/
theorem bfly4TransformsGroups : Obligations.Bfly4TransformsGroups := by
  intro dir dst srca s x hd ha hp h4 hf hx
  obtain ⟨t, ht, hc, hw, he⟩ := exec_bfly4_completes dir hd ha hp h4 hf hx
  refine ⟨t, ht, hc, hw, fun q hq => ?_⟩
  obtain ⟨m, hm⟩ : 4 ∣ s.n := hp.dvd (k := 2) h4
  have hz : ∀ r < 4, t.element dst (4 * q + r) =
      (bfly4Group ((0 + q) :: s.key) dir (x (4 * q)) (x (4 * q + 1)) (x (4 * q + 2)) (x (4 * q + 3)))[r]? := fun r hr =>
    (he _ (by omega)).trans (bfly4Groups_getElem? _ _ _ _ _ _ hr (getElem?_map_range x (by omega))
      (getElem?_map_range x (by omega)) (getElem?_map_range x (by omega)) (getElem?_map_range x (by omega)))
  exact ⟨_, _, _, _, _, _, _, _, _, isCadd_cadd .., isCsub_csub .., isCadd_cadd .., isCsub_csub ..,
    by rintro rfl; rfl, by rintro rfl; rfl, hz 0 (by decide), isCadd_cadd .., hz 1 (by decide), isCadd_cadd ..,
    hz 2 (by decide), isCsub_csub .., hz 3 (by decide), isCsub_csub ..⟩

/-! ### COMBINE -/

/-- The twiddle of every block pair of a stage at a position (R144). -/
def stageTwiddle (p : Params) (κ : DrawKey) (dir : Dir) (k : Nat) : Nat → Cplx :=
  runningTwiddle (0 :: κ) (twiddle p.romVariant dir k) ⟨F64.one, F64.zero⟩

theorem isCmul_stageTwiddle_succ (p : Params) (κ : DrawKey) (dir : Dir) (k r : Nat) :
    IsCmul (stageTwiddle p κ dir k (r + 1)) (stageTwiddle p κ dir k r) (twiddle p.romVariant dir k) :=
  isCmul_cmul ..

/-- Position `r` of the block pair from `e` on, in both of its halves (R142). -/
theorem exists_combineSeq_getElem? (p : Params) (κ : DrawKey) (dir : Dir) {k e r : Nat} {x : List Cplx} {g o : Cplx}
    (hk : 1 ≤ k) (hx : 2 ^ k ∣ x.length) (he : 2 ^ k ∣ e) (hr : r < 2 ^ (k - 1)) (hg : x[e + r]? = some g)
    (ho : x[e + 2 ^ (k - 1) + r]? = some o) :
    ∃ pr z0 z1, IsCmul pr (stageTwiddle p κ dir k r) o ∧
      (combineSeq p κ dir k x)[e + r]? = some z0 ∧ IsCadd z0 g pr ∧
      (combineSeq p κ dir k x)[e + 2 ^ (k - 1) + r]? = some z1 ∧ IsCsub z1 g pr := by
  have h2 : 2 ^ k = 2 * 2 ^ (k - 1) := (mul_pow_sub_one (by omega) 2).symm
  have hlt : e < x.length := by have := (List.getElem?_eq_some_iff.1 hg).1; omega
  obtain ⟨c, rfl⟩ := he
  have hc : c < x.length / 2 ^ k := (Nat.lt_div_iff_mul_lt' hx c).2 hlt
  have hw := twiddles_getElem? (0 :: κ) (twiddle p.romVariant dir k) ⟨F64.one, F64.zero⟩ (2 ^ (k - 1)) 0 r hr
  rw [Nat.zero_add] at hw
  have hblocks : 2 * 2 ^ (k - 1) * (x.length / 2 ^ k) ≤ x.length := h2 ▸ Nat.mul_div_le ..
  rw [h2] at hg ho
  obtain ⟨h0, h1⟩ := combineBlocks_getElem? (1 :: κ) _ _ _ 0 c r x (twiddles_length ..) hblocks hc hr hw hg ho
  rw [← h2] at h0 h1
  exact ⟨_, _, _, isCmul_cmul .., h0, isCadd_cadd .., h1, isCsub_csub ..⟩

/-- A COMBINE that passes its checks and whose source is initialised leaves its sequence function's result (R142, R145). -/
theorem exec_combine_completes (dir : Dir) {dst srca k : Nat} {s : State} {x : Nat → Cplx} (hd : dst < s.params.nbanks)
    (ha : srca < s.params.nbanks) (hp : IsPow2 s.n) (hn : 2 ≤ s.n) (hk : 1 ≤ k) (hkn : 2 ^ k ≤ s.n)
    (hf : s.n ≤ s.params.depth) (hx : BankHolds s srca s.n x) :
    ∃ t, exec (.combine dir dst srca k) s = .next t ∧ CompletedFrom s t false false ∧
      OnlyElementsWritten s t dst s.n ∧
      ∀ j < s.n, t.element dst j = (combineSeq s.params s.key dir k ((List.range s.n).map x))[j]? := by
  have hdvd : 2 ^ k ∣ ((List.range s.n).map x).length := by simpa using hp.dvd hkn
  refine bankCommand_completes ?_ hx (by omega) ((combineSeq_length hk hdvd).trans (by simp))
  simp [bankExists_iff.2 hd, bankExists_iff.2 ha, isPow2_iff.2 hp, hn, hk, (le_log2_iff (by omega)).2 hkn,
    fitsBank_iff.2 hf]

/-- Settles O21: the running twiddles of the stage serve every block pair. -/
theorem combineMergesBlockPairs : Obligations.CombineMergesBlockPairs := by
  intro dir dst srca k s x hd ha hp hn hk hkn hf hx
  obtain ⟨t, ht, hc, hw, hel⟩ := exec_combine_completes dir hd ha hp hn hk hkn hf hx
  refine ⟨t, stageTwiddle s.params s.key dir k, ht, hc, hw, rfl,
    fun r => twiddle_eq s.params.romVariant dir k ▸ isCmul_stageTwiddle_succ .., fun e r hdiv hlt hr => ?_⟩
  have h2 : 2 ^ k = 2 * 2 ^ (k - 1) := (mul_pow_sub_one (by omega) 2).symm
  have hdvd : 2 ^ k ∣ s.n := hp.dvd hkn
  have he : 2 ^ k ∣ e := Nat.dvd_of_mod_eq_zero hdiv
  have hend : e + 2 ^ k ≤ s.n := by
    obtain ⟨c, rfl⟩ := he
    obtain ⟨b, hb⟩ := hdvd
    rw [hb] at hlt ⊢
    exact Nat.mul_le_mul_left _ (Nat.lt_of_mul_lt_mul_left hlt)
  rw [hel _ (by omega), hel _ (by omega)]
  exact exists_combineSeq_getElem? _ _ _ hk (by simpa using hdvd) he hr (getElem?_map_range x (by omega))
    (getElem?_map_range x (by omega))

/-! ### POST -/

/-- A bank-to-bank command whose checks pass and whose source is initialised completes at every length, 0 included. -/
theorem bankCommand_completes_of_length {p : Bool} {cs : List Check} {d a : Nat} {f : List Cplx → List Cplx} {s : State}
    {x : Nat → Cplx} (hc : firstError cs = none) (hx : BankHolds s a s.n x)
    (hl : (f ((List.range s.n).map x)).length = s.n) :
    ∃ t, bankCommand p false cs d a f s = .next t ∧ CompletedFrom s t p false ∧ OnlyElementsWritten s t d s.n ∧
      ∀ k < s.n, t.element d k = (f ((List.range s.n).map x))[k]? := by
  by_cases hn : s.n = 0
  · obtain ⟨t, ht, hs, hm⟩ := bankCommand_zero (p := p) (u := false) (d := d) (a := a) (f := f) hc hn
    exact ⟨t, ht, hs, fun b _ => by rw [hm], fun k hk => by omega⟩
  · exact bankCommand_completes hc hx hn hl

/-- Each element of POST's result, in the terms of claims (R146). -/
theorem exists_postSeq_getElem? (p : Params) (κ : DrawKey) (dir : Dir) {x : List Cplx} {k : Nat} {u : Cplx}
    (hu : x[k]? = some u) :
    ∃ v, (dir = .fwd → v = u) ∧ (dir = .inv → IsCscaleDiv v u x.length) ∧
      (postSeq p κ dir x)[k]? = some (csnap p.tol v) := by
  rw [postSeq, mapAt_getElem?, hu]
  cases dir with
  | fwd => exact ⟨u, fun _ => rfl, by simp, rfl⟩
  | inv => exact ⟨_, by simp, fun _ => isCscaleDiv_cscaleDiv .., rfl⟩

/-- Settles O22: POST has no condition on the length but the bank's, and works element by element. -/
theorem postScalesAndSnaps : Obligations.PostScalesAndSnaps := by
  intro dir dst srca s x hd ha hf hx
  have hchecks : firstError [(s.bankExists srca && s.bankExists dst, .badBank), (s.fitsBank, .capacity)] = none := by
    simp [bankExists_iff.2 hd, bankExists_iff.2 ha, fitsBank_iff.2 hf]
  obtain ⟨t, ht, hc, hw, he⟩ := bankCommand_completes_of_length (p := false) (d := dst)
    (f := postSeq s.params s.key dir) hchecks hx (by simp)
  refine ⟨t, ht, hc, hw, fun k hk => ?_⟩
  rw [he k hk]
  obtain ⟨v, hfwd, hinv, hv⟩ := exists_postSeq_getElem? s.params s.key dir (getElem?_map_range x hk)
  exact ⟨v, hfwd, by simpa using hinv, hv⟩

end Sys2Proof.Proofs
end

section
/-! PROOFS. The transform engine family (45_fft_engine.md): FFT as one commit of its sequence function, and the stage
commands of R165 as the same function on one bank, whose arithmetic differs from FFT's in the draws of its NaNs alone. -/

namespace Sys2Proof.Proofs
open Sys2Proof Sys2Proof.Machine

/-! ### FFT as one commit -/

/-- An FFT that passes its checks and whose source is initialised leaves its sequence function's result (R160). -/
theorem exec_fft_completes (dir : Dir) {dst srca : Nat} {s : State} {x : Nat → Cplx} (hd : dst < s.params.nbanks)
    (ha : srca < s.params.nbanks) (hp : s.n = 0 ∨ IsPow2 s.n) (hf : s.n ≤ s.params.depth) (hx : BankHolds s srca s.n x) :
    ∃ t, exec (.fft dir dst srca) s = .next t ∧ CompletedFrom s t false false ∧ OnlyElementsWritten s t dst s.n ∧
      ∀ k < s.n, t.element dst k = (fftSeq s.params s.key dir ((List.range s.n).map x))[k]? := by
  refine bankCommand_completes_of_length ?_ hx ((fftSeq_length (by simpa using hp)).trans (by simp))
  simp [bankExists_iff.2 hd, bankExists_iff.2 ha, powLength_iff.2 hp, fitsBank_iff.2 hf]

/-- The 2-point transform in the terms of claims (R161). -/
theorem exists_fft2_eq (p : Params) (κ : DrawKey) (dir : Dir) (x0 x1 : Cplx) :
    ∃ y0 y1 v0 v1, IsCadd y0 x0 x1 ∧ IsCsub y1 x0 x1 ∧ (dir = .fwd → v0 = y0 ∧ v1 = y1) ∧
      (dir = .inv → ∃ κ : Nat → DrawKey,
        v0 = ⟨fmul (κ 0) y0.re 0x3FE0000000000000#64, fmul (κ 1) y0.im 0x3FE0000000000000#64⟩ ∧
        v1 = ⟨fmul (κ 2) y1.re 0x3FE0000000000000#64, fmul (κ 3) y1.im 0x3FE0000000000000#64⟩) ∧
      fft2 p κ dir x0 x1 = [csnap p.tol v0, csnap p.tol v1] := by
  cases dir with
  | fwd => exact ⟨_, _, _, _, isCadd_cadd .., isCsub_csub .., fun _ => ⟨rfl, rfl⟩, by simp, rfl⟩
  | inv =>
    exact ⟨_, _, chalve (2 :: κ) _, chalve (3 :: κ) _, isCadd_cadd .., isCsub_csub .., by simp,
      fun _ => ⟨fun j => j % 2 :: (2 + j / 2) :: κ, rfl, rfl⟩, rfl⟩

/-- Settles O23: the length selects the closed form of the sequence function. -/
theorem fftOfShortLengths : Obligations.FftOfShortLengths := by
  intro dir dst srca s x hd ha h2 hf hx
  have hp : s.n = 0 ∨ IsPow2 s.n := by
    obtain h | h | h : s.n = 0 ∨ s.n = 1 ∨ s.n = 2 := by omega
    · exact .inl h
    · exact .inr ⟨0, h⟩
    · exact .inr ⟨1, h⟩
  obtain ⟨t, ht, hc, hw, he⟩ := exec_fft_completes dir hd ha hp hf hx
  refine ⟨t, ht, hc, hw, fun h1 => ?_, fun h2 => ?_⟩
  · rw [he 0 (by omega), h1]
    rfl
  · obtain ⟨y0, y1, v0, v1, hy0, hy1, hfwd, hinv, hz⟩ := exists_fft2_eq s.params s.key dir (x 0) (x 1)
    have hfft : fftSeq s.params s.key dir ((List.range s.n).map x) = [csnap s.params.tol v0, csnap s.params.tol v1] := by
      rw [h2, ← hz]
      rfl
    rw [he 0 (by omega), he 1 (by omega), hfft]
    exact ⟨y0, y1, v0, v1, hy0, hy1, hfwd, hinv, rfl, rfl⟩

/-! ### FFT as its stages -/

/-- The combine stages of the engine are a fold over their numbers (R162). -/
theorem combineStages_eq_foldl (p : Params) (κ : DrawKey) (dir : Dir) (c k : Nat) (d : List Cplx) :
    combineStages p κ dir c k d = (List.range' k c).foldl (fun d K => combineSeq p (K :: κ) dir K d) d := by
  induction c generalizing k d with
  | zero => rfl
  | succ c ih => rw [combineStages, ih, List.range'_succ, List.foldl_cons]

/-- FFT of `2^L` elements, `L >= 2`, with the stages that its length selects (R162). -/
theorem fftSeq_eq_stages (p : Params) (κ : DrawKey) (dir : Dir) {L : Nat} {x : List Cplx} (hL : 2 ≤ L)
    (hx : x.length = 2 ^ L) :
    fftSeq p κ dir x =
      postSeq p (2 :: κ) dir (combineStages p (1 :: κ) dir (L - 2) 3 (bfly4Seq (0 :: κ) dir (bitrevSeq x))) := by
  have h4 : 2 ^ 2 ≤ 2 ^ L := Nat.pow_le_pow_right (by decide) hL
  rw [fftSeq_eq_fftStages (by omega), fftStages, hx, Nat.log2_two_pow]

/-- Settles O24: the stages of the engine, its combine stages as a fold. -/
theorem fftRunsTheStages : Obligations.FftRunsTheStages := by
  intro dir dst srca L s x hd ha hL hn hf hx
  obtain ⟨t, ht, hc, hw, he⟩ := exec_fft_completes dir hd ha (.inr ⟨L, hn⟩) hf hx
  refine ⟨t, 0 :: s.key, 2 :: s.key, fun K => K :: 1 :: s.key, ht, hc, hw, fun k hk => ?_⟩
  rw [he k hk, fftSeq_eq_stages _ _ _ hL (by simpa using hn), combineStages_eq_foldl]

/-! ### Sequences that differ in draws alone (R14) -/

/-- `b` is `a`, unless `a` is a NaN: then its bits are a draw, and nothing is said of `b`. -/
def SameUnlessNaN (a b : F64) : Prop := F64.isNaN a = false → b = a

/-- Each part of `w` is that of `z`, unless the part of `z` is a NaN. -/
structure CSameUnlessNaN (z w : Cplx) : Prop where
  re : SameUnlessNaN z.re w.re
  im : SameUnlessNaN z.im w.im

/-- Two sequences of one length, each element of the second that of the first but for the NaNs of the first. -/
abbrev SeqSameUnlessNaN (x y : List Cplx) : Prop := List.Forall₂ CSameUnlessNaN x y

theorem CSameUnlessNaN.refl (z : Cplx) : CSameUnlessNaN z z := ⟨fun _ => rfl, fun _ => rfl⟩

theorem SeqSameUnlessNaN.refl (x : List Cplx) : SeqSameUnlessNaN x x :=
  List.forall₂_same.2 fun z _ => .refl z

theorem CSameUnlessNaN.eq_of_noNaN {z w : Cplx} (h : CSameUnlessNaN z w) (hz : NoNaN z) : w = z := by
  obtain ⟨re, im⟩ := z
  obtain ⟨re', im'⟩ := w
  obtain ⟨hre, him⟩ := hz
  exact congrArg₂ Cplx.mk (h.re hre) (h.im him)

/-- An operation of R12 whose result is no NaN has operands that are none, and owes nothing to its draw. -/
theorem SameUnlessNaN.op {f : DrawKey → F64 → F64 → F64} (hf : f ∈ [fadd, fsub, fmul, fdiv]) {a a' b b' : F64}
    (ha : SameUnlessNaN a a') (hb : SameUnlessNaN b b') (κ κ' : DrawKey) : SameUnlessNaN (f κ a b) (f κ' a' b') := by
  intro hn
  obtain ⟨-, hnan, hdraw⟩ := naNResultsAreQuietDraws f hf κ κ' a b
  have hab : ¬(F64.isNaN a = true ∨ F64.isNaN b = true) := fun h => by simp [hnan h] at hn
  obtain ⟨hna, hnb⟩ := not_or.1 hab
  rw [ha (Bool.not_eq_true _ ▸ hna), hb (Bool.not_eq_true _ ▸ hnb), hdraw hn]

theorem SameUnlessNaN.fneg {a a' : F64} (h : SameUnlessNaN a a') : SameUnlessNaN (fneg a) (fneg a') := fun hn =>
  congrArg Machine.fneg (h (isNaN_fneg a ▸ hn))

/-- The snap keeps a NaN, whatever the tolerance (R16). -/
theorem snap_of_isNaN {tol v : F64} (h : F64.isNaN v = true) : snap tol v = v := by
  have hv : F64.isNaN (fabs v) = true := by simpa [F64.isNaN, absBits_fabs] using h
  simp [snap, flt, hv]

theorem SameUnlessNaN.snap {v v' : F64} (h : SameUnlessNaN v v') (tol : F64) :
    SameUnlessNaN (snap tol v) (snap tol v') := by
  intro hn
  cases hv : F64.isNaN v with
  | false => rw [h hv]
  | true => simp [snap_of_isNaN hv, hv] at hn

section
variable {x x' y y' : Cplx} (hx : CSameUnlessNaN x x') (κ κ' : DrawKey)
include hx

theorem CSameUnlessNaN.cadd (hy : CSameUnlessNaN y y') : CSameUnlessNaN (cadd κ x y) (cadd κ' x' y') :=
  ⟨hx.re.op (by simp) hy.re _ _, hx.im.op (by simp) hy.im _ _⟩

theorem CSameUnlessNaN.csub (hy : CSameUnlessNaN y y') : CSameUnlessNaN (csub κ x y) (csub κ' x' y') :=
  ⟨hx.re.op (by simp) hy.re _ _, hx.im.op (by simp) hy.im _ _⟩

theorem CSameUnlessNaN.cmul (hy : CSameUnlessNaN y y') : CSameUnlessNaN (cmul κ x y) (cmul κ' x' y') :=
  have hmul {a a' b b' : F64} (ha : SameUnlessNaN a a') (hb : SameUnlessNaN b b') (κ κ' : DrawKey) :
      SameUnlessNaN (fmul κ a b) (fmul κ' a' b') := ha.op (by simp) hb κ κ'
  ⟨(hmul hx.re hy.re _ _).op (f := fsub) (by simp) (hmul hx.im hy.im _ _) _ _,
    (hmul hx.re hy.im _ _).op (f := fadd) (by simp) (hmul hx.im hy.re _ _) _ _⟩

theorem CSameUnlessNaN.cscaleDiv (n : Nat) : CSameUnlessNaN (cscaleDiv κ x n) (cscaleDiv κ' x' n) :=
  ⟨hx.re.op (by simp) (fun _ => rfl) _ _, hx.im.op (by simp) (fun _ => rfl) _ _⟩

theorem CSameUnlessNaN.mulI (dir : Dir) : CSameUnlessNaN (mulI dir x) (mulI dir x') := by
  cases dir with
  | fwd => exact ⟨hx.im, hx.re.fneg⟩
  | inv => exact ⟨hx.im.fneg, hx.re⟩

theorem CSameUnlessNaN.csnap (tol : F64) : CSameUnlessNaN (csnap tol x) (csnap tol x') :=
  ⟨hx.re.snap tol, hx.im.snap tol⟩

theorem CSameUnlessNaN.postElem (p : Params) (dir : Dir) (n : Nat) :
    CSameUnlessNaN (postElem p dir n κ x) (postElem p dir n κ' x') := by
  cases dir with
  | fwd => exact hx.csnap p.tol
  | inv => exact (hx.cscaleDiv κ κ' n).csnap p.tol

end

/-! ### The stages, draws apart -/

/-- An operation that respects two relations, draws apart, does so element by element. -/
theorem forall₂_mapAt {α β : Type} {R : α → α → Prop} {S : β → β → Prop} {f : DrawKey → α → β}
    (hf : ∀ κ κ' {a a'}, R a a' → S (f κ a) (f κ' a')) (κ κ' : DrawKey) (i : Nat) {x x' : List α}
    (hx : List.Forall₂ R x x') : List.Forall₂ S (mapAt κ f i x) (mapAt κ' f i x') := by
  induction hx generalizing i with
  | nil => exact .nil
  | cons h _ ih => exact .cons (hf _ _ h) (ih (i + 1))

theorem forall₂_zipAt {f : DrawKey → Cplx → Cplx → Cplx}
    (hf : ∀ {a a' b b'}, CSameUnlessNaN a a' → ∀ κ κ', CSameUnlessNaN b b' → CSameUnlessNaN (f κ a b) (f κ' a' b'))
    (κ κ' : DrawKey) (i : Nat) {x x' y y' : List Cplx} (hx : SeqSameUnlessNaN x x') (hy : SeqSameUnlessNaN y y') :
    SeqSameUnlessNaN (zipAt κ f i x y) (zipAt κ' f i x' y') := by
  induction hx generalizing i y y' with
  | nil => simp [zipAt]
  | cons ha _ ih =>
    cases hy with
    | nil => exact .nil
    | cons hb hy => exact .cons (hf ha _ _ hb) (ih (i + 1) hy)

theorem SeqSameUnlessNaN.bfly4Groups (κ κ' : DrawKey) (dir : Dir) (q : Nat) {x x' : List Cplx}
    (hx : SeqSameUnlessNaN x x') : SeqSameUnlessNaN (bfly4Groups κ dir q x) (bfly4Groups κ' dir q x') := by
  induction q, x using bfly4Groups.induct generalizing x' with
  | case1 q s0 s1 s2 s3 x ih =>
    obtain _ | ⟨h0, _ | ⟨h1, _ | ⟨h2, _ | ⟨h3, hx⟩⟩⟩⟩ := hx
    have ht0 := fun κ κ' => h0.cadd κ κ' h1
    have ht1 := fun κ κ' => h0.csub κ κ' h1
    have ht2 := fun κ κ' => h2.cadd κ κ' h3
    have hu := fun κ κ' => (h2.csub κ κ' h3).mulI dir
    exact .cons ((ht0 _ _).cadd _ _ (ht2 _ _)) <| .cons ((ht1 _ _).cadd _ _ (hu _ _)) <|
      .cons ((ht0 _ _).csub _ _ (ht2 _ _)) <| .cons ((ht1 _ _).csub _ _ (hu _ _)) (ih hx)
  | case2 q x h =>
    obtain _ | ⟨_, _ | ⟨_, _ | ⟨_, _ | ⟨_, _⟩⟩⟩⟩ := hx
    · exact .nil
    · exact .nil
    · exact .nil
    · exact .nil
    · exact (h _ _ _ _ _ rfl).elim

theorem SeqSameUnlessNaN.bfly4Seq (κ κ' : DrawKey) (dir : Dir) {x x' : List Cplx}
    (hx : SeqSameUnlessNaN x x') : SeqSameUnlessNaN (bfly4Seq κ dir x) (bfly4Seq κ' dir x') :=
  hx.bfly4Groups κ κ' dir 0

/-- The running products of a stage start from one twiddle and take one factor (R144). -/
theorem seqSameUnlessNaN_twiddles (κ κ' : DrawKey) (wsub : Cplx) (h r : Nat) {w w' : Cplx} (hw : CSameUnlessNaN w w') :
    SeqSameUnlessNaN (twiddles κ wsub h r w) (twiddles κ' wsub h r w') := by
  induction h generalizing r w w' with
  | zero => exact .nil
  | succ h ih => exact .cons hw (ih (r + 1) (hw.cmul _ _ (.refl wsub)))

theorem seqSameUnlessNaN_combinePair (κ κ' : DrawKey) {ws ws' even even' odd odd' : List Cplx}
    (hw : SeqSameUnlessNaN ws ws') (he : SeqSameUnlessNaN even even') (ho : SeqSameUnlessNaN odd odd') :
    SeqSameUnlessNaN (combinePair κ ws even odd) (combinePair κ' ws' even' odd') := by
  have hp := forall₂_zipAt CSameUnlessNaN.cmul (0 :: κ) (0 :: κ') 0 hw ho
  exact List.rel_append (forall₂_zipAt CSameUnlessNaN.cadd _ _ 0 he hp) (forall₂_zipAt CSameUnlessNaN.csub _ _ 0 he hp)

theorem seqSameUnlessNaN_combineBlocks (κ κ' : DrawKey) {ws ws' : List Cplx} (hw : SeqSameUnlessNaN ws ws') (h b j : Nat)
    {x x' : List Cplx} (hx : SeqSameUnlessNaN x x') :
    SeqSameUnlessNaN (combineBlocks κ ws h b j x) (combineBlocks κ' ws' h b j x') := by
  induction b generalizing j x x' with
  | zero => exact .nil
  | succ b ih =>
    exact List.rel_append
      (seqSameUnlessNaN_combinePair _ _ hw (List.forall₂_take h hx) (List.forall₂_take h (List.forall₂_drop h hx)))
      (ih (j + 1) (List.forall₂_drop (2 * h) hx))

theorem SeqSameUnlessNaN.combineSeq (p : Params) (κ κ' : DrawKey) (dir : Dir) (k : Nat) {x x' : List Cplx}
    (hx : SeqSameUnlessNaN x x') : SeqSameUnlessNaN (combineSeq p κ dir k x) (combineSeq p κ' dir k x') := by
  simp only [Machine.combineSeq, ← hx.length_eq]
  exact seqSameUnlessNaN_combineBlocks _ _ (seqSameUnlessNaN_twiddles _ _ _ _ _ (.refl _)) _ _ _ hx

theorem SeqSameUnlessNaN.postSeq (p : Params) (κ κ' : DrawKey) (dir : Dir) {x x' : List Cplx}
    (hx : SeqSameUnlessNaN x x') : SeqSameUnlessNaN (postSeq p κ dir x) (postSeq p κ' dir x') := by
  rw [Machine.postSeq, Machine.postSeq, ← hx.length_eq]
  exact forall₂_mapAt (fun κ κ' _ _ h => h.postElem κ κ' p dir _) κ κ' 0 hx

/-! ### A bank by its elements -/

/-- A bank whose elements are those of a sequence holds it. -/
theorem exists_bankHolds {s : State} {b n : Nat} {zs : List Cplx} (hl : zs.length = n)
    (h : ∀ k < n, s.element b k = zs[k]?) : ∃ x, BankHolds s b n x ∧ (List.range n).map x = zs := by
  refine ⟨fun k => zs.getD k czero, fun k hk => ?_, List.ext_getElem (by simp [hl]) fun k _ hk => ?_⟩
  · simp [h k hk, hl, hk]
  · simp [hk]

/-- A lane of the word of eight lanes is that lane (R63). -/
theorem lane_ofLanes (b : Fin 8 → Byte) (j : Fin 8) :
    lane (ofLanes (b 0) (b 1) (b 2) (b 3) (b 4) (b 5) (b 6) (b 7)) j = b j := by
  have hb := fun i => (b i).isLt
  simp only [Fin.forall_fin_succ] at hb
  apply BitVec.eq_of_toNat_eq
  simp only [lane, ofLanes, BitVec.toNat_ofNat]
  fin_cases j <;> simp <;> omega

/-- A word that reads has every byte written, each the lane of its place (R63). -/
theorem readByte_of_readWord {m : Memory} {a j : Nat} {v : Word} (h : m.readWord a = some v) (hj : j < 8) :
    m.readByte (a + j) = some (lane v j) := by
  unfold Memory.readWord at h
  split at h
  · next b0 b1 b2 b3 b4 b5 b6 b7 h0 h1 h2 h3 h4 h5 h6 h7 =>
    obtain rfl := Option.some.inj h
    rw [show lane (ofLanes b0 b1 b2 b3 b4 b5 b6 b7) j = _ from
      lane_ofLanes ![b0, b1, b2, b3, b4, b5, b6, b7] ⟨j, hj⟩]
    interval_cases j <;> assumption
  · cases h

/-- The bytes of an element. -/
theorem readByte_of_element {s : State} {b k j : Nat} {z : Cplx} (h : s.element b k = some z) (hj : j < 16) :
    s.mem.readByte (elemOffset s.params b k + j) = some (if j < 8 then lane z.re j else lane z.im (j - 8)) := by
  obtain ⟨hre, him⟩ := State.element_eq_some.1 h
  split
  · next hlt => exact readByte_of_readWord hre hlt
  · next hge =>
    rw [← readByte_of_readWord him (by omega : j - 8 < 8)]
    congr 1
    omega

/-- Two states that one bank's elements alone tell from a third, and whose elements there are the same, have the same
bytes. -/
theorem readByte_eq_of_elements {s t u : State} {d n : Nat} {x : Nat → Cplx} (ht : OnlyElementsWritten s t d n)
    (hu : OnlyElementsWritten s u d n) (htp : t.params = s.params) (hup : u.params = s.params) (htx : BankHolds t d n x)
    (hux : BankHolds u d n x) (a : Nat) : u.mem.readByte a = t.mem.readByte a := by
  by_cases ha : a < elemOffset s.params d 0 ∨ elemOffset s.params d 0 + 16 * n ≤ a
  · rw [ht a ha, hu a ha]
  · obtain ⟨k, j, hk, hj, rfl⟩ : ∃ k j, k < n ∧ j < 16 ∧ a = elemOffset s.params d k + j := by
      refine ⟨(a - elemOffset s.params d 0) / 16, (a - elemOffset s.params d 0) % 16, by omega, by omega, ?_⟩
      rw [elemOffset_eq]
      omega
    have htb := readByte_of_element (htx k hk) hj
    have hub := readByte_of_element (hux k hk) hj
    rw [htp] at htb
    rw [hup] at hub
    rw [htb, hub]

/-! ### Runs of the stage commands (R165) -/

theorem runCommands_cons_of_next {i : Instr} {is : List Instr} {s t : State}
    (h : exec i (s.start (encode i) s.lenl) = .next t) : runCommands (i :: is) s = runCommands is t := by
  rw [runCommands, h]

theorem runCommands_append_of_next {is js : List Instr} {s t : State} (h : runCommands is s = .next t) :
    runCommands (is ++ js) s = runCommands js t := by
  induction is generalizing s with
  | nil => cases h; rfl
  | cons i is ih =>
    rw [runCommands] at h
    split at h
    · next u hu => rw [List.cons_append, runCommands_cons_of_next hu, ih h]
    · cases h
    · cases h

/-- `i` completes from `v` and leaves `zs` in the first elements of bank `d`, which is all it writes. -/
def Leaves (i : Instr) (v : State) (d : Nat) (zs : List Cplx) : Prop :=
  ∃ t, exec i v = .next t ∧ CompletedFrom v t false false ∧ OnlyElementsWritten v t d v.n ∧
    ∀ k < v.n, t.element d k = zs[k]?

/-- `u` has the parameters, the length and the memory of `s`, but for elements `0 .. n-1` of bank `d`. -/
structure ChangedBank (s u : State) (d : Nat) : Prop where
  params : u.params = s.params
  lenl : u.lenl = s.lenl
  only : OnlyElementsWritten s u d s.n

/-- `u` is where the stages have come to from `s`: the bank they work in holds `xs`, but for the NaNs of `xs`. -/
structure StagesAt (s u : State) (d : Nat) (xs : List Cplx) : Prop extends ChangedBank s u d where
  noError : u.err = false
  holds : ∃ y, BankHolds u d s.n y ∧ SeqSameUnlessNaN xs ((List.range s.n).map y)

theorem ChangedBank.refl (s : State) (d : Nat) : ChangedBank s s d := ⟨rfl, rfl, fun _ _ => rfl⟩

theorem StagesAt.length_eq {s u : State} {d : Nat} {xs : List Cplx} (h : StagesAt s u d xs) : xs.length = s.n := by
  obtain ⟨y, -, hy⟩ := h.holds
  simpa using hy.length_eq

/-- A command of the sequence, started in `u` and completed. -/
theorem ChangedBank.command {s u : State} {d : Nat} {i : Instr} {xs zs : List Cplx} (h : ChangedBank s u d)
    (hi : Leaves i (u.start (encode i) u.lenl) d zs) (hz : SeqSameUnlessNaN xs zs) (hl : xs.length = s.n) :
    ∃ t, exec i (u.start (encode i) u.lenl) = .next t ∧ StagesAt s t d xs := by
  obtain ⟨hp, hlen, hw⟩ := h
  have hn : (u.start (encode i) u.lenl).n = s.n := congrArg BitVec.toNat hlen
  obtain ⟨t, ht, hc, hwt, he⟩ := hi
  rw [hn] at hwt he
  obtain ⟨y, hy, rfl⟩ := exists_bankHolds (hz.length_eq.symm.trans hl) he
  refine ⟨t, ht, ⟨⟨?_, ?_, fun a ha => ?_⟩, ?_, y, hy, hz⟩⟩
  · rw [hc]; exact hp
  · rw [hc]; exact hlen
  · rw [hwt a (by simpa [hp] using ha)]
    exact hw a ha
  · rw [hc]

/-- A BITREV leaves its sequence function's result (R130). -/
theorem leaves_bitrev {dst srca : Nat} {v : State} {x : Nat → Cplx} (hd : dst < v.params.nbanks)
    (ha : srca < v.params.nbanks) (hp : IsPow2 v.n) (hf : v.n ≤ v.params.depth) (hx : BankHolds v srca v.n x) :
    Leaves (.bitrev dst srca) v dst (bitrevSeq ((List.range v.n).map x)) := by
  refine bankCommand_completes_of_length ?_ hx (by simp)
  simp [bankExists_iff.2 hd, bankExists_iff.2 ha, isPow2_iff.2 hp, fitsBank_iff.2 hf]

/-- A POST leaves its sequence function's result (R146). -/
theorem leaves_post (dir : Dir) {dst srca : Nat} {v : State} {x : Nat → Cplx} (hd : dst < v.params.nbanks)
    (ha : srca < v.params.nbanks) (hf : v.n ≤ v.params.depth) (hx : BankHolds v srca v.n x) :
    Leaves (.post dir dst srca) v dst (postSeq v.params v.key dir ((List.range v.n).map x)) := by
  refine bankCommand_completes_of_length ?_ hx (by simp)
  simp [bankExists_iff.2 hd, bankExists_iff.2 ha, fitsBank_iff.2 hf]

section
variable {s u : State} {d L : Nat} {xs : List Cplx} (hd : d < s.params.nbanks) (hf : s.n ≤ s.params.depth)
include hd hf

/-- An in-place command that leaves a function of its bank's contents, draws apart, takes the stages one further. -/
theorem StagesAt.command (h : StagesAt s u d xs) {i : Instr} {zs : List Cplx} (f : State → List Cplx → List Cplx)
    (hi : ∀ v y, v.params = s.params → v.n = s.n → d < v.params.nbanks → v.n ≤ v.params.depth → BankHolds v d v.n y →
      Leaves i v d (f v ((List.range v.n).map y)))
    (hz : ∀ v ys, v.params = s.params → SeqSameUnlessNaN xs ys → SeqSameUnlessNaN zs (f v ys))
    (hl : zs.length = s.n) : ∃ t, exec i (u.start (encode i) u.lenl) = .next t ∧ StagesAt s t d zs := by
  obtain ⟨y, hy, hxy⟩ := h.holds
  have hn : (u.start (encode i) u.lenl).n = s.n := congrArg BitVec.toNat h.lenl
  refine h.toChangedBank.command
    (hi (u.start (encode i) u.lenl) y h.params hn (by simpa [h.params]) (by simpa [h.params, hn] using hf) ?_)
    (hz _ _ h.params (hn ▸ hxy)) hl
  rw [hn]
  exact hy

theorem StagesAt.bfly4 (κ : DrawKey) (dir : Dir) (hL : 2 ≤ L) (hn : s.n = 2 ^ L) (h : StagesAt s u d xs) :
    ∃ t, exec (.bfly4 dir d d) (u.start (encode (.bfly4 dir d d)) u.lenl) = .next t ∧
      StagesAt s t d (bfly4Seq κ dir xs) := by
  have h4 : 2 ^ 2 ≤ 2 ^ L := Nat.pow_le_pow_right (by decide) hL
  refine h.command hd hf (fun v => bfly4Seq v.key dir) (fun v y _ hv hd hf hy => ?_)
    (fun _ _ _ hxy => hxy.bfly4Seq _ _ dir) ?_
  · exact exec_bfly4_completes dir hd hd ⟨L, hv.trans hn⟩ (by omega) hf hy
  · rw [bfly4Seq_length (by rw [h.length_eq, hn]; exact pow_dvd_pow 2 hL), h.length_eq]

theorem StagesAt.combine (κ : DrawKey) (dir : Dir) {k : Nat} (hk : 1 ≤ k) (hkL : k ≤ L) (hn : s.n = 2 ^ L)
    (h : StagesAt s u d xs) :
    ∃ t, exec (.combine dir d d k) (u.start (encode (.combine dir d d k)) u.lenl) = .next t ∧
      StagesAt s t d (combineSeq s.params κ dir k xs) := by
  have hpow : 2 ^ k ≤ 2 ^ L := Nat.pow_le_pow_right (by decide) hkL
  have h2 : 2 ^ 1 ≤ 2 ^ k := Nat.pow_le_pow_right (by decide) hk
  refine h.command hd hf (fun v => combineSeq v.params v.key dir k) (fun v y _ hv hd hf hy => ?_)
    (fun v _ hv hxy => hv ▸ hxy.combineSeq _ _ _ dir k) ?_
  · exact exec_combine_completes dir hd hd ⟨L, hv.trans hn⟩ (by omega) hk (by omega) hf hy
  · rw [combineSeq_length hk (by rw [h.length_eq, hn]; exact pow_dvd_pow 2 hkL), h.length_eq]

theorem StagesAt.post (κ : DrawKey) (dir : Dir) (h : StagesAt s u d xs) :
    ∃ t, exec (.post dir d d) (u.start (encode (.post dir d d)) u.lenl) = .next t ∧
      StagesAt s t d (postSeq s.params κ dir xs) :=
  h.command hd hf (fun v => postSeq v.params v.key dir) (fun _ _ _ _ hd hf hy => leaves_post dir hd hd hf hy)
    (fun _ _ hv hxy => hv ▸ hxy.postSeq _ _ _ dir) (by rw [postSeq_length, h.length_eq])

/-- The COMBINE commands in order run the engine's combine stages (R162). -/
theorem StagesAt.combines (κ : DrawKey) (dir : Dir) (c : Nat) {k : Nat} (hk : 1 ≤ k) (hc : k + c ≤ L + 1)
    (hn : s.n = 2 ^ L) (h : StagesAt s u d xs) :
    ∃ t, runCommands ((List.range' k c).map (.combine dir d d)) u = .next t ∧
      StagesAt s t d (combineStages s.params κ dir c k xs) := by
  induction c generalizing k u xs with
  | zero => exact ⟨u, rfl, h⟩
  | succ c ih =>
    obtain ⟨v, hv, hvs⟩ := h.combine hd hf (k :: κ) dir hk (by omega) hn
    obtain ⟨t, ht, hts⟩ := ih (k := k + 1) (by omega) (by omega) hvs
    exact ⟨t, by rw [List.range'_succ, List.map_cons, runCommands_cons_of_next hv, ht], hts⟩

/-- BITREV is the sequence's first command, and computes nothing (R130). -/
theorem ChangedBank.bitrev {a : Nat} {x : Nat → Cplx} (ha : a < s.params.nbanks) (hp : IsPow2 s.n)
    (hx : BankHolds s a s.n x) :
    ∃ t, exec (.bitrev d a) (s.start (encode (.bitrev d a)) s.lenl) = .next t ∧
      StagesAt s t d (bitrevSeq ((List.range s.n).map x)) :=
  (ChangedBank.refl s d).command (leaves_bitrev (v := s.start _ s.lenl) hd ha hp hf hx) (.refl _) (by simp)

/-- The stage commands succeed, and leave FFT's result but for its NaNs (R165). -/
theorem exists_stagesAt_fftSeq (κ : DrawKey) (dir : Dir) {a : Nat} {x : Nat → Cplx} (ha : a < s.params.nbanks)
    (hL : 2 ≤ L) (hn : s.n = 2 ^ L) (hx : BankHolds s a s.n x) :
    ∃ t, runCommands (stageSequence dir d a L) s = .next t ∧
      StagesAt s t d (fftSeq s.params κ dir ((List.range s.n).map x)) := by
  obtain ⟨t1, h1, hs1⟩ := ChangedBank.bitrev hd hf ha ⟨L, hn⟩ hx
  obtain ⟨t2, h2, hs2⟩ := hs1.bfly4 hd hf (0 :: κ) dir hL hn
  obtain ⟨t3, h3, hs3⟩ := hs2.combines hd hf (1 :: κ) dir (L - 2) (k := 3) (by omega) (by omega) hn
  obtain ⟨t4, h4, hs4⟩ := hs3.post hd hf (2 :: κ) dir
  refine ⟨t4, ?_, by rwa [fftSeq_eq_stages _ _ _ hL (by simpa using hn)]⟩
  rw [stageSequence, List.append_assoc, List.cons_append, List.cons_append, List.nil_append,
    runCommands_cons_of_next h1, runCommands_cons_of_next h2, runCommands_append_of_next h3,
    runCommands_cons_of_next h4, runCommands]

end

/-- An FFT that succeeds at a length above 0 has banks that exist, a length that fits them and an initialised source. -/
theorem ready_of_exec_fft {dir : Dir} {dst srca : Nat} {s t : State} (h : exec (.fft dir dst srca) s = .next t)
    (ht : t.err = false) (hn : s.n ≠ 0) :
    dst < s.params.nbanks ∧ srca < s.params.nbanks ∧ s.n ≤ s.params.depth ∧ ∃ x, BankHolds s srca s.n x := by
  obtain ⟨e, p, rfl⟩ | ⟨hne, -⟩ := exec_next h
  · cases ht
  · obtain ⟨hd, hf⟩ := writeBank_fits hne rfl
    have hbank : ¬commandError s (.fft dir dst srca) .badBank := hne .badBank
    have ha : srca < s.params.nbanks := by
      by_contra hle
      exact hbank ⟨srca, by simp [readBanks], Nat.not_lt.1 hle⟩
    obtain ⟨zs, hzs, -⟩ := mem_of_exec h ht rfl hn
    obtain ⟨x, hx, -⟩ := Option.map_eq_some_iff.1 hzs
    obtain ⟨hl, he⟩ := State.snapshot_eq_some hx
    obtain ⟨y, hy, -⟩ := exists_bankHolds hl fun k hk => by rw [he k (hl ▸ hk), List.getElem?_eq_getElem]
    exact ⟨hd, ha, hf, y, hy⟩

/-- Settles O25: the stage commands leave FFT's elements but for their NaNs, of which FFT's result holds none, and neither
run writes any other byte. -/
theorem stageSequenceLeavesTheBitsOfFft : Obligations.StageSequenceLeavesTheBitsOfFft := by
  intro dir dst srca L s t hL hn ht herr hnan
  obtain ⟨hd, ha, hf, x, hx⟩ := ready_of_exec_fft ht herr (by rw [hn]; positivity)
  obtain ⟨t', ht', hc, hw, he⟩ := exec_fft_completes dir hd ha (.inr ⟨L, hn⟩) hf hx
  obtain rfl : t' = t := by simpa [ht'] using ht
  obtain ⟨u, hu, hus⟩ := exists_stagesAt_fftSeq hd hf s.key dir ha hL hn hx
  obtain ⟨y, hy, hyx⟩ := exists_bankHolds hus.length_eq he
  obtain ⟨z, hz, hyz⟩ := hus.holds
  rw [← hyx, SeqSameUnlessNaN, List.forall₂_map_left_iff, List.forall₂_map_right_iff, List.forall₂_same] at hyz
  have hzy : BankHolds u dst s.n y := fun k hk => by
    rw [hz k hk, (hyz k (List.mem_range.2 hk)).eq_of_noNaN (hnan k hk _ (hy k hk))]
  exact ⟨u, hu, hus.noError, readByte_eq_of_elements hw hus.only (by rw [hc]) hus.params hy hzy⟩

end Sys2Proof.Proofs
end

section
/-! PROOFS. The chirp-z family (46_chirp_z.md): the convolution length, the start of the chirp table, and CZT as one commit
of its sequence function, each of whose steps has a rule for its elements in the terms of claims. -/

namespace Sys2Proof.Proofs
open Sys2Proof Sys2Proof.Machine

/-! ### The convolution length (R173) -/

theorem convLength_le {n : Nat} (h : 1 ≤ n) : convLength n ≤ 4 * n :=
  Nat.mul_le_mul_left 4 (hob_le h)

theorem four_le_convLength (n : Nat) : 4 ≤ convLength n :=
  Nat.le_mul_of_pos_right 4 (Nat.two_pow_pos _)

/-- Below `2^29` the highest power of two is at most `2^28`. -/
theorem convLength_le_of_lt {n : Nat} (h1 : 1 ≤ n) (h : n < 2 ^ 29) : convLength n ≤ 2 ^ 30 := by
  have hlog : n.log2 < 29 := (Nat.log2_lt (by omega)).2 h
  calc convLength n ≤ 4 * 2 ^ 28 := Nat.mul_le_mul_left 4 (Nat.pow_le_pow_right (by decide) (by omega))
    _ = 2 ^ 30 := by decide

/-- Settles O27: the highest power of two of `n` is above `n / 2` and at most `n`. -/
theorem convolutionLengthBound : Obligations.ConvolutionLengthBound := fun n h1 =>
  ⟨convLength_isPow2 n, two_mul_lt_convLength n, convLength_le h1, four_le_convLength n, convLength_le_of_lt h1,
    fun _ hp => (convLength_le h1).trans (Nat.mul_le_mul_left 4 hp)⟩

/-! ### The start of the chirp table (R172, R175, R182) -/

theorem mag_zero : F64.mag F64.zero = 0 := mag_eq_zero_iff.2 rfl

/-- A zero divided by a positive integer is `+0.0`. -/
theorem fdiv_zero_u64ToF64 (κ : DrawKey) {n : Nat} (h1 : 1 ≤ n) (h : n < 2 ^ 53) :
    fdiv κ F64.zero (u64ToF64 n) = F64.zero := by
  have hz : F64.isZero (u64ToF64 n) = false :=
    isZero_eq_false_of_mag_pos ((mag_u64ToF64 (.inl h)).symm ▸ Nat.mul_pos h1 unitsPerOne_pos)
  have hs : signXor F64.zero (u64ToF64 n) = false := by rw [signXor, sign_u64ToF64]; rfl
  rw [fdiv_of_isFinite κ rfl (integersConvertExactly n (.inl h)).1 hz, hs, mag_zero, Nat.zero_mul, roundMag_zero]
  rfl

theorem u64ToF64_zero : u64ToF64 0 = F64.zero := by
  rw [u64ToF64, Nat.zero_mul, roundMag_zero]
  rfl

theorem fmul_piD_zero (κ : DrawKey) : fmul κ piD F64.zero = F64.zero := by
  rw [fmul_of_isFinite κ (by decide) rfl, mag_zero, Nat.mul_zero, roundMag_zero]
  rfl

theorem chirpAngle_zero (κ : DrawKey) {n : Nat} (h1 : 1 ≤ n) (h : n < 2 ^ 53) : chirpAngle κ n 0 = F64.zero := by
  rw [chirpAngle, Nat.mul_zero, Nat.zero_mod, u64ToF64_zero, fmul_piD_zero, fdiv_zero_u64ToF64 _ h1 h]

theorem tinyAngle_zero : tinyAngle F64.zero = true := by
  simp only [tinyAngle, mag_zero, Nat.two_pow_pos, decide_true]

/-- The cosine of a tiny angle is 1 (R182). -/
theorem cosNearest_of_tinyAngle {t : F64} (hf : F64.isFinite t = true) (ht : tinyAngle t = true) :
    cosNearest t = F64.one := by
  simp [cosNearest, hf, ht]

/-- The sine of a tiny angle is the angle (R182). -/
theorem sinNearest_of_tinyAngle {t : F64} (hf : F64.isFinite t = true) (ht : tinyAngle t = true) : sinNearest t = t := by
  simp [sinNearest, hf, ht]

/-- Settles O28: the angle of entry 0 is `+0.0`, which is tiny. -/
theorem chirpTableStartsAtOne : Obligations.ChirpTableStartsAtOne := by
  intro p κ n hp h1 h
  rw [chirpEntry, chirpAngle_zero κ h1 (h.trans (by decide)), trigCOS, trigSIN, if_pos hp, if_pos hp,
    cosNearest_of_tinyAngle rfl tinyAngle_zero, sinNearest_of_tinyAngle rfl tinyAngle_zero]
  rfl

/-! ### CZT as one commit (R170, R171) -/

theorem firstError_czt {dst srca : Nat} {s : State} (hd : dst < s.params.nbanks) (ha : srca < s.params.nbanks)
    (hlim : s.n < cztLimit) (hf : s.n ≤ s.params.depth) :
    firstError [(s.bankExists srca && s.bankExists dst, .badBank), (decide (s.n < cztLimit), .inputTooLarge),
      (s.fitsBank, .capacity)] = none := by
  simp [bankExists_iff.2 hd, bankExists_iff.2 ha, hlim, fitsBank_iff.2 hf]

/-- A CZT of at least one element that passes its checks and whose source is initialised leaves its sequence function's
result (R170). -/
theorem exec_czt_completes (dir : Dir) {dst srca : Nat} {s : State} {x : Nat → Cplx} (hd : dst < s.params.nbanks)
    (ha : srca < s.params.nbanks) (hlim : s.n < cztLimit) (hf : s.n ≤ s.params.depth) (h1 : 1 ≤ s.n)
    (hx : BankHolds s srca s.n x) :
    ∃ t, exec (.czt dir dst srca) s = .next t ∧ CompletedFrom s t false true ∧ OnlyElementsWritten s t dst s.n ∧
      ∀ k < s.n, t.element dst k = (cztSeq s.params s.key dir ((List.range s.n).map x))[k]? :=
  bankCommand_completes (firstError_czt hd ha hlim hf) hx (by omega) ((cztSeq_length ..).trans (by simp))

/-- A CZT of length 0 whose banks exist completes and writes nothing (R180). -/
theorem exec_czt_zero (dir : Dir) {dst srca : Nat} {s : State} (hd : dst < s.params.nbanks)
    (ha : srca < s.params.nbanks) (hn : s.n = 0) :
    ∃ t, exec (.czt dir dst srca) s = .next t ∧ CompletedFrom s t false false ∧ t.mem = s.mem :=
  bankCommand_zero (firstError_czt hd ha (by rw [hn]; decide) (by omega)) hn

/-! ### The steps of the convolution, element by element -/

theorem isChirpmul_chirpmul (κ : DrawKey) (v cs : Cplx) : IsChirpmul (chirpmul κ v cs) v cs := ⟨(· :: κ), rfl⟩

/-- Each entry of the chirp table (R172). -/
theorem chirpTable_getElem? (p : Params) (κ : DrawKey) {n i : Nat} (h : i < n) :
    (chirpTable p κ n)[i]? = some (chirpEntry p (i :: κ) n i) :=
  getElem?_map_range _ h

/-- The pre-chirped elements of the input (R174). -/
theorem exists_preChirp_getElem? (κ : DrawKey) (m : Nat) {x t : List Cplx} {i : Nat} {v c : Cplx} (hx : x[i]? = some v)
    (ht : t[i]? = some c) : ∃ z, (preChirp κ m x t)[i]? = some z ∧ IsChirpmul z v c := by
  have hz := zipAt_getElem? κ chirpmul 0 hx ht
  rw [preChirp, List.getElem?_append_left (List.getElem?_eq_some_iff.1 hz).1]
  exact ⟨_, hz, isChirpmul_chirpmul ..⟩

/-- The zeros after the pre-chirped input (R174). -/
theorem preChirp_getElem?_of_le (κ : DrawKey) {m i : Nat} {x t : List Cplx} (ht : t.length = x.length)
    (hi : x.length ≤ i) (hm : i < m) : (preChirp κ m x t)[i]? = some czero := by
  have hl : (zipAt κ chirpmul 0 x t).length = x.length := by simp [ht]
  rw [preChirp, List.getElem?_append_right (hl.trans_le hi), List.getElem?_replicate_of_lt (by omega)]

/-- The lower copy of the chirp in the kernel (R175). -/
theorem chirpKernel_getElem?_of_lt {m n i : Nat} {t : List Cplx} {c : Cplx} (hi : i < n) (hm : i < m)
    (ht : t[i]? = some c) : (chirpKernel m n t)[i]? = some c := by
  rw [chirpKernel, getElem?_map_range _ hm, if_pos hi, List.getD_eq_getElem?_getD, ht, Option.getD_some]

/-- The mirrored copy of the chirp in the kernel, which does not meet the lower one (R175). -/
theorem chirpKernel_getElem?_mirror {m n i : Nat} {t : List Cplx} {c : Cplx} (h1 : 1 ≤ i) (hi : i < n) (hm : 2 * n < m)
    (ht : t[i]? = some c) : (chirpKernel m n t)[m - i]? = some c := by
  have hback : m - (m - i) = i := by omega
  rw [chirpKernel, getElem?_map_range _ (by omega), if_neg (by omega), hback, if_pos hi,
    List.getD_eq_getElem?_getD, ht, Option.getD_some]

/-- The zeros of the kernel between its two copies of the chirp (R175). -/
theorem chirpKernel_getElem?_between {m n i : Nat} {t : List Cplx} (hn : n ≤ i) (hi : i ≤ m - n) (hm : i < m) :
    (chirpKernel m n t)[i]? = some czero := by
  rw [chirpKernel, getElem?_map_range _ hm, if_neg (by omega), if_neg (by omega)]

/-- Each element of the un-chirp (R177). -/
theorem exists_unChirp_getElem? (p : Params) (κ : DrawKey) {d t : List Cplx} {k : Nat} {u w : Cplx}
    (hd : d[k]? = some u) (ht : t[k]? = some w) : ∃ z, IsChirpmul z u w ∧ (unChirp p κ d t)[k]? = some (csnap p.tol z) :=
  ⟨_, isChirpmul_chirpmul .., zipAt_getElem? κ _ 0 hd ht⟩

/-- Each element of the mirror and scale (R179). -/
theorem exists_mirrorScale_getElem? (p : Params) (κ : DrawKey) {n j : Nat} {y : List Cplx} {v : Cplx} (hj : j < n)
    (hv : y[(n - j) % n]? = some v) :
    ∃ z, IsCscaleDiv z v n ∧ (mirrorScale p κ n y)[j]? = some (csnap p.tol z) := by
  refine ⟨cscaleDiv (j :: κ) v n, isCscaleDiv_cscaleDiv .., ?_⟩
  rw [mirrorScale, mapAt_getElem?, List.getElem?_range hj, Option.map_some, List.getD_eq_getElem?_getD, hv,
    Option.getD_some, Nat.zero_add]

/-! ### The forward transform (R176, R178) -/

/-- A sequence of known length as a function on its indices. -/
theorem exists_forall_getElem? {z : List Cplx} {n : Nat} (hz : z.length = n) :
    ∃ y : Nat → Cplx, ∀ k < n, z[k]? = some (y k) :=
  ⟨fun k => z.getD k czero, fun k hk => by simp [hz, hk]⟩

/-- The cyclic convolution as three transforms with one product between (R176). -/
theorem exists_convolve_eq (p : Params) (κ : DrawKey) {a b : List Cplx} {m : Nat} (hm : IsPow2 m) (ha : a.length = m)
    (hb : b.length = m) :
    ∃ A B P : List Cplx, (∃ κ, A = fftSeq p κ .fwd a) ∧ (∃ κ, B = fftSeq p κ .fwd b) ∧
      (∀ k < m, ∃ u v z, A[k]? = some u ∧ B[k]? = some v ∧ P[k]? = some z ∧ IsCmul z u v) ∧ P.length = m ∧
      ∃ κ', convolve p κ a b = fftSeq p κ' .inv P := by
  have hA : (fftSeq p (0 :: κ) .fwd a).length = m := (fftSeq_length (.inr (ha ▸ hm))).trans ha
  have hB : (fftSeq p (1 :: κ) .fwd b).length = m := (fftSeq_length (.inr (hb ▸ hm))).trans hb
  refine ⟨_, _, cmulSeq (2 :: κ) _ _, ⟨0 :: κ, rfl⟩, ⟨1 :: κ, rfl⟩, fun k hk => ?_,
    by rw [length_cmulSeq, hA, hB, Nat.min_self], _, rfl⟩
  obtain ⟨u, hu⟩ := exists_forall_getElem? hA
  obtain ⟨v, hv⟩ := exists_forall_getElem? hB
  obtain ⟨z, hz, hmul⟩ := exists_isCmul_of_cmulSeq (κ := 2 :: κ) (hu k hk) (hv k hk)
  exact ⟨u k, v k, z, hu k hk, hv k hk, hz, hmul⟩

/-- Entry `k` of the chirp table of a transform whose place is `κ`. -/
def chirpAt (p : Params) (κ : DrawKey) (n k : Nat) : Cplx := chirpEntry p (k :: 0 :: κ) n k

/-- The first operand of the convolution of such a transform (R174). -/
def chirpedInput (p : Params) (κ : DrawKey) (n : Nat) (x : List Cplx) : List Cplx :=
  preChirp (1 :: κ) (convLength n) x (chirpTable p (0 :: κ) n)

/-- The second operand of the convolution of such a transform (R175). -/
def chirpedKernel (p : Params) (κ : DrawKey) (n : Nat) : List Cplx :=
  chirpKernel (convLength n) n (chirpTable p (0 :: κ) n)

theorem cztFwd_eq_unChirp (p : Params) (κ : DrawKey) {n : Nat} {x : List Cplx} (hx : x.length = n) :
    cztFwd p κ x =
      unChirp p (3 :: κ) (convolve p (2 :: κ) (chirpedInput p κ n x) (chirpedKernel p κ n)) (chirpTable p (0 :: κ) n) :=
  hx ▸ rfl

theorem chirpTable_getElem?_eq_chirpAt (p : Params) (κ : DrawKey) {n k : Nat} (hk : k < n) :
    (chirpTable p (0 :: κ) n)[k]? = some (chirpAt p κ n k) :=
  chirpTable_getElem? p _ hk

theorem chirpedInput_length (p : Params) (κ : DrawKey) {n : Nat} {x : List Cplx} (hx : x.length = n) :
    (chirpedInput p κ n x).length = convLength n := by
  have hm := two_mul_lt_convLength n
  exact preChirp_length (by rw [chirpTable_length, hx]) (by omega)

theorem chirpedKernel_length (p : Params) (κ : DrawKey) (n : Nat) : (chirpedKernel p κ n).length = convLength n :=
  chirpKernel_length ..

/-- The kernel holds entry 0 once, every other entry at its index and at the mirror of it, and zeros between (R175). -/
theorem chirpedKernel_getElem? (p : Params) (κ : DrawKey) {n : Nat} (h1 : 1 ≤ n) :
    (chirpedKernel p κ n)[0]? = some (chirpAt p κ n 0) ∧
    (∀ i, 1 ≤ i → i < n → (chirpedKernel p κ n)[i]? = some (chirpAt p κ n i) ∧
      (chirpedKernel p κ n)[convLength n - i]? = some (chirpAt p κ n i)) ∧
    ∀ i, n ≤ i → i ≤ convLength n - n → (chirpedKernel p κ n)[i]? = some czero := by
  have hm := two_mul_lt_convLength n
  refine ⟨?_, fun i hi hin => ⟨?_, ?_⟩, fun i hni hi => ?_⟩
  · exact chirpKernel_getElem?_of_lt h1 (by omega) (chirpTable_getElem?_eq_chirpAt p κ h1)
  · exact chirpKernel_getElem?_of_lt hin (by omega) (chirpTable_getElem?_eq_chirpAt p κ hin)
  · exact chirpKernel_getElem?_mirror hi hin hm (chirpTable_getElem?_eq_chirpAt p κ hin)
  · exact chirpKernel_getElem?_between hni hi (by omega)

/-- Each element of the forward transform is the snapped un-chirp of the convolution's (R177). -/
theorem exists_cztFwd_getElem? (p : Params) (κ : DrawKey) {n k : Nat} {x : List Cplx} (hx : x.length = n) (hk : k < n) :
    ∃ u z, (convolve p (2 :: κ) (chirpedInput p κ n x) (chirpedKernel p κ n))[k]? = some u ∧
      IsChirpmul z u (chirpAt p κ n k) ∧ (cztFwd p κ x)[k]? = some (csnap p.tol z) := by
  have hm := two_mul_lt_convLength n
  have ha := chirpedInput_length p κ hx
  have hl : (convolve p (2 :: κ) (chirpedInput p κ n x) (chirpedKernel p κ n)).length = convLength n :=
    (convolve_length ((chirpedKernel_length p κ n).trans ha.symm) (by rw [ha]; exact convLength_isPow2 n)).trans ha
  obtain ⟨u, hu⟩ := exists_forall_getElem? hl
  obtain ⟨z, hz, hzk⟩ :=
    exists_unChirp_getElem? p (3 :: κ) (hu k (by omega)) (chirpTable_getElem?_eq_chirpAt p κ hk)
  exact ⟨u k, z, hu k (by omega), hz, by rw [cztFwd_eq_unChirp p κ hx, hzk]⟩

/-! ### The transform in a direction (R178, R179) -/

/-- Where the draws of the forward transform are taken: the inverse runs it as its first part (R179). -/
def cztFwdKey (κ : DrawKey) : Dir → DrawKey
  | .fwd => κ
  | .inv => 0 :: κ

/-- Each element of the transform from those of the forward transform `y` of the same input: the elements of `y` forward,
their mirror divided by the length and snapped inverse. -/
theorem cztSeq_getElem?_of_cztFwd (p : Params) (κ : DrawKey) (dir : Dir) {n : Nat} {x : List Cplx} {y : Nat → Cplx}
    (hx : x.length = n) (hy : ∀ k < n, (cztFwd p (cztFwdKey κ dir) x)[k]? = some (y k)) :
    (dir = .fwd → ∀ k < n, (cztSeq p κ dir x)[k]? = some (y k)) ∧
    (dir = .inv → ∀ j < n, ∃ z, IsCscaleDiv z (y ((n - j) % n)) n ∧
      (cztSeq p κ dir x)[j]? = some (csnap p.tol z)) := by
  subst hx
  refine ⟨?_, ?_⟩
  · rintro rfl
    exact hy
  · rintro rfl j hj
    exact exists_mirrorScale_getElem? p _ hj (hy _ (Nat.mod_lt _ (by omega)))

/-- Settles O26: CZT commits its sequence function, whose steps are the chirp table, the two operands of the convolution,
the convolution and the un-chirp, each with its rule of elements. -/
theorem cztRunsTheConvolution : Obligations.CztRunsTheConvolution := by
  refine ⟨fun dir dst srca s hd ha hn => exec_czt_zero dir hd ha hn, fun dir dst srca s x hd ha hlim hf h1 hx => ?_⟩
  obtain ⟨t, ht, hc, hw, he⟩ := exec_czt_completes dir hd ha hlim hf h1 hx
  generalize hxs : (List.range s.n).map x = xs at he
  have hlen : xs.length = s.n := by simp [← hxs]
  have hxk : ∀ k < s.n, xs[k]? = some (x k) := fun k hk => hxs ▸ getElem?_map_range x hk
  generalize hκ : cztFwdKey s.key dir = κ
  obtain ⟨y, hy⟩ := exists_forall_getElem? ((cztFwd_length s.params κ xs).trans hlen)
  obtain ⟨hfwd, hinv⟩ := cztSeq_getElem?_of_cztFwd s.params s.key dir hlen (hκ ▸ hy)
  have hal := chirpedInput_length s.params κ hlen
  have hbl := chirpedKernel_length s.params κ s.n
  obtain ⟨hb0, hbi, hbz⟩ := chirpedKernel_getElem? s.params κ h1
  obtain ⟨A, B, P, hA, hB, hP, hPl, hC⟩ := exists_convolve_eq s.params (2 :: κ) (convLength_isPow2 s.n) hal hbl
  refine ⟨t, chirpAt s.params κ s.n, y, convLength s.n, chirpedInput s.params κ s.n xs, chirpedKernel s.params κ s.n,
    A, B, P, _, ht, hc, hw, rfl, fun i _ => ⟨_, _, rfl⟩, hal, fun i hi => ?_, fun i hi him => ?_, hbl, hb0, hbi, hbz,
    hA, hB, hP, hPl, hC, fun k hk => ?_, fun hdir k hk => (he k hk).trans (hfwd hdir k hk), fun hdir j hj => ?_⟩
  · exact exists_preChirp_getElem? _ _ (hxk i hi) (chirpTable_getElem?_eq_chirpAt s.params κ hi)
  · exact preChirp_getElem?_of_le _ (by rw [chirpTable_length, hlen]) (hlen.trans_le hi) him
  · obtain ⟨u, z, hu, hz, hzk⟩ := exists_cztFwd_getElem? s.params κ hlen hk
    exact ⟨u, z, hu, hz, Option.some.inj ((hy k hk).symm.trans hzk)⟩
  · obtain ⟨z, hz, hzj⟩ := hinv hdir j hj
    exact ⟨z, hz, (he j hj).trans hzj⟩

end Sys2Proof.Proofs
end

section
/-! PROOFS. The dispatch family (47_dispatch_nop.md): DFT as the engine its length selects, the error and the path that a
completion step reports, and NOP. -/

namespace Sys2Proof.Proofs
open Sys2Proof Sys2Proof.Machine

/-! ### NOP (R192) -/

/-- Settles O14: NOP is the completion step of a successful command and nothing else. -/
theorem nopOnlyCompletes : Obligations.NopOnlyCompletes := fun _ => ⟨_, rfl, rfl, rfl⟩

/-! ### What a completion step reports (R191, R203) -/

theorem err_of_succeededFrom {s t : State} {i : Instr} (h : SucceededFrom s t i) : t.err = false := by
  obtain ⟨p, u, re, im, zs, rfl, -⟩ := h
  rfl

theorem path_of_succeededFrom {s t : State} {i : Instr} (h : SucceededFrom s t i) : t.path = true ↔ chirpDft s i := by
  obtain ⟨p, u, re, im, zs, rfl, hp, -⟩ := h
  exact hp

/-- PATH is set exactly by a DFT whose banks exist and whose length takes the chirp-z path (R191). -/
theorem path_of_completionStep {s t : State} (h : completionStep s = .next t) :
    t.path = true ↔ ∃ i, decode s.cmdl = .ok i ∧ chirpDft s i := by
  rcases completionStep_cases s with ⟨e, p, t', -, -, hp, hr, hf⟩ | ⟨i, -, -, hr⟩ | ⟨i, t', hd, -, hr, hs⟩
  all_goals rw [hr] at h; cases h
  · rw [hf]
    exact hp
  · simpa [hd] using path_of_succeededFrom hs

/-- A completion step that ends in an error reports one that applies, and no error of a lower code applies (R203). -/
theorem latchedError_of_completionStep {s t : State} (h : completionStep s = .next t) (ht : t.err = true) :
    ∃ e : ErrorCode, t.errCode = e.code ∧ latchedError s e ∧
      ∀ e' : ErrorCode, e'.code.toNat < e.code.toNat → ¬latchedError s e' := by
  rcases completionStep_cases s with ⟨e, p, t', he, hfirst, -, hr, hf⟩ | ⟨i, -, -, hr⟩ | ⟨i, t', -, -, hr, hs⟩
  all_goals rw [hr] at h; cases h
  · exact ⟨e, by rw [hf], he, hfirst⟩
  · simp [err_of_succeededFrom hs] at ht

/-- The first error that applies is the one a completion step reports (R203). -/
theorem completionStep_of_latchedError {s t : State} {e : ErrorCode} (h : completionStep s = .next t)
    (he : latchedError s e) (hfirst : ∀ e' : ErrorCode, e'.code.toNat < e.code.toNat → ¬latchedError s e') :
    t.err = true ∧ t.errCode = e.code := by
  rcases completionStep_cases s with ⟨e', p, t', he', hfirst', -, hr, hf⟩ | ⟨i, -, hn, -⟩ | ⟨i, t', -, hn, -, -⟩
  · rw [hr] at h; cases h
    have hcode : e'.code = e.code := BitVec.eq_of_toNat_eq <|
      le_antisymm (not_lt.1 fun hlt => hfirst' e hlt he) (not_lt.1 fun hlt => hfirst e' hlt he')
    rw [hf]
    exact ⟨rfl, hcode⟩
  all_goals exact absurd he (hn e)

/-- A word with a row of the opcode map and no reserved bit set is that row's command (R99). -/
theorem decode_of_command? {s : State} {i : Instr} (h : s.cmdl.command? = some i)
    (hr : ¬latchedError s .reservedBits) : decode s.cmdl = .ok i := by
  have hopc : s.cmdl.opc < 0x0A := s.cmdl.command?_isSome.1 (by simp [h])
  rw [reservedBits_iff, not_and, Bool.not_eq_false] at hr
  exact decode_eq_ok.2 ⟨h, hr hopc⟩

theorem eq_inputTooLarge_of_code {e : ErrorCode} (h : e.code = 4) : e = .inputTooLarge := by
  cases e with
  | inputTooLarge => rfl
  | _ => exact absurd h (by decide)

/-- INPUT_TOO_LARGE is reported by the chirp-z engine alone, at `2^29` or more (R191). -/
theorem chirpLength_of_inputTooLarge {s t : State} (h : completionStep s = .next t) (ht : t.err = true)
    (hc : t.errCode = 4) : ∃ i, decode s.cmdl = .ok i ∧ chirpLength s.n i ∧ 2 ^ 29 ≤ s.n := by
  obtain ⟨e, he, ha, hfirst⟩ := latchedError_of_completionStep h ht
  obtain rfl := eq_inputTooLarge_of_code (he.symm.trans hc)
  obtain ⟨i, hi, hlen⟩ := ha
  exact ⟨i, decode_of_command? hi (hfirst .reservedBits (by decide)), hlen⟩

/-! ### The errors of DFT (R190) -/

section
variable {dir : Dir} {dst srca : Nat} {s : State} (hd : dst < s.params.nbanks) (ha : srca < s.params.nbanks)
include hd ha

/-- A DFT whose banks exist can report two errors: INPUT_TOO_LARGE on the chirp-z path, and CAPACITY. -/
theorem commandError_dft_iff (e : ErrorCode) :
    commandError s (.dft dir dst srca) e ↔
      e = .inputTooLarge ∧ (s.n ≠ 0 ∧ ¬IsPow2 s.n) ∧ 2 ^ 29 ≤ s.n ∨ e = .capacity ∧ s.params.depth < s.n := by
  cases e with
  | badBank => simp [commandError, readBanks, writeBank?, hd, ha]
  | inputTooLarge => simp [commandError, chirpLength]
  | capacity => simp [commandError, writeBank?]
  | _ => simp [commandError, badLength, badK]

theorem firstError_dft_of_chirp (hp : ¬IsPow2 s.n) (hn : 2 ^ 29 ≤ s.n) :
    FirstError s (.dft dir dst srca) .inputTooLarge := by
  refine ⟨(commandError_dft_iff hd ha _).2 (.inl ⟨rfl, ⟨by omega, hp⟩, hn⟩), fun e' hlt he' => ?_⟩
  obtain ⟨rfl, -⟩ | ⟨rfl, -⟩ := (commandError_dft_iff hd ha _).1 he'
  all_goals exact absurd hlt (by decide)

theorem firstError_dft_of_isPow2 (hp : IsPow2 s.n) (hn : s.params.depth < s.n) :
    FirstError s (.dft dir dst srca) .capacity := by
  refine ⟨(commandError_dft_iff hd ha _).2 (.inr ⟨rfl, hn⟩), fun e' hlt he' => ?_⟩
  obtain ⟨-, ⟨-, hchirp⟩, -⟩ | ⟨rfl, -⟩ := (commandError_dft_iff hd ha _).1 he'
  · exact hchirp hp
  · exact absurd hlt (by decide)

theorem not_commandError_dft (hf : s.n ≤ s.params.depth) (hlen : s.n = 0 ∨ IsPow2 s.n ∨ s.n < 2 ^ 29) (e : ErrorCode) :
    ¬commandError s (.dft dir dst srca) e := by
  rw [commandError_dft_iff hd ha]
  rintro (⟨-, ⟨h0, hp⟩, hn⟩ | ⟨-, hn⟩)
  · obtain h | h | h := hlen
    · exact h0 h
    · exact hp h
    · omega
  · omega

end

/-- The first error of the latched command is the one its completion step reports (R203). -/
theorem completionStep_of_firstError {s t : State} {i : Instr} {e : ErrorCode} (h : completionStep s = .next t)
    (hd : decode s.cmdl = .ok i) (he : FirstError s i e) : t.err = true ∧ t.errCode = e.code :=
  completionStep_of_latchedError h ((latchedError_of_decode hd e).2 he.1) fun e' hlt =>
    mt (latchedError_of_decode hd e').1 (he.2 e' hlt)

/-- Settles O9: PATH by the cases of the completion step, and each of the two errors as the first that applies. -/
theorem pathReportsTheRoute : Obligations.PathReportsTheRoute := by
  refine fun s t h => ⟨path_of_completionStep h, chirpLength_of_inputTooLarge h, ?_⟩
  refine fun dir dst srca hdec hd ha => ⟨fun hp hn => ?_, fun hp hn => ?_⟩
  · exact completionStep_of_firstError h hdec (firstError_dft_of_chirp hd ha hp hn)
  · exact completionStep_of_firstError h hdec (firstError_dft_of_isPow2 hd ha hp hn)

/-! ### DFT as the engine its length selects (R190) -/

/-- The snapshot a bank-to-bank command works on has the command's length, so its function counts at that length alone. -/
theorem bankCommand_congr {cs cs' : List Check} {f g : List Cplx → List Cplx} {s : State} (p u : Bool) (d a : Nat)
    (hc : firstError cs = firstError cs') (hfg : ∀ x : List Cplx, x.length = s.n → f x = g x) :
    bankCommand p u cs d a f s = bankCommand p u cs' d a g s := by
  unfold bankCommand
  rw [hc]
  cases hs : s.snapshot a s.n with
  | none => rfl
  | some x => simp only [hfg x (State.snapshot_eq_some hs).1]

/-- A bank-to-bank command writes PATH as it is told and does not look at it. -/
theorem bankCommand_true (u : Bool) (cs : List Check) (d a : Nat) (f : List Cplx → List Cplx) (s : State) :
    bankCommand true u cs d a f s = mapNext ({ · with path := true }) (bankCommand false u cs d a f s) := by
  unfold bankCommand
  cases firstError cs with
  | some e => rfl
  | none =>
    by_cases h0 : s.n = 0
    · rw [if_pos h0, if_pos h0]
      rfl
    · rw [if_neg h0, if_neg h0]
      cases s.snapshot a s.n <;> rfl

theorem dftSeq_of_powLength (p : Params) (κ : DrawKey) (dir : Dir) {x : List Cplx} (h : powLength x.length = true) :
    dftSeq p κ dir x = fftSeq p κ dir x := if_pos h

theorem dftSeq_of_not_powLength (p : Params) (κ : DrawKey) (dir : Dir) {x : List Cplx}
    (h : powLength x.length = false) : dftSeq p κ dir x = cztSeq p κ dir x := by
  rw [dftSeq, h]
  rfl

/-- DFT with what its length decides, PATH, the use of the scratch and the limit of the chirp-z engine, written in. -/
theorem exec_dft_eq {c : Bool} (dir : Dir) (dst srca : Nat) {s : State} (hc : powLength s.n = !c) :
    exec (.dft dir dst srca) s =
      bankCommand ((s.bankExists srca && s.bankExists dst) && c) c
        [(s.bankExists srca && s.bankExists dst, .badBank), (!c || decide (s.n < cztLimit), .inputTooLarge),
         (s.fitsBank, .capacity)]
        dst srca (dftSeq s.params s.key dir) s := by
  change execDft dir dst srca s = _
  simp only [execDft, hc, Bool.not_not]

/-- At length 0 and the powers of two DFT is FFT. -/
theorem exec_dft_eq_exec_fft (dir : Dir) (dst srca : Nat) {s : State} (h : s.n = 0 ∨ IsPow2 s.n) :
    exec (.dft dir dst srca) s = exec (.fft dir dst srca) s := by
  have hp : powLength s.n = true := powLength_iff.2 h
  rw [exec_dft_eq (c := false) dir dst srca hp, Bool.and_false]
  exact bankCommand_congr false false dst srca (by simp [hp]) fun x hx => dftSeq_of_powLength _ _ _ (hx ▸ hp)

/-- At every other length DFT with existing banks is CZT, with PATH set. -/
theorem exec_dft_eq_exec_czt (dir : Dir) {dst srca : Nat} {s : State} (h0 : s.n ≠ 0) (hp2 : ¬IsPow2 s.n)
    (hd : dst < s.params.nbanks) (ha : srca < s.params.nbanks) :
    exec (.dft dir dst srca) s = mapNext ({ · with path := true }) (exec (.czt dir dst srca) s) := by
  have hp : powLength s.n = false := Bool.eq_false_iff.2 (mt powLength_iff.1 (not_or.2 ⟨h0, hp2⟩))
  have hpath : ((s.bankExists srca && s.bankExists dst) && true) = true := by
    simp [bankExists_iff.2 ha, bankExists_iff.2 hd]
  rw [exec_dft_eq (c := true) dir dst srca hp, hpath, bankCommand_true]
  exact congrArg _ (bankCommand_congr false true dst srca (by simp) fun x hx => dftSeq_of_not_powLength _ _ _ (hx ▸ hp))

/-! ### The completion of DFT -/

/-- A command that no error applies to and whose read set is initialised succeeds (R207). -/
theorem exec_succeeds {i : Instr} {s : State} (hn : ∀ e, ¬commandError s i e)
    (hr : ∀ b ∈ readBanks i, ∀ k < s.n, ∀ im, s.initBit b k im = true) :
    ∃ t, exec i s = .next t ∧ SucceededFrom s t i := by
  rcases exec_cases i s with ⟨e, p, t, he, -, -, -⟩ | ⟨-, hu, -⟩ | ⟨t, -, -, ht, hs⟩
  · exact absurd he.1 (hn e)
  · obtain ⟨b, hb, k, hk, im, h0⟩ := hu
    simp [hr b hb k hk im] at h0
  · exact ⟨t, ht, hs⟩

theorem initBit_of_bankHolds {s : State} {b n : Nat} {x : Nat → Cplx} (h : BankHolds s b n x) :
    ∀ k < n, ∀ im, s.initBit b k im = true :=
  State.initBit_of_snapshot (State.snapshot_of_bankHolds h)

/-- Settles O29: DFT runs the checks and the sequence function of the engine that its length selects, and no error applies
to it at the lengths it completes at. -/
theorem dftDispatchesOnLength : Obligations.DftDispatchesOnLength := by
  refine ⟨fun dir dst srca s => exec_dft_eq_exec_fft dir dst srca, fun dir dst srca s h0 hp hd ha => ?_,
    fun dir dst srca s x hd ha hf hlen hx => ?_⟩
  · rw [exec_dft_eq_exec_czt dir h0 hp hd ha]
    cases exec (.czt dir dst srca) s <;> rfl
  · obtain ⟨t, ht, hs⟩ := exec_succeeds (i := .dft dir dst srca) (not_commandError_dft hd ha hf hlen)
      (by simpa [readBanks] using initBit_of_bankHolds hx)
    obtain ⟨zs, hl, hm⟩ := mem_of_succeededFrom_some hs rfl
    have hend := endedFrom_of_succeededFrom hs
    exact ⟨t, ht, err_of_succeededFrom hs, hend.done, hend.busy,
      by simp [path_of_succeededFrom hs, chirpDft, hd, ha], onlyElementsWritten_of_writeElems hm hl.le,
      fun k hk => ⟨_, State.element_of_writeElems hend.params hm (hl ▸ hk)⟩⟩

end Sys2Proof.Proofs
end

section
/-! PROOFS. The exceptions and reset families (60_exceptions.md, 70_reset_and_hazards.md): the first error of a completion
step and what a failed one records, one step as the next agent's turn, the start step, the reset values, and that a command
in flight does not outlast the pending turns. -/

namespace Sys2Proof.Proofs
open Sys2Proof Sys2Proof.Machine

/-! ### The error of a completion step (R203, R204) -/

/-- A completion step to whose command an error applies does not fault: the checks come before the reads (R203). -/
theorem exists_completionStep_of_latchedError {s : State} {e : ErrorCode} (he : latchedError s e) :
    ∃ t, completionStep s = .next t := by
  rcases completionStep_cases s with ⟨-, -, t, -, -, -, hr, -⟩ | ⟨-, -, hn, -⟩ | ⟨-, -, -, hn, -, -⟩
  · exact ⟨t, hr⟩
  all_goals exact absurd he (hn e)

/-- Settles O7: an error that applies keeps the completion step from faulting, and the first one is the one it reports;
without one it can only fault or succeed. -/
theorem firstErrorIsReported : Obligations.FirstErrorIsReported := by
  refine ⟨fun s e he hfirst => ?_, fun s hnone => ?_⟩
  · obtain ⟨t, ht⟩ := exists_completionStep_of_latchedError he
    exact ⟨t, ht, completionStep_of_latchedError ht he hfirst⟩
  · rcases completionStep_cases s with ⟨e, -, -, he, -⟩ | ⟨-, -, -, hr⟩ | ⟨i, t, -, -, hr, hs⟩
    · exact absurd he (hnone e)
    · exact .inl hr
    · exact .inr ⟨t, hr, err_of_succeededFrom hs⟩

/-- A completion step that ends in an error has done what `FailedFrom` says, and nothing else (R204). -/
theorem failedFrom_of_completionStep {s t : State} (h : completionStep s = .next t) (ht : t.err = true) :
    ∃ e : ErrorCode, latchedError s e ∧ FailedFrom s t e t.path := by
  rcases completionStep_cases s with ⟨e, p, t', he, -, -, hr, hf⟩ | ⟨-, -, -, hr⟩ | ⟨i, t', -, -, hr, hs⟩
  all_goals rw [hr] at h; cases h
  · have hp : t.path = p := by rw [hf]
    exact ⟨e, he, hp ▸ hf⟩
  · simp [err_of_succeededFrom hs] at ht

/-- Settles O8: the failed completion step as one update of the state, and PATH as every completion step writes it. -/
theorem failedCommandRecordsOnlyItsError : Obligations.FailedCommandRecordsOnlyItsError := by
  intro s t h ht
  obtain ⟨e, he, hf⟩ := failedFrom_of_completionStep h ht
  exact ⟨e, he, hf, path_of_completionStep h⟩

/-! ### One step as the next agent's turn (R30, R207, R230) -/

/-- With no turn pending the step is the Engine's. -/
theorem step_of_no_turns {s : State} (h : s.turns = []) : step s = engineTurn s := by
  simp [step, h]

/-- With turns pending the step is the next one's, on the state without it. -/
theorem step_of_turn {s : State} {τ : Turn} {ts : List Turn} (h : s.turns = τ :: ts) :
    step s = takeTurn τ { s with turns := ts } := by
  simp [step, h]

/-- The Engine's turn, enabled, runs the command that the latched word decodes to (R207). -/
theorem engineTurn_of_busy {s : State} {i : Instr} (hb : s.busy = true) (hr : s.inReset = false)
    (hd : decode s.cmdl = .ok i) : engineTurn s = exec i s := by
  simp [engineTurn, State.engineEnabled, hb, hr, completionStep, hd]

/-- The Engine has no step while idle (R216, R234) or in reset (R230). -/
theorem engineTurn_of_not_enabled {s : State} (h : s.busy = false ∨ s.inReset = true) : engineTurn s = .next s := by
  have hen : s.engineEnabled = false := by
    rcases h with h | h <;> simp [State.engineEnabled, h]
  simp [engineTurn, hen]

theorem hostTurn_of_released {s : State} (a : BusAccess) (h : s.inReset = false) : hostTurn a s = busAccess a s := by
  simp [hostTurn, h]

/-- No bus access completes while reset is asserted (R230). -/
theorem hostTurn_of_inReset {s : State} (a : BusAccess) (h : s.inReset = true) : hostTurn a s = .next s := by
  simp [hostTurn, h]

theorem withFetchWord_cmdl (s : State) (w : CmdWord) : (s.withFetchWord 32 w.toNat).cmdl = w := by
  change BitVec.ofNat 32 (w.toNat % 2 ^ 32) = w
  rw [Nat.mod_eq_of_lt w.isLt, BitVec.ofNat_toNat, BitVec.setWidth_eq]

/-- Settles O5: the step is the next turn, and each turn by whether its agent has a step. -/
theorem stepRunsTheLatchedCommand : Obligations.StepRunsTheLatchedCommand := by
  refine ⟨fun s i hb hr hd => ⟨fun h => ?_, fun ts h => ?_⟩, fun s a ts h => ⟨fun hr => ?_, fun hr => ?_⟩,
    fun s hi => ⟨fun h => ?_, fun ts h => ?_⟩, fun s ts => ⟨step_of_turn, step_of_turn⟩, fun s w i hd => ?_⟩
  · exact (step_of_no_turns h).trans (engineTurn_of_busy hb hr hd)
  · exact (step_of_turn h).trans (engineTurn_of_busy (s := { s with turns := ts }) hb hr hd)
  · exact (step_of_turn h).trans (hostTurn_of_released (s := { s with turns := ts }) a hr)
  · exact (step_of_turn h).trans (hostTurn_of_inReset (s := { s with turns := ts }) a hr)
  · exact (step_of_no_turns h).trans (engineTurn_of_not_enabled hi)
  · exact (step_of_turn h).trans (engineTurn_of_not_enabled (s := { s with turns := ts }) hi)
  · have hw := withFetchWord_cmdl s w
    exact ⟨hw, (step_of_no_turns rfl).trans (engineTurn_of_busy rfl rfl (hw.symm ▸ hd))⟩

/-! ### The start step (R36, R205) -/

/-- Settles O44: the three branches of a write of CTRL, each of them one update of the state. -/
theorem startStepLatchesTheCommand : Obligations.StartStepLatchesTheCommand := by
  intro s v
  rw [busWrite_ctrl, State.writeCtrl]
  refine ⟨fun hv => ?_, fun hv => if_neg (by simpa using hv)⟩
  rw [if_pos hv]
  exact ⟨fun hb => if_pos hb, fun hb => if_neg (by simp [hb])⟩

/-! ### A command in flight (R240) -/

/-- A bus access while a command is in flight does not fault: the reads that could are refused (R67). -/
theorem exists_busAccess_of_busy (a : BusAccess) {s : State} (hb : s.busy = true) : ∃ t, busAccess a s = .next t := by
  cases a with
  | read width offset =>
    rcases busRead_cases width offset s with ⟨v, hr⟩ | hr | ⟨hi, -⟩
    · exact ⟨_, hr⟩
    · exact ⟨_, hr⟩
    · cases hb.symm.trans hi
  | write width offset v => exact ⟨_, rfl⟩

/-- A completion step ends its command, or faults on its read set (R207, R211). -/
theorem completionStep_ends (s : State) :
    completionStep s = .fault .uninitRead ∨ ∃ t, completionStep s = .next t ∧ t.busy = false := by
  rcases completionStep_cases s with ⟨-, -, t, -, -, -, hr, -⟩ | ⟨-, -, -, hr⟩ | ⟨-, t, -, -, hr, -⟩
  · exact .inr ⟨t, hr, (endedFrom_of_completionStep hr).busy⟩
  · exact .inl hr
  · exact .inr ⟨t, hr, (endedFrom_of_completionStep hr).busy⟩

section
variable {s : State} (h : s.Inv) (hb : s.busy = true)
include h hb

theorem inReset_of_busy : s.inReset = false :=
  Bool.eq_false_iff.2 fun hr => by simp [(h.quiet hr).1] at hb

theorem engineTurn_ends : engineTurn s = .fault .uninitRead ∨ ∃ t, engineTurn s = .next t ∧ t.busy = false := by
  have he : engineTurn s = completionStep s := by
    simp [engineTurn, State.engineEnabled, hb, inReset_of_busy h hb]
  rw [he]
  exact completionStep_ends s

/-- A turn taken while a command is in flight ends the command, faults, or changes at most the fields a host access can
change then: the Engine completes it, an assertion of reset abandons it, and a release has nothing to release. -/
theorem takeTurn_of_busy (τ : Turn) :
    takeTurn τ s = .fault .uninitRead ∨
      ∃ t, takeTurn τ s = .next t ∧ (t.busy = false ∨ ∃ q e v, t = withHostFields q e v s) := by
  have hr := inReset_of_busy h hb
  cases τ with
  | host a =>
    obtain ⟨t, ht⟩ := exists_busAccess_of_busy a hb
    exact .inr ⟨t, (hostTurn_of_released a hr).trans ht, .inr ⟨_, _, _, busAccess_of_busy hb (h.flags.1 hb) ht⟩⟩
  | engine => exact (engineTurn_ends h hb).imp_right fun ⟨t, ht, hi⟩ => ⟨t, ht, .inl hi⟩
  | resetAssert => exact .inr ⟨_, rfl, .inl rfl⟩
  | resetRelease =>
    have hs : releaseReset s = s := by simp [releaseReset, hr]
    exact .inr ⟨s, congrArg _ hs, .inr ⟨s.irqEn, s.accessErr, s.rdata, rfl⟩⟩

end

/-- Within `m` steps the run from `s` ends with BUSY = 0 or in the fault. -/
def EndsWithin (m : Nat) (s : State) : Prop :=
  ∃ k ≤ m, (∃ t, Host.Core.run Sys2Proof.core k s = .next t ∧ t.busy = false) ∨
    Host.Core.run Sys2Proof.core k s = .fault .uninitRead

theorem run_succ_of_next {M : Host.Core} {s t : M.State} (h : M.step s = .next t) (k : Nat) :
    M.run (k + 1) s = M.run k t := by
  simp only [Host.Core.run, h]

theorem run_succ_of_fault {M : Host.Core} {s : M.State} {f : M.Fault} (h : M.step s = .fault f) (k : Nat) :
    M.run (k + 1) s = .fault f := by
  simp only [Host.Core.run, h]

theorem endsWithin_of_fault {m : Nat} {s : State} (h : step s = .fault .uninitRead) : EndsWithin (m + 1) s :=
  ⟨1, by omega, .inr (run_succ_of_fault h 0)⟩

theorem endsWithin_of_idle {m : Nat} {s t : State} (h : step s = .next t) (hi : t.busy = false) :
    EndsWithin (m + 1) s :=
  ⟨1, by omega, .inl ⟨t, run_succ_of_next h 0, hi⟩⟩

theorem endsWithin_succ {m : Nat} {s t : State} (h : step s = .next t) : EndsWithin m t → EndsWithin (m + 1) s :=
  fun ⟨k, hk, hr⟩ => ⟨k + 1, by omega, by rwa [run_succ_of_next (M := Sys2Proof.core) h]⟩

/-- Each pending turn ends the command or leaves it in flight with one turn fewer, and the Engine's step comes last. -/
theorem endsWithin_of_busy {s : State} {ts : List Turn} (hts : s.turns = ts) (h : s.Inv) (hb : s.busy = true) :
    EndsWithin (ts.length + 1) s := by
  induction ts generalizing s with
  | nil =>
    have hstep := step_of_no_turns hts
    rcases engineTurn_ends h hb with hf | ⟨t, ht, hi⟩
    · exact endsWithin_of_fault (hstep.trans hf)
    · exact endsWithin_of_idle (hstep.trans ht) hi
  | cons τ ts ih =>
    have hstep := step_of_turn hts
    have h' : ({ s with turns := ts } : State).Inv := ⟨h.params, h.canonical, h.whole, h.flags, h.quiet⟩
    rcases takeTurn_of_busy h' hb τ with hf | ⟨t, ht, hi | ⟨q, e, v, rfl⟩⟩
    · exact endsWithin_of_fault (hstep.trans hf)
    · exact endsWithin_of_idle (hstep.trans ht) hi
    · have hnext := hstep.trans ht
      exact endsWithin_succ hnext (ih rfl (stepKeepsTheInvariant _ _ h hnext) hb)

/-- Settles O54: by induction on the pending turns. -/
theorem commandInFlightCompletes : Obligations.CommandInFlightCompletes := fun _ h hb => endsWithin_of_busy rfl h hb

/-! ### Reset (R230 to R232, R234) -/

/-- Settles O49: an asserted reset leaves the reset values with the reset input set, under which neither agent has a step. -/
theorem resetAbandonsTheCommand : Obligations.ResetAbandonsTheCommand := fun s =>
  ⟨assertReset s, (assertReset s).afterReset, rfl, rfl, rfl, engineTurn_of_not_enabled (.inl rfl),
    fun a => hostTurn_of_inReset a rfl, rfl, rfl⟩

/-- Settles O50: each register of the reset state is read off, and the idle Engine has no step. -/
theorem resetRegisterValues : Obligations.ResetRegisterValues := by
  refine ⟨rfl, rfl, rfl, rfl, rfl, rfl, rfl, rfl, rfl, rfl, rfl, rfl, rfl, ?_⟩
  exact (step_of_no_turns rfl).trans (engineTurn_of_not_enabled (.inl rfl))

/-- Settles O52: the default parameters are legal, and the reset core is quiet. -/
theorem resetMeetsTheInvariant : Obligations.ResetMeetsTheInvariant :=
  inv_of_quiet (s := State.reset) (by decide) rfl rfl rfl rfl rfl

end Sys2Proof.Proofs
end
